-- ==== Sys2Proof/Word.lean ====
section
/-! DEFINITION. Sys2Proof/Word.lean: the widths of the values the core handles (00_scope.md rule R9) and the
exact time (R9, R29). -/

namespace Sys2Proof

/-- An ancillary word, 10 bits: `WORD_BITS` (R7, R9). -/
abbrev Word := BitVec 10

/-- A byte, 8 bits (R9). -/
abbrev Byte := BitVec 8

/-- A de-paritied code, 7 bits (R9). -/
abbrev Code := BitVec 7

/-- A command word, 32 bits (R60). -/
abbrev CmdWord := BitVec 32

/-- A time: an exact non-negative rational number of seconds (R9), in lowest terms, so that equal times are equal
data. -/
structure Time where
  num : Nat
  den : Nat
  den_pos : 0 < den
  reduced : Nat.gcd num den = 1
  deriving DecidableEq, Repr

/-- The time 0. -/
def Time.zero : Time := ⟨0, 1, by decide, by decide⟩

/-- The 2-bit packet type of a cc triplet (R77). -/
inductive PacketType where
  | cc1
  | cc2
  | dtvcc
  | dtvccStart
  deriving DecidableEq, Repr

end Sys2Proof
end

