-- ==== Sys2Proof/Machine/Packets.lean ====
section
/-! DEFINITION. Sys2Proof/Machine/Packets.lean: the records the commands take and return (41_vanc_decoder.md rule R120,
42_cdp_decoder.md rule R140, 44_eia608.md rule R216). Fields narrower than a byte have the width of their value. -/

namespace Sys2Proof.Machine

/-- `VancPacket` (R120). -/
structure VancPacket where
  did : Byte
  sdid : Byte
  dataCount : Byte
  payload : List Byte
  checksum : BitVec 16
  deriving DecidableEq, Repr

/-- `CcDataUnit` (R140, R150): `marker` is the masked byte, not shifted (R76). -/
structure CcDataUnit where
  marker : Byte
  valid : Bool
  packetType : PacketType
  data1 : Byte
  data2 : Byte
  deriving DecidableEq, Repr

/-- The eight CDP flags, bit 7 first (R74). -/
structure CdpFlags where
  timecodePresent : Bool
  ccDataPresent : Bool
  svcInfoPresent : Bool
  svcInfoStart : Bool
  svcInfoChange : Bool
  svcInfoComplete : Bool
  captionServiceActive : Bool
  reserved : Bool
  deriving DecidableEq, Repr

/-- `ServiceRecord` (R80, R155). -/
structure ServiceRecord where
  reserved1 : Bool
  sizeFlag : Bool
  reserved2 : Option Bool
  serviceNumber : BitVec 6
  serviceData : Vector Byte 6
  deriving DecidableEq, Repr

/-- `ServiceInfoBlock` (R79, R153). -/
structure ServiceInfoBlock where
  marker : Byte
  reserved : Bool
  start : Bool
  change : Bool
  complete : Bool
  serviceCount : BitVec 4
  records : List ServiceRecord
  deriving DecidableEq, Repr

/-- `CdpPacket` (R140), with this spec's `sequence_counter_legacy` (R147). `cc_packets` holds at most 31 units, its length
being the 5-bit `cc_count` (R75, R140, R299). -/
structure CdpPacket where
  marker1 : Byte
  marker2 : Byte
  length : Byte
  frameRate : BitVec 4
  flags : CdpFlags
  sequenceCounter : BitVec 16
  sequenceCounterLegacy : Option (BitVec 16)
  sectionId : Byte
  ccMarker : BitVec 3
  ccCount : BitVec 5
  ccPackets : List CcDataUnit
  ccBound : ccPackets.length ≤ 31
  footerId : Byte
  footerSequenceCounter : BitVec 16
  serviceInfo : Option ServiceInfoBlock
  deriving DecidableEq, Repr

/-- `CompletedCaptionLine` (R216). -/
structure CompletedCaptionLine where
  text : List Code
  timestampMs : BitVec 32
  deriving DecidableEq, Repr

end Sys2Proof.Machine
end

