-- ==== Sys2Proof/Syntax.lean ====
section
/-! DEFINITION. Sys2Proof/Syntax.lean: the commands, one constructor per row of spec/opcode_table.json
(30_encoding.md rule R62). Side operands (R61) are not part of the command word: they stand in the machine's state. -/

namespace Sys2Proof

/-- A command: its opcode and the fields its command word carries (R60, R62). -/
inductive Instr where
  /-- NOP (R243). -/
  | nop
  /-- FIND_ADF (R101). -/
  | findAdf
  /-- FIND_CC (R103). -/
  | findCc
  /-- DECODE_VANC (R121). -/
  | decodeVanc
  /-- DECODE_CDP (R141). -/
  | decodeCdp
  /-- SELECT_PAIR with its wanted type (R180). -/
  | selectPair (wt : PacketType)
  /-- FEED_PAIR with its two raw bytes (R200). -/
  | feedPair (b0 b1 : Byte)
  /-- PROCESS_LINE with its wanted type (R240). -/
  | processLine (wt : PacketType)
  deriving DecidableEq, Repr

end Sys2Proof
end

