-- ==== Sys2Proof/WellFormed.lean ====
section
/-! DEFINITION. Sys2Proof/WellFormed.lean: which commands and which packet records are legal. Every field value of a
command is legal (30_encoding.md rules R64, R77: no type and no raw byte is reserved), so a command has nothing to check;
the packet records carry counts that must agree with their sequences (R120, R140). -/

namespace Sys2Proof

/-- Every command is well formed: its fields are typed, and R62 to R64, R77 reserve no value of them. -/
def Instr.WellFormed : Instr → Bool
  | .nop => true
  | .findAdf => true
  | .findCc => true
  | .decodeVanc => true
  | .decodeCdp => true
  | .selectPair _ => true
  | .feedPair _ _ => true
  | .processLine _ => true

namespace Machine

/-- "Invariant: `payload.length == data_count`" (R120). -/
def VancPacket.wf (v : VancPacket) : Bool :=
  v.payload.length == v.dataCount.toNat && v.checksum.toNat < 1024

/-- A triplet's marker is a multiple of 8 (R76). -/
def CcDataUnit.wf (u : CcDataUnit) : Bool := u.marker &&& 0x07 == 0

/-- A record's `reserved2` is present exactly with the size flag, and the service number then has 5 bits (R80). -/
def ServiceRecord.wf (r : ServiceRecord) : Bool :=
  r.reserved2.isSome == r.sizeFlag && (!r.sizeFlag || r.serviceNumber.toNat < 32)

/-- "records: sequence<ServiceRecord> (length = service_count)" (R140). -/
def ServiceInfoBlock.wf (b : ServiceInfoBlock) : Bool :=
  b.records.length == b.serviceCount.toNat && b.records.all ServiceRecord.wf

/-- "cc_packets: ordered sequence<CcDataUnit> (length = cc_count)", and the service-info block is present exactly when
its flag is set (R140, R152). -/
def CdpPacket.wf (c : CdpPacket) : Bool :=
  c.ccPackets.length == c.ccCount.toNat && c.ccPackets.all CcDataUnit.wf &&
    c.serviceInfo.isSome == c.flags.svcInfoPresent && c.serviceInfo.all ServiceInfoBlock.wf

end Machine

end Sys2Proof
end

