-- ==== Sys2Proof/Decode.lean ====
section
/-! DEFINITION. Sys2Proof/Decode.lean: the command word (30_encoding.md rules R60 to R64), its decoder, its encoder, and
the opcode map as a table of masks and matches (spec/opcode_table.json). -/

namespace Sys2Proof

/-- Why a command word is illegal (R63, R244). -/
inductive Illegal where
  /-- Bits 7:6 or 31:24 are not 0. -/
  | reservedBits
  /-- `op` is 0x8..0xF. -/
  | reservedOpcode
  /-- A field the opcode does not use is not 0. -/
  | unusedField
  deriving DecidableEq, Repr

/-- `wt` codes: 0 CC1, 1 CC2, 2 DTVCC, 3 DTVCC_START (R77). -/
def packetTypeOf (c : BitVec 2) : PacketType :=
  match c.toNat with
  | 0 => .cc1
  | 1 => .cc2
  | 2 => .dtvcc
  | _ => .dtvccStart

/-- The code of a packet type (R77). -/
def packetTypeCode : PacketType → BitVec 2
  | .cc1 => 0
  | .cc2 => 1
  | .dtvcc => 2
  | .dtvccStart => 3

/-- Bits 3:0, `op` (R60). -/
def opField (w : CmdWord) : BitVec 4 := w.extractLsb' 0 4

/-- Bits 5:4, `wt` (R60, R64). -/
def wtField (w : CmdWord) : BitVec 2 := w.extractLsb' 4 2

/-- Bits 7:6, reserved (R60). -/
def reservedLow (w : CmdWord) : BitVec 2 := w.extractLsb' 6 2

/-- Bits 15:8, `b0` (R60, R64). -/
def b0Field (w : CmdWord) : Byte := w.extractLsb' 8 8

/-- Bits 23:16, `b1` (R60, R64). -/
def b1Field (w : CmdWord) : Byte := w.extractLsb' 16 8

/-- Bits 31:24, reserved (R60). -/
def reservedHigh (w : CmdWord) : Byte := w.extractLsb' 24 8

/-- `i` if the fields its opcode does not use are 0, else the word is illegal (R63). -/
def whenUnused (unusedAreZero : Bool) (i : Instr) : Except Illegal Instr :=
  if unusedAreZero then .ok i else .error .unusedField

/-- The command a word stands for, or why it is illegal (R62, R63). Total on all words. -/
def decode (w : CmdWord) : Except Illegal Instr :=
  if reservedLow w ≠ 0 ∨ reservedHigh w ≠ 0 then .error .reservedBits
  else
    let noWt := wtField w == 0
    let noBytes := b0Field w == 0 && b1Field w == 0
    match (opField w).toNat with
    | 0 => whenUnused (noWt && noBytes) .nop
    | 1 => whenUnused (noWt && noBytes) .findAdf
    | 2 => whenUnused (noWt && noBytes) .findCc
    | 3 => whenUnused (noWt && noBytes) .decodeVanc
    | 4 => whenUnused (noWt && noBytes) .decodeCdp
    | 5 => whenUnused noBytes (.selectPair (packetTypeOf (wtField w)))
    | 6 => whenUnused noWt (.feedPair (b0Field w) (b1Field w))
    | 7 => whenUnused noBytes (.processLine (packetTypeOf (wtField w)))
    | _ => .error .reservedOpcode

/-- A command word from its fields, the reserved bits 0 (R60). -/
def pack (op : BitVec 4) (wt : BitVec 2) (b0 b1 : Byte) : CmdWord :=
  0#8 ++ b1 ++ b0 ++ 0#2 ++ wt ++ op

/-- The word of a command (R60, R62), every unused field 0. -/
def encode : Instr → CmdWord
  | .nop => pack 0x0 0 0 0
  | .findAdf => pack 0x1 0 0 0
  | .findCc => pack 0x2 0 0 0
  | .decodeVanc => pack 0x3 0 0 0
  | .decodeCdp => pack 0x4 0 0 0
  | .selectPair wt => pack 0x5 (packetTypeCode wt) 0 0
  | .feedPair b0 b1 => pack 0x6 0 b0 b1
  | .processLine wt => pack 0x7 (packetTypeCode wt) 0 0

/-- One row of spec/opcode_table.json: a word is the row's command when `word &&& mask = value`. -/
structure OpcodeRow where
  mnemonic : String
  value : CmdWord
  mask : CmdWord
  deriving DecidableEq, Repr

/-- The rows of spec/opcode_table.json, in its order. -/
def opcodeRows : List OpcodeRow :=
  [ ⟨"NOP", 0x00000000, 0xFFFFFFFF⟩,
    ⟨"FIND_ADF", 0x00000001, 0xFFFFFFFF⟩,
    ⟨"FIND_CC", 0x00000002, 0xFFFFFFFF⟩,
    ⟨"DECODE_VANC", 0x00000003, 0xFFFFFFFF⟩,
    ⟨"DECODE_CDP", 0x00000004, 0xFFFFFFFF⟩,
    ⟨"SELECT_PAIR", 0x00000005, 0xFFFFFFCF⟩,
    ⟨"FEED_PAIR", 0x00000006, 0xFF0000FF⟩,
    ⟨"PROCESS_LINE", 0x00000007, 0xFFFFFFCF⟩ ]

/-- The mnemonic of a command (R62). -/
def mnemonic : Instr → String
  | .nop => "NOP"
  | .findAdf => "FIND_ADF"
  | .findCc => "FIND_CC"
  | .decodeVanc => "DECODE_VANC"
  | .decodeCdp => "DECODE_CDP"
  | .selectPair _ => "SELECT_PAIR"
  | .feedPair _ _ => "FEED_PAIR"
  | .processLine _ => "PROCESS_LINE"

/-- What the decoder reads from a command whose bits are `w`, of which the table gives `nbits`: a command is one 32-bit
word (R60), so bits from `nbits` on are 0 and a longer word is no command. -/
def decodeTableWord (nbits w : Nat) : Option Instr :=
  if 2 ^ 32 ≤ w then none else (decode (BitVec.ofNat 32 (w % 2 ^ nbits))).toOption

end Sys2Proof
end

