-- ==== Sys2Proof/Config.lean ====
section
/-! DEFINITION. Sys2Proof/Config.lean: the parameters of an instance (00_scope.md rule R7) as a record, and the values
that stay open: constants with no body, of which no proof can know anything. -/

namespace Sys2Proof

/-- The two data channels the state machine tells apart (R22, R23). -/
inductive Channel where
  | ch1
  | ch2
  deriving DecidableEq, Repr

/-- One entry of `ROW_TABLE` (R27): a control byte, the inclusive range of the second byte, and a row index 0..14. -/
structure RowEntry where
  ctrl : Byte
  lo : Byte
  hi : Byte
  row : Fin 15
  deriving DecidableEq, Repr

/-- The parameters fixed when an instance is built (R7, R292). The machine holds them beside the state
(log 1) so that every statement is about every choice of them. -/
structure Params where
  /-- `CC_DID10` (R102). -/
  ccDid10 : Word
  /-- `CC_SDID10` (R102). -/
  ccSdid10 : Word
  /-- `VERIFY_CHECKSUM` (R124, R125). -/
  verifyChecksum : Bool
  /-- `CDP_MARKER1` (R143). -/
  cdpMarker1 : Byte
  /-- `CDP_MARKER2` (R143). -/
  cdpMarker2 : Byte
  /-- `CDP_FOOTER_ID` (R151). -/
  cdpFooterId : Byte
  /-- `LEGACY_SEQ_IDX`: word offsets of the high and the low byte from the ADF, if present (R147). -/
  legacySeqIdx : Option (Nat × Nat)
  /-- `DEPARITY` (R26). -/
  deparity : Vector Code 256
  /-- `ROW_TABLE` (R27). -/
  rowTable : Vector RowEntry 15
  /-- `TEXT_CAP`: `none` is infinity (R28). -/
  textCap : Option Nat
  /-- `RESET_CHANNEL` (R290). -/
  resetChannel : Channel
  /-- `RESET_TIME` (R290). -/
  resetTime : Time
  deriving DecidableEq, Repr

/-- The value of a timestamp whose milliseconds do not fit 32 bits: "any 32-bit value (a draw the model does not
constrain)" (R218, U6), by the number of the draw. FREE VALUE, log 8. One function for all
instances: DESIGN CHOICE, log 25. -/
opaque Config.freeTimestamp : Nat → BitVec 32

/-- `LINE_MAX` (R7, R41), OPEN in the spec. Only Safety.lean reads it (log 6). -/
opaque Config.lineMax : Nat

end Sys2Proof
end

