-- ==== Sys2Proof/Machine/Tables.lean ====
section
/-! DEFINITION. Sys2Proof/Machine/Tables.lean: the default parameters of 00_scope.md rule R7 and the default constant
tables of 10_state.md rules R26 and R27. Their values are the spec's own general-knowledge defaults (log 2). -/

namespace Sys2Proof.Machine

/-- Whether a byte has an odd number of 1 bits (R26). -/
def oddParity (b : Byte) : Bool :=
  ((List.range 8).countP fun i => b.getLsbD i) % 2 == 1

/-- `DEPARITY[b]` of the default table: the low 7 bits of an odd-parity byte, 0 for any other byte (R26). -/
def stripParity (b : Byte) : Code :=
  if oddParity b then b.extractLsb' 0 7 else 0

/-- The default `DEPARITY` (R26). -/
def defaultDeparity : Vector Code 256 :=
  ⟨((List.range 256).map fun n => stripParity (BitVec.ofNat 8 n)).toArray, by simp⟩

/-- The default `ROW_TABLE` (R27). -/
def defaultRowTable : Vector RowEntry 15 :=
  #v[⟨0x11, 0x40, 0x5F, 0⟩, ⟨0x11, 0x60, 0x7F, 1⟩, ⟨0x12, 0x40, 0x5F, 2⟩, ⟨0x12, 0x60, 0x7F, 3⟩,
     ⟨0x15, 0x40, 0x5F, 4⟩, ⟨0x15, 0x60, 0x7F, 5⟩, ⟨0x16, 0x40, 0x5F, 6⟩, ⟨0x16, 0x60, 0x7F, 7⟩,
     ⟨0x17, 0x40, 0x5F, 8⟩, ⟨0x17, 0x60, 0x7F, 9⟩, ⟨0x10, 0x40, 0x5F, 10⟩, ⟨0x13, 0x40, 0x5F, 11⟩,
     ⟨0x13, 0x60, 0x7F, 12⟩, ⟨0x14, 0x40, 0x5F, 13⟩, ⟨0x14, 0x60, 0x7F, 14⟩]

/-- The parameters with the values R7 gives for this hardware. `LEGACY_SEQ_IDX` is OPEN there and absent here (log 4). -/
def defaultParams : Params where
  ccDid10 := 0x161
  ccSdid10 := 0x101
  verifyChecksum := false
  cdpMarker1 := 0x96
  cdpMarker2 := 0x69
  cdpFooterId := 0x74
  legacySeqIdx := none
  deparity := defaultDeparity
  rowTable := defaultRowTable
  textCap := none
  resetChannel := .ch1
  resetTime := .zero

end Sys2Proof.Machine
end

