-- ==== Sys2Proof/Machine/State.lean ====
section
/-! DEFINITION. Sys2Proof/Machine/State.lean: the state of an instance (10_state.md rules R22 to R31), the interface
through which the host drives it (30_encoding.md rule R61, 60_exceptions.md rules R260 and R269), and the state after
reset (70_reset_and_hazards.md rule R290). -/

namespace Sys2Proof.Machine

/-- `CaptionLineState` (R22) with the overflow bit (R31): the whole persistent state of the core. -/
structure CaptionLineState where
  /-- `S.active_channel` (R23). -/
  activeChannel : Channel
  /-- `S.tracked_row`: -1 (unknown) or 0..14 (R24). -/
  trackedRow : Int
  /-- `S.last_control_pair`, de-paritied (R25). -/
  lastControlPair : Code × Code
  /-- `S.accumulated_text` (R28). -/
  accumulatedText : List Code
  /-- `S.line_start_time` (R29). -/
  lineStartTime : Time
  /-- `S.overflow` (R31). -/
  overflow : Bool
  deriving DecidableEq, Repr

/-- The side operands that travel beside a command word (R61). -/
structure Operands where
  /-- `LINE` (R41). -/
  line : List Word
  /-- `ADF`, an index into `LINE` (R121). -/
  adf : Nat
  /-- `PAY` (R42). -/
  pay : List Byte
  /-- `CDP` (R180). -/
  cdp : CdpPacket
  /-- `T` (R266). -/
  time : Time
  deriving DecidableEq, Repr

/-- Why a payload is no CDP (R260, status 3). -/
inductive MalformedReason where
  | short
  | marker
  | footer
  deriving DecidableEq, Repr

/-- The operand an `IllegalCommand` names, when the word itself is legal (R42, R141). -/
inductive OperandName where
  | pay
  deriving DecidableEq, Repr

/-- The status of a response with the info it carries (R260). -/
inductive Status where
  | ok
  | noPacketFound
  | truncatedPacket (need available : Nat)
  | malformedCdp (reason : MalformedReason)
  | checksumMismatch (expected got : Word)
  | illegalCommand (word : CmdWord) (operand : Option OperandName)
  | textOverflow
  deriving DecidableEq, Repr

/-- What FEED_PAIR returns (R220). -/
structure FeedResult where
  flushed : Bool
  line : Option CompletedCaptionLine
  deriving DecidableEq, Repr

/-- What PROCESS_LINE returns (R240). A field is `none` when its stage did not complete; `pair` is `some none` when the
selector completed and found nothing. -/
structure PipelineResult where
  adf : Option Nat
  vanc : Option VancPacket
  cdp : Option CdpPacket
  seqDiscrepancy : Option Bool
  pair : Option (Option (Byte × Byte))
  fed : Option Bool
  flushed : Option Bool
  line : Option CompletedCaptionLine
  deriving DecidableEq, Repr

/-- The result fields of a response, by the command that answers (R101 to R243). -/
inductive ResultFields where
  /-- No field: NOP, and an error that carries its info in the status. -/
  | empty
  | adf (index : Option Nat)
  | vanc (packet : VancPacket)
  | cdp (packet : CdpPacket)
  | pair (selected : Option (Byte × Byte))
  | feed (result : FeedResult)
  | pipeline (result : PipelineResult)
  deriving DecidableEq, Repr

/-- A response: exactly one status, and the result fields of the command (R61, R260). -/
structure Response where
  status : Status
  fields : ResultFields
  deriving DecidableEq, Repr

/-- The duties of the host whose breach has no rule (R269, R294, R295, and U3 to U5 of 93_implementation_defined.md). -/
inductive HostDuty where
  /-- One command at a time (R294, U4). -/
  | serialise
  /-- Operands unchanged while a command runs (R295, U5). -/
  | stableOperands
  /-- Operands within their types (R269, U3). -/
  | operandTypes
  deriving DecidableEq, Repr

/-- One thing the host does to the instance (R269). -/
inductive HostInput where
  /-- Issues a command word with its side operands (R60, R61). -/
  | command (word : CmdWord) (operands : Operands)
  /-- Resets the instance, between two commands (R290). -/
  | reset
  /-- Breaks a duty: "no rule says what such a run produces" (R294, log 13). -/
  | breach (duty : HostDuty)
  deriving DecidableEq, Repr

/-- The whole state of the model: the core's persistent state `capt`, the parameters it was built with, and the
interface to the host. The core has no program counter, register file or status register (R20, R21, R33). -/
structure State where
  /-- `S` (R22, R31). -/
  capt : CaptionLineState
  /-- The instance's parameters (R7, R292, log 1). -/
  params : Params
  /-- The side operands of the command being run (R61). -/
  operands : Operands
  /-- What the host will do, next first (R293, log 10). -/
  pending : List HostInput
  /-- The responses handed to the host, newest first (R61, log 11). -/
  responses : List Response
  /-- The model's own: how many free timestamps have been drawn (R218, log 8), from 0 in every instance (log 25). -/
  draws : Nat
  deriving DecidableEq, Repr

/-- Why a step stops. Every error of the spec is a status in a response, not a stop (R261). -/
inductive Fault where
  /-- Raised by the step alone, when the host breaks a duty for which the spec gives no move (U3 to U5, R294): a stuck
  state. SAFE: nothing is claimed of such a run. -/
  | hostDuty (duty : HostDuty)
  deriving DecidableEq, Repr

/-- Why an instruction has no meaning. -/
inductive Refusal where
  /-- Raised by an arm of exec whose instruction is not modelled yet; no arm is. SAFE: the machine stops. -/
  | notModelled (mnemonic : String)
  deriving DecidableEq, Repr

/-- The values reset gives every field of `S` (R290). -/
def CaptionLineState.afterReset (p : Params) : CaptionLineState where
  activeChannel := p.resetChannel
  trackedRow := -1
  lastControlPair := (0x00, 0x00)
  accumulatedText := []
  lineStartTime := p.resetTime
  overflow := false

/-- A CDP record with every field 0 and no unit: what the CDP operand holds before any command (log 12). -/
def CdpPacket.blank : CdpPacket where
  marker1 := 0
  marker2 := 0
  length := 0
  frameRate := 0
  flags := ⟨false, false, false, false, false, false, false, false⟩
  sequenceCounter := 0
  sequenceCounterLegacy := none
  sectionId := 0
  ccMarker := 0
  ccCount := 0
  ccPackets := []
  ccBound := by decide
  footerId := 0
  footerSequenceCounter := 0
  serviceInfo := none

/-- The operands before any command: empty (log 12). -/
def Operands.blank : Operands where
  line := []
  adf := 0
  pay := []
  cdp := .blank
  time := .zero

/-- A new instance built with the parameters `p`: `S` as reset leaves it (R290), and no command issued yet (R293). -/
def State.create (p : Params) : State where
  capt := .afterReset p
  params := p
  operands := .blank
  pending := []
  responses := []
  draws := 0

/-- The machine right after reset, with the parameters of R7. -/
def State.reset : State := .create defaultParams

end Sys2Proof.Machine
end

