-- ==== Sys2Proof/Machine/Ops.lean ====
section
/-! DEFINITION. Sys2Proof/Machine/Ops.lean: the named operations over the state: answering, raising an error (the core's
only "exception", 60_exceptions.md rule R261), reset, text and time. -/

namespace Sys2Proof.Machine

/-- Hands a response to the host; writes nothing else (R61). -/
def State.answer (s : State) (status : Status) (fields : ResultFields) : State :=
  { s with responses := ⟨status, fields⟩ :: s.responses }

/-- `return r`: end the command with status OK (R10). -/
def State.succeed (s : State) (fields : ResultFields) : State := s.answer .ok fields

/-- `raise E(info)`: end the command with an error status. No trap is taken and no field of `S` is written (R11, R261);
the one error that writes `S` does so before it raises (R215). -/
def State.raise (s : State) (error : Status) (fields : ResultFields) : State := s.answer error fields

/-- Writes the state machine's registers and the draw counter. -/
def State.setCapt (s : State) (c : CaptionLineState) (draws : Nat) : State :=
  { s with capt := c, draws := draws }

/-- Reset: every field of `S` at once. It raises no error, emits no line, and leaves the parameters (R290, R292). -/
def State.resetInstance (s : State) : State :=
  { s with capt := .afterReset s.params }

/-- `Idle`: no text since the last flush. Derived, not stored (R30). -/
def CaptionLineState.isIdle (c : CaptionLineState) : Bool := c.accumulatedText.isEmpty

/-- Whether a text of this length is within `TEXT_CAP` (R28, R215). -/
def withinCap (p : Params) (length : Nat) : Bool :=
  match p.textCap with
  | none => true
  | some cap => length ≤ cap

/-- The space code (R217: "No other code counts as a space"). -/
def isSpace (c : Code) : Bool := c == 0x20

/-- `Trim`: the text without its leading and trailing spaces (R217). -/
def trim (x : List Code) : List Code :=
  ((x.dropWhile isSpace).reverse.dropWhile isSpace).reverse

/-- `MS_OF`: `t * 1000` rounded to the nearest integer, halves away from zero, exactly (R218). -/
def msOf (t : Time) : Nat := (2000 * t.num + t.den) / (2 * t.den)

/-- A line's `timestamp_ms` and the draws after it: the milliseconds if they fit 32 bits, else a value the spec leaves
free (R218, log 8). DESIGN CHOICE: the value is that of the draw's number in one function for all instances, so the k-th
draws of two instances are equal; the spec relates no two draws (log 25). -/
def stamp (t : Time) (draws : Nat) : BitVec 32 × Nat :=
  if msOf t < 2 ^ 32 then (BitVec.ofNat 32 (msOf t), draws)
  else (Config.freeTimestamp draws, draws + 1)

end Sys2Proof.Machine
end

