-- ==== Sys2Proof/Machine/Operands.lean ====
section
/-! DEFINITION. Sys2Proof/Machine/Operands.lean: reading the operand buffers and their fields (20_memory.md rules R43 to
R47, 30_encoding.md rules R71 to R80). A read takes a proof that its index is in range, so a read past the end has no
value (R43). -/

namespace Sys2Proof.Machine

/-- `MemRead(LINE, i)`, for `i < L` only (R10, R43). -/
def wordAt (words : List Word) (i : Nat) (h : i < words.length) : Word := words[i]

/-- `MemRead(PAY, i)`, for `i < n` only (R10, R43). -/
def byteAt (pay : List Byte) (i : Nat) (h : i < pay.length) : Byte := pay[i]

/-- Narrowing of a word to its bits 7..0 (R45). -/
def lowByte (w : Word) : Byte := w.extractLsb' 0 8

/-- A 16-bit field, most significant byte first (R44). -/
def bigEndian (hi lo : Byte) : BitVec 16 := hi ++ lo

/-- The `n` words from index `i` on (R70). -/
def wordsFrom (line : List Word) (i n : Nat) : List Word := (line.drop i).take n

/-- Bit `i` of a byte (R8). -/
def bit (b : Byte) (i : Nat) : Bool := b.getLsbD i

/-- `frame_rate`: bits 7..4 of byte 3 (R73). -/
def frameRateOf (b : Byte) : BitVec 4 := b.extractLsb' 4 4

/-- `cc_marker`: bits 7..5 of byte 8 (R75). -/
def ccMarkerOf (b : Byte) : BitVec 3 := b.extractLsb' 5 3

/-- `cc_count`: bits 4..0 of byte 8 (R75). -/
def ccCountOf (b : Byte) : BitVec 5 := b.extractLsb' 0 5

/-- `service_count`: bits 3..0 of the flags/count byte (R79). -/
def serviceCountOf (b : Byte) : BitVec 4 := b.extractLsb' 0 4

/-- The table entry of a raw byte (R26). -/
def deparity (p : Params) (b : Byte) : Code := p.deparity[b.toNat]

/-- Whether a row entry covers a pair of codes (R27). -/
def rowCovers (e : RowEntry) (c0 c1 : Code) : Bool :=
  e.ctrl.toNat == c0.toNat && e.lo.toNat ≤ c1.toNat && c1.toNat ≤ e.hi.toNat

/-- `RowLookup`: the row of the first entry, in entry order, that covers the pair (R27). -/
def rowLookup (p : Params) (c0 c1 : Code) : Option (Fin 15) :=
  (p.rowTable.toList.find? fun e => rowCovers e c0 c1).map RowEntry.row

end Sys2Proof.Machine
end

