-- ==== Sys2Proof/Machine/Flags.lean ====
section
/-! DEFINITION. Sys2Proof/Machine/Flags.lean: the core has no flag register (10_state.md rule R33). This file holds the
flag bits it decodes and returns, and the numbers of the statuses (60_exceptions.md rule R260). -/

namespace Sys2Proof.Machine

/-- The eight CDP flags of byte 4, bit 7 first (R74, R145). -/
def cdpFlagsOf (b : Byte) : CdpFlags where
  timecodePresent := bit b 7
  ccDataPresent := bit b 6
  svcInfoPresent := bit b 5
  svcInfoStart := bit b 4
  svcInfoChange := bit b 3
  svcInfoComplete := bit b 2
  captionServiceActive := bit b 1
  reserved := bit b 0

/-- The number of a status (R260). -/
def Status.code : Status → Nat
  | .ok => 0
  | .noPacketFound => 1
  | .truncatedPacket _ _ => 2
  | .malformedCdp _ => 3
  | .checksumMismatch _ _ => 4
  | .illegalCommand _ _ => 5
  | .textOverflow => 6

/-- The number of a `MalformedCdp` reason (R260). -/
def MalformedReason.code : MalformedReason → Nat
  | .short => 1
  | .marker => 2
  | .footer => 3

/-- `seq_discrepancy`: the legacy counter is present and differs from the payload's (R147, R240). -/
def seqDiscrepancyOf (c : CdpPacket) : Bool :=
  match c.sequenceCounterLegacy with
  | none => false
  | some v => v != c.sequenceCounter

/-- `EmptyLine`: a flush that emitted nothing. It is no status (R220, R260). -/
def FeedResult.isEmptyLine (r : FeedResult) : Bool := r.flushed && r.line.isNone

end Sys2Proof.Machine
end

