-- ==== Sys2Proof/Machine/Cdp.lean ====
section
/-! DEFINITION. Sys2Proof/Machine/Cdp.lean: the CdpDecoder, DECODE_CDP (42_cdp_decoder.md). -/

namespace Sys2Proof.Machine

/-- `CcUnit(x0, x1, x2)` (R76, R150). -/
def ccUnit (x0 x1 x2 : Byte) : CcDataUnit where
  marker := x0 &&& 0xF8
  valid := bit x0 2
  packetType := packetTypeOf (x0.extractLsb' 0 2)
  data1 := x1
  data2 := x2

/-- The three bytes of a unit: `marker | (valid << 2) | packet_type`, then the data bytes (R158). -/
def ccUnitBytes (u : CcDataUnit) : List Byte :=
  [u.marker ||| (BitVec.ofBool u.valid).zeroExtend 8 <<< 2 ||| (packetTypeCode u.packetType).zeroExtend 8, u.data1, u.data2]

/-- The `cc` triplets from offset 9 on, in order (R149, R150). -/
def ccUnits (pay : List Byte) (cc : Nat) (h : 9 + 3 * cc ≤ pay.length) : List CcDataUnit :=
  List.ofFn fun i : Fin cc =>
    ccUnit (byteAt pay (9 + 3 * i) (by omega)) (byteAt pay (10 + 3 * i) (by omega))
      (byteAt pay (11 + 3 * i) (by omega))

/-- A 5-bit count of triplets is at most 31 (R75). -/
theorem ccUnits_bound (pay : List Byte) (b : Byte) (h : 9 + 3 * (ccCountOf b).toNat ≤ pay.length) :
    (ccUnits pay (ccCountOf b).toNat h).length ≤ 31 := by
  have := (ccCountOf b).isLt
  simp only [ccUnits, List.length_ofFn]
  omega

/-- The service record whose seven bytes start at `r` (R80, R155). -/
def serviceRecordAt (pay : List Byte) (r : Nat) (h : r + 7 ≤ pay.length) : ServiceRecord :=
  let y0 := byteAt pay r (by omega)
  let sized := bit y0 6
  { reserved1 := bit y0 7
    sizeFlag := sized
    reserved2 := if sized then some (bit y0 5) else none
    serviceNumber := if sized then (y0.extractLsb' 0 5).zeroExtend 6 else y0.extractLsb' 0 6
    serviceData := Vector.ofFn fun k : Fin 6 => byteAt pay (r + 1 + k) (by omega) }

/-- `DecodeServiceInfo(PAY, s)`: the block at offset `s`, its records at the cumulative offsets `s + 2 + 7*i`
(R153, R154). -/
def decodeServiceInfo (pay : List Byte) (s : Nat) : Except Status ServiceInfoBlock :=
  if hHeader : s + 2 ≤ pay.length then
    let flags := byteAt pay (s + 1) (by omega)
    let count := serviceCountOf flags
    if hRecords : s + 2 + 7 * count.toNat ≤ pay.length then
      .ok { marker := byteAt pay s (by omega)
            reserved := bit flags 7
            start := bit flags 6
            change := bit flags 5
            complete := bit flags 4
            serviceCount := count
            records := List.ofFn fun i : Fin count.toNat =>
              serviceRecordAt pay (s + 2 + 7 * i) (by omega) }
    else .error (.malformedCdp .short)
  else .error (.malformedCdp .short)

/-- The optional service-info block: decoded when byte 4 bit 5 is 1 (R152). -/
def serviceInfoOf (pay : List Byte) (flags : CdpFlags) (s : Nat) : Except Status (Option ServiceInfoBlock) :=
  if flags.svcInfoPresent then (decodeServiceInfo pay s).map some else .ok none

/-- DECODE_CDP on a payload: the packet or the error, the first failing check of R157 winning. What R156 lists is
returned as read and not checked. `sequence_counter_legacy` is absent here, there being no outer packet (R147). -/
def decodeCdp (p : Params) (pay : List Byte) : Except Status CdpPacket :=
  if 255 < pay.length then .error (.illegalCommand (encode .decodeCdp) (some .pay))
  else if hShort : pay.length < 9 then .error (.malformedCdp .short)
  else if byteAt pay 0 (by omega) ≠ p.cdpMarker1 ∨ byteAt pay 1 (by omega) ≠ p.cdpMarker2 then
    .error (.malformedCdp .marker)
  else
    let b8 := byteAt pay 8 (by omega)
    let cc := (ccCountOf b8).toNat
    if hUnits : 9 + 3 * cc ≤ pay.length then
      let footer := byteAt pay (pay.length - 4) (by omega)
      if footer ≠ p.cdpFooterId then .error (.malformedCdp .footer)
      else
        let flags := cdpFlagsOf (byteAt pay 4 (by omega))
        match serviceInfoOf pay flags (9 + 3 * cc) with
        | .error e => .error e
        | .ok svc =>
          .ok { marker1 := byteAt pay 0 (by omega)
                marker2 := byteAt pay 1 (by omega)
                length := byteAt pay 2 (by omega)
                frameRate := frameRateOf (byteAt pay 3 (by omega))
                flags := flags
                sequenceCounter := bigEndian (byteAt pay 5 (by omega)) (byteAt pay 6 (by omega))
                sequenceCounterLegacy := none
                sectionId := byteAt pay 7 (by omega)
                ccMarker := ccMarkerOf b8
                ccCount := ccCountOf b8
                ccPackets := ccUnits pay cc hUnits
                ccBound := ccUnits_bound pay b8 hUnits
                footerId := footer
                footerSequenceCounter :=
                  bigEndian (byteAt pay (pay.length - 3) (by omega)) (byteAt pay (pay.length - 2) (by omega))
                serviceInfo := svc }
    else .error (.malformedCdp .short)

/-- DECODE_CDP (R141). -/
def execDecodeCdp (s : State) : Host.Outcome State Fault Refusal :=
  .next <|
    match decodeCdp s.params s.operands.pay with
    | .ok c => s.succeed (.cdp c)
    | .error e => s.raise e .empty

end Sys2Proof.Machine
end

