-- ==== Sys2Proof/Machine/Eia608.lean ====
section
/-! DEFINITION. Sys2Proof/Machine/Eia608.lean: the Eia608StateMachine, FEED_PAIR (44_eia608.md). -/

namespace Sys2Proof.Machine

/-- The outcome of feeding one pair: the registers and draws after it, and its result or its error. -/
structure FeedStep where
  capt : CaptionLineState
  draws : Nat
  result : Except Status FeedResult

/-- `OK{flushed = 0, line = none}` with these registers (R200). -/
def FeedStep.quiet (c : CaptionLineState) (draws : Nat) : FeedStep :=
  ⟨c, draws, .ok ⟨false, none⟩⟩

/-- The four disjoint classes of a pair's first code (R203). -/
inductive PairClass where
  | printable
  | control1
  | control2
  | other
  deriving DecidableEq, Repr

/-- Whether a code is printable, 0x20..0x7F (R203, R204). -/
def isPrintable (c : Code) : Bool := 0x20 ≤ c

/-- The class of a first code (R203). -/
def pairClass (c0 : Code) : PairClass :=
  if isPrintable c0 then .printable
  else if 0x10 ≤ c0 ∧ c0 ≤ 0x14 then .control1
  else if 0x18 ≤ c0 then .control2
  else .other

/-- Mid-row code or Flash-On (R208). -/
def isSpacing (c0 c1 : Code) : Bool :=
  (c0 == 0x11 && 0x20 ≤ c1 && c1 ≤ 0x2F) || (c0 == 0x14 && c1 == 0x28)

/-- An explicit flush code: RCL, EDM, CR, ENM, EOC (R209). -/
def isFlushCode (c0 c1 : Code) : Bool :=
  c0 == 0x14 && [0x20, 0x2C, 0x2D, 0x2E, 0x2F].contains c1

/-- `Flush(t)`: the registers after it, the draws, and the emitted line, stamped with the OLD `line_start_time`
(R216, R219). -/
def flush (c : CaptionLineState) (draws : Nat) (t : Time) :
    CaptionLineState × Nat × Option CompletedCaptionLine :=
  let cleared := { c with accumulatedText := [], lineStartTime := t }
  let x := trim c.accumulatedText
  if x.isEmpty then (cleared, draws, none)
  else
    let (ms, draws') := stamp c.lineStartTime draws
    (cleared, draws', some ⟨x, ms⟩)

/-- `Append(codes)` to the registers `c` of a pair that found them as `before`: past `TEXT_CAP` every write is discarded
but `S.overflow` (R215). -/
def append (p : Params) (before c : CaptionLineState) (draws : Nat) (codes : List Code) : FeedStep :=
  if withinCap p (c.accumulatedText.length + codes.length) then
    .quiet { c with accumulatedText := c.accumulatedText ++ codes } draws
  else ⟨{ before with overflow := true }, draws, .error .textOverflow⟩

/-- A channel-1 control pair of codes (R206 to R212). -/
def feedControl1 (p : Params) (before : CaptionLineState) (draws : Nat) (c0 c1 : Code) (t : Time) : FeedStep :=
  let onCh1 := { before with activeChannel := .ch1 }
  if (c0, c1) = before.lastControlPair then .quiet onCh1 draws
  else
    let c := { onCh1 with lastControlPair := (c0, c1) }
    if isSpacing c0 c1 then append p before c draws [0x20]
    else if isFlushCode c0 c1 then
      let (c', draws', line) := flush c draws t
      ⟨if c1 = 0x2E then { c' with trackedRow := -1 } else c', draws', .ok ⟨true, line⟩⟩
    else
      match rowLookup p c0 c1 with
      | none => .quiet c draws
      | some k =>
        if (k.val : Int) = c.trackedRow then .quiet c draws
        else
          let (c', draws', line) := flush c draws t
          ⟨{ c' with trackedRow := (k.val : Int) }, draws', .ok ⟨true, line⟩⟩

/-- A printable pair of codes: accumulated on channel 1 only (R204, R205). -/
def feedPrintable (p : Params) (before : CaptionLineState) (draws : Nat) (c0 c1 : Code) : FeedStep :=
  match before.activeChannel with
  | .ch1 => append p before before draws (if isPrintable c1 then [c0, c1] else [c0])
  | .ch2 => .quiet before draws

/-- FEED_PAIR on raw bytes (R200 to R214). -/
def feedPair (p : Params) (before : CaptionLineState) (draws : Nat) (b0 b1 : Byte) (t : Time) : FeedStep :=
  if before.overflow then ⟨before, draws, .error .textOverflow⟩
  else if b0 = 0x80 ∧ b1 = 0x80 then .quiet before draws
  else
    let c0 := deparity p b0
    let c1 := deparity p b1
    match pairClass c0 with
    | .printable => feedPrintable p before draws c0 c1
    | .control1 => feedControl1 p before draws c0 c1 t
    | .control2 => .quiet { before with activeChannel := .ch2 } draws
    | .other => .quiet before draws

/-- FEED_PAIR (R200). -/
def execFeedPair (b0 b1 : Byte) (s : State) : Host.Outcome State Fault Refusal :=
  let r := feedPair s.params s.capt s.draws b0 b1 s.operands.time
  let s' := s.setCapt r.capt r.draws
  .next <|
    match r.result with
    | .ok f => s'.succeed (.feed f)
    | .error e => s'.raise e .empty

end Sys2Proof.Machine
end

