-- ==== Sys2Proof/Machine/Locator.lean ====
section
/-! DEFINITION. Sys2Proof/Machine/Locator.lean: the AncillaryDataLocator, FIND_ADF and FIND_CC (40_locator.md). -/

namespace Sys2Proof.Machine

/-- `IsAdf(LINE, i)`: the three words of the ancillary-data flag stand at `i`, compared as 10-bit words (R100). -/
def isAdf (line : List Word) (i : Nat) : Bool :=
  if h : i + 2 < line.length then
    wordAt line i (by omega) == 0x000 && wordAt line (i + 1) (by omega) == 0x3FF &&
      wordAt line (i + 2) h == 0x3FF
  else false

/-- `IsCcHeader(LINE, i)`: an ADF followed by the caption DID and SDID, compared as 10-bit words (R102). -/
def isCcHeader (p : Params) (line : List Word) (i : Nat) : Bool :=
  isAdf line i &&
    if h : i + 4 < line.length then
      wordAt line (i + 3) (by omega) == p.ccDid10 && wordAt line (i + 4) h == p.ccSdid10
    else false

/-- The first index of the line, in increasing order, that the test accepts (R101, R103). -/
def firstIndex (line : List Word) (test : Nat → Bool) : Option Nat :=
  (List.range line.length).find? test

/-- `FindAdf` (R101). -/
def findAdfIndex (line : List Word) : Option Nat := firstIndex line (isAdf line)

/-- `FindCaptionCarriagePacket`: every ADF is tested, none is skipped (R103). -/
def findCcIndex (p : Params) (line : List Word) : Option Nat := firstIndex line (isCcHeader p line)

/-- The response of a scan: OK with the index, or NoPacketFound (R101, R103). -/
def answerScan (s : State) (found : Option Nat) : State :=
  match found with
  | some i => s.succeed (.adf (some i))
  | none => s.raise .noPacketFound (.adf none)

/-- FIND_ADF (R101). -/
def execFindAdf (s : State) : Host.Outcome State Fault Refusal :=
  .next (answerScan s (findAdfIndex s.operands.line))

/-- FIND_CC (R103). -/
def execFindCc (s : State) : Host.Outcome State Fault Refusal :=
  .next (answerScan s (findCcIndex s.params s.operands.line))

end Sys2Proof.Machine
end

