-- ==== Sys2Proof/Machine/Selector.lean ====
section
/-! DEFINITION. Sys2Proof/Machine/Selector.lean: the ChannelSelector, SELECT_PAIR (43_channel_selector.md). -/

namespace Sys2Proof.Machine

/-- The data bytes of the first unit that is valid and of the wanted type (R180). -/
def selectPair (c : CdpPacket) (wt : PacketType) : Option (Byte × Byte) :=
  (c.ccPackets.find? fun u => u.valid && u.packetType == wt).map fun u => (u.data1, u.data2)

/-- SELECT_PAIR: an empty result is status OK with no pair (R180). -/
def execSelectPair (wt : PacketType) (s : State) : Host.Outcome State Fault Refusal :=
  .next (s.succeed (.pair (selectPair s.operands.cdp wt)))

end Sys2Proof.Machine
end

