-- ==== Sys2Proof/Machine/Vanc.lean ====
section
/-! DEFINITION. Sys2Proof/Machine/Vanc.lean: the VancPacketDecoder and checksum validator, DECODE_VANC
(41_vanc_decoder.md). -/

namespace Sys2Proof.Machine

/-- `AncChecksum(LINE, a, dc)`: the 9-bit sum of the words from DID to the last payload word, with bit 9 the inverse of
bit 8 (R125). -/
def ancChecksum (line : List Word) (a dc : Nat) : Word :=
  let total := ((wordsFrom line (a + 3) (dc + 3)).map fun w => w.toNat % 512).sum
  let s := BitVec.ofNat 9 total
  (~~~ s.extractLsb' 8 1) ++ s

/-- DECODE_VANC on a line at offset `a`: the packet or the error, checked in the order of R126. That an ADF or the
caption DID/SDID stand there is not checked (R127, R128). -/
def decodeVanc (p : Params) (line : List Word) (a : Nat) : Except Status VancPacket :=
  if hHeader : a + 6 ≤ line.length then
    let did := lowByte (wordAt line (a + 3) (by omega))
    let sdid := lowByte (wordAt line (a + 4) (by omega))
    let dataCount := lowByte (wordAt line (a + 5) (by omega))
    let dc := dataCount.toNat
    if hPacket : a + 6 + dc + 1 ≤ line.length then
      let cs := wordAt line (a + 6 + dc) (by omega)
      if p.verifyChecksum ∧ cs ≠ ancChecksum line a dc then
        .error (.checksumMismatch (ancChecksum line a dc) cs)
      else
        .ok { did := did
              sdid := sdid
              dataCount := dataCount
              payload := (wordsFrom line (a + 6) dc).map lowByte
              checksum := cs.zeroExtend 16 }
    else .error (.truncatedPacket (a + 7 + dc) line.length)
  else .error (.truncatedPacket (a + 6) line.length)

/-- DECODE_VANC (R121). -/
def execDecodeVanc (s : State) : Host.Outcome State Fault Refusal :=
  .next <|
    match decodeVanc s.params s.operands.line s.operands.adf with
    | .ok v => s.succeed (.vanc v)
    | .error e => s.raise e .empty

end Sys2Proof.Machine
end

