-- ==== Sys2Proof/Machine/Pipeline.lean ====
section
/-! DEFINITION. Sys2Proof/Machine/Pipeline.lean: PROCESS_LINE and NOP (45_pipeline.md). -/

namespace Sys2Proof.Machine

/-- The outcome of processing one line: the registers and draws after it, and the response. -/
structure PipelineStep where
  capt : CaptionLineState
  draws : Nat
  status : Status
  result : PipelineResult

/-- The result of a pipeline in which no stage has completed (R240). -/
def PipelineResult.start : PipelineResult where
  adf := none
  vanc := none
  cdp := none
  seqDiscrepancy := none
  pair := none
  fed := none
  flushed := none
  line := none

/-- `Legacy(LINE, a)`: the second derivation of the counter, from the outer packet (R147). -/
def legacyCounter (p : Params) (line : List Word) (a : Nat) : Option (BitVec 16) :=
  match p.legacySeqIdx with
  | none => none
  | some (hi, lo) =>
    if h : a + hi < line.length ∧ a + lo < line.length then
      some (bigEndian (lowByte (wordAt line (a + hi) h.1)) (lowByte (wordAt line (a + lo) h.2)))
    else none

/-- The last stages, from a decoded CDP on: select and feed (R240). `done` holds the stages before. -/
def selectAndFeed (p : Params) (before : CaptionLineState) (draws : Nat) (c : CdpPacket) (wt : PacketType) (t : Time)
    (done : PipelineResult) : PipelineStep :=
  match selectPair c wt with
  | none => ⟨before, draws, .ok, { done with pair := some none, fed := some false, flushed := some false }⟩
  | some (d1, d2) =>
    let selected := { done with pair := some (some (d1, d2)) }
    let r := feedPair p before draws d1 d2 t
    match r.result with
    | .error e => ⟨r.capt, r.draws, e, selected⟩
    | .ok f =>
      ⟨r.capt, r.draws, .ok, { selected with fed := some true, flushed := some f.flushed, line := f.line }⟩

/-- PROCESS_LINE: the units in order on the first caption packet; a stage that raises ends it with that error, and the
response keeps the results of the stages before (R240, R241). -/
def processLine (p : Params) (before : CaptionLineState) (draws : Nat) (line : List Word) (t : Time)
    (wt : PacketType) : PipelineStep :=
  match findCcIndex p line with
  | none => ⟨before, draws, .noPacketFound, .start⟩
  | some a =>
    let found := { PipelineResult.start with adf := some a }
    match decodeVanc p line a with
    | .error e => ⟨before, draws, e, found⟩
    | .ok v =>
      let unpacked := { found with vanc := some v }
      match decodeCdp p v.payload with
      | .error e => ⟨before, draws, e, unpacked⟩
      | .ok c0 =>
        let c := { c0 with sequenceCounterLegacy := legacyCounter p line a }
        selectAndFeed p before draws c wt t
          { unpacked with cdp := some c, seqDiscrepancy := some (seqDiscrepancyOf c) }

/-- PROCESS_LINE (R240). -/
def execProcessLine (wt : PacketType) (s : State) : Host.Outcome State Fault Refusal :=
  let r := processLine s.params s.capt s.draws s.operands.line s.operands.time wt
  .next ((s.setCapt r.capt r.draws).answer r.status (.pipeline r.result))

/-- NOP (R243). -/
def execNop (s : State) : Host.Outcome State Fault Refusal := .next (s.succeed .empty)

end Sys2Proof.Machine
end

