-- ==== Sys2Proof/Machine/Dispatch.lean ====
section
/-! DEFINITION. Sys2Proof/Machine/Dispatch.lean: one arm per command (30_encoding.md rule R62). -/

namespace Sys2Proof.Machine

def exec (i : Instr) (s : State) : Host.Outcome State Fault Refusal :=
  match i with
  | .nop => Sys2Proof.Machine.execNop s
  | .findAdf => Sys2Proof.Machine.execFindAdf s
  | .findCc => Sys2Proof.Machine.execFindCc s
  | .decodeVanc => Sys2Proof.Machine.execDecodeVanc s
  | .decodeCdp => Sys2Proof.Machine.execDecodeCdp s
  | .selectPair wt => Sys2Proof.Machine.execSelectPair wt s
  | .feedPair b0 b1 => Sys2Proof.Machine.execFeedPair b0 b1 s
  | .processLine wt => Sys2Proof.Machine.execProcessLine wt s

end Sys2Proof.Machine
end

