-- ==== Sys2Proof/Machine/Transaction.lean ====
section
/-! DEFINITION. Sys2Proof/Machine/Transaction.lean: how a command reaches the core: issued by the host, taken by the core
with its operands (20_memory.md rule R48, 30_encoding.md rule R61), or answered as illegal (R63). -/

namespace Sys2Proof.Machine

/-- The host issues a command before whatever it issues next (R61). -/
def State.issue (s : State) (word : CmdWord) (operands : Operands) : State :=
  { s with pending := .command word operands :: s.pending }

/-- The core takes a command: its operands are the snapshot the command sees (R48). -/
def State.take (s : State) (rest : List HostInput) (operands : Operands) : State :=
  { s with pending := rest, operands := operands }

/-- An illegal word raises IllegalCommand, writes no field of `S` and has no other effect (R63, R244). -/
def illegalWord (word : CmdWord) (s : State) : State :=
  s.raise (.illegalCommand word none) .empty

end Sys2Proof.Machine
end

