-- ==== Sys2Proof/Machine/Step.lean ====
section
/-! DEFINITION. Sys2Proof/Machine/Step.lean: one step of the machine: the host's next input (00_scope.md rule R5,
60_exceptions.md rule R269). -/

namespace Sys2Proof.Machine

/-- One step. A command word is decoded and run with its operands, or answered IllegalCommand (R63, R244); a reset sets
every field of `S` (R290); with nothing issued the core is idle (R293); a breach of a host duty has no move (R294). -/
def step (s : State) : Host.Outcome State Fault Refusal :=
  match s.pending with
  | [] => .next s
  | .command word operands :: rest =>
    match decode word with
    | .ok i => exec i (s.take rest operands)
    | .error _ => .next (illegalWord word (s.take rest operands))
  | .reset :: rest => .next { s with pending := rest }.resetInstance
  | .breach duty :: _ => .fault (.hostDuty duty)

/-- `s` with the command whose bits are `w` issued next, with the operands `s` holds: the core fetches nothing, the host
issues its commands (R20, R52, log 10). -/
def State.withFetchWord (s : State) (nbits w : Nat) : State :=
  s.issue (BitVec.ofNat 32 (w % 2 ^ nbits)) s.operands

end Sys2Proof.Machine
end

