-- ==== Sys2Proof/Machine/Assembler.lean ====
section
/-! DEFINITION. Sys2Proof/Machine/Assembler.lean: the assembler syntax and the pseudo-instructions (30_encoding.md rules R65
and R66): one line of text to one command word with its side operands. -/

namespace Sys2Proof.Machine

/-- `P(c)`: the raw byte whose default `DEPARITY` image is `c` (R66). -/
def parityEncode (c : Code) : Byte :=
  if oddParity (c.zeroExtend 8) then c.zeroExtend 8 else c.zeroExtend 8 ||| 0x80

/-- A parsed line: a command with the names of the buffers the host has prepared, or a pseudo-instruction (R65, R66). -/
inductive AsmLine where
  | nop
  | findAdf (line : List Char)
  | findCc (line : List Char)
  | decodeVanc (line : List Char) (adf : Nat)
  | decodeCdp (pay : List Char)
  | selectPair (cdp : List Char) (wt : PacketType)
  | feed (b0 b1 : Byte) (t : Time)
  | processLine (line : List Char) (t : Time) (wt : PacketType)
  deriving DecidableEq, Repr

/-- `CTL c0, c1, t` (R66). -/
def asmCtl (c0 c1 : Code) (t : Time) : AsmLine := .feed (parityEncode c0) (parityEncode c1) t

/-- `NULLPAIR t` (R66). -/
def asmNullPair (t : Time) : AsmLine := .feed 0x80 0x80 t

/-- `TEXT "xy", t` (R66). -/
def asmText2 (x y : Code) (t : Time) : AsmLine := .feed (parityEncode x) (parityEncode y) t

/-- `TEXT "x", t` (R66). -/
def asmText1 (x : Code) (t : Time) : AsmLine := .feed (parityEncode x) 0x80 t

/-- The buffers and records the host has prepared, by name (R65). -/
structure Prepared where
  lines : List (List Char × List Word)
  pays : List (List Char × List Byte)
  cdps : List (List Char × CdpPacket)
  deriving DecidableEq, Repr

/-- The prepared thing of a name. -/
def lookupName {α : Type} (table : List (List Char × α)) (name : List Char) : Option α :=
  (table.find? fun e => e.1 == name).map Prod.snd

/-- The command word and operands of a line; `none` when it names a buffer that is not prepared. Operands the opcode does
not use are blank (R61: they are ignored). -/
def assemble (env : Prepared) : AsmLine → Option (CmdWord × Operands)
  | .nop => some (encode .nop, .blank)
  | .findAdf line => (lookupName env.lines line).map fun l => (encode .findAdf, { Operands.blank with line := l })
  | .findCc line => (lookupName env.lines line).map fun l => (encode .findCc, { Operands.blank with line := l })
  | .decodeVanc line adf =>
    (lookupName env.lines line).map fun l => (encode .decodeVanc, { Operands.blank with line := l, adf := adf })
  | .decodeCdp pay => (lookupName env.pays pay).map fun b => (encode .decodeCdp, { Operands.blank with pay := b })
  | .selectPair cdp wt =>
    (lookupName env.cdps cdp).map fun c => (encode (.selectPair wt), { Operands.blank with cdp := c })
  | .feed b0 b1 t => some (encode (.feedPair b0 b1), { Operands.blank with time := t })
  | .processLine line t wt =>
    (lookupName env.lines line).map fun l => (encode (.processLine wt), { Operands.blank with line := l, time := t })

/-- The exact time `n / d` in lowest terms. -/
def timeOfRatio (n d : Nat) (h : 0 < d) : Time where
  num := n / Nat.gcd n d
  den := d / Nat.gcd n d
  den_pos := Nat.div_pos (Nat.gcd_le_right n h) (Nat.gcd_pos_of_pos_right n h)
  reduced := Nat.coprime_div_gcd_div_gcd (Nat.gcd_pos_of_pos_right n h)

/-- The value of a digit in a base, if it is one. -/
def digitOf (base : Nat) (ch : Char) : Option Nat :=
  let v :=
    if '0' ≤ ch ∧ ch ≤ '9' then ch.toNat - '0'.toNat
    else if 'a' ≤ ch ∧ ch ≤ 'f' then ch.toNat - 'a'.toNat + 10
    else if 'A' ≤ ch ∧ ch ≤ 'F' then ch.toNat - 'A'.toNat + 10
    else base
  if v < base then some v else none

/-- The number written by digits of a base, after those already read. -/
def digitsFrom (base : Nat) (sofar : Nat) : List Char → Option Nat
  | [] => some sofar
  | ch :: rest =>
    match digitOf base ch with
    | some d => digitsFrom base (sofar * base + d) rest
    | none => none

/-- A number, hexadecimal with `0x` or decimal (R65). -/
def parseNumber : List Char → Option Nat
  | '0' :: 'x' :: ch :: rest => digitsFrom 16 0 (ch :: rest)
  | ch :: rest => digitsFrom 10 0 (ch :: rest)
  | [] => none

/-- A time in decimal seconds (R65). -/
def parseTime (cs : List Char) : Option Time :=
  let whole := cs.takeWhile (· != '.')
  let fraction := (cs.dropWhile (· != '.')).drop 1
  if whole.isEmpty then none
  else
    (digitsFrom 10 0 (whole ++ fraction)).map fun n =>
      timeOfRatio n (10 ^ fraction.length) (Nat.pow_pos (by decide))

/-- A raw byte or a code: a number that fits its width. -/
def parseBits (width : Nat) (cs : List Char) : Option (BitVec width) :=
  match parseNumber cs with
  | some n => if n < 2 ^ width then some (BitVec.ofNat width n) else none
  | none => none

/-- A wanted type: `CC1 | CC2 | DTVCC | DTVCC_START` or 0..3 (R65). -/
def parseType (cs : List Char) : Option PacketType :=
  if cs = ['C', 'C', '1'] then some .cc1
  else if cs = ['C', 'C', '2'] then some .cc2
  else if cs = ['D', 'T', 'V', 'C', 'C'] then some .dtvcc
  else if cs = ['D', 'T', 'V', 'C', 'C', '_', 'S', 'T', 'A', 'R', 'T'] then some .dtvccStart
  else (parseBits 2 cs).map packetTypeOf

/-- The tokens of a line. -/
inductive Token where
  | word (cs : List Char)
  | quoted (cs : List Char)
  | comma
  deriving DecidableEq, Repr

/-- A word token from its characters read so far (last first), if there are any. -/
def wordToken (read : List Char) : List Token := if read.isEmpty then [] else [.word read.reverse]

/-- The tokens of a line, up to a `;` comment. `read` holds the characters of the token being read, last first. -/
def tokens (inQuotes : Bool) (read : List Char) : List Char → List Token
  | [] => if inQuotes then [.quoted read.reverse] else wordToken read
  | ch :: rest =>
    if inQuotes then
      if ch = '"' then .quoted read.reverse :: tokens false [] rest else tokens true (ch :: read) rest
    else if ch = ';' then wordToken read
    else if ch = '"' then wordToken read ++ tokens true [] rest
    else if ch = ',' then wordToken read ++ .comma :: tokens false [] rest
    else if ch = ' ' then wordToken read ++ tokens false [] rest
    else tokens false (ch :: read) rest

/-- A control code of 7 bits named by a pseudo-instruction with the one operand `t` (R66). -/
def namedControl (mnemonic : List Char) : Option (Code × Code) :=
  if mnemonic = ['R', 'C', 'L'] then some (0x14, 0x20)
  else if mnemonic = ['E', 'D', 'M'] then some (0x14, 0x2C)
  else if mnemonic = ['C', 'R'] then some (0x14, 0x2D)
  else if mnemonic = ['E', 'N', 'M'] then some (0x14, 0x2E)
  else if mnemonic = ['E', 'O', 'C'] then some (0x14, 0x2F)
  else if mnemonic = ['F', 'O', 'N'] then some (0x14, 0x28)
  else none

/-- A character as a 7-bit code, if it has one. -/
def codeOfChar (ch : Char) : Option Code := if ch.toNat < 128 then some (BitVec.ofNat 7 ch.toNat) else none

/-- `TEXT` with one or two characters (R66). -/
def parseText (cs : List Char) (t : Time) : Option AsmLine :=
  match cs with
  | [x] => (codeOfChar x).map fun c => asmText1 c t
  | [x, y] =>
    match codeOfChar x, codeOfChar y with
    | some c, some d => some (asmText2 c d t)
    | _, _ => none
  | _ => none

/-- A line with no operand (R65). -/
def parseLine0 (m : List Char) : Option AsmLine := if m = ['N', 'O', 'P'] then some .nop else none

/-- A line with one operand (R65, R66). -/
def parseLine1 (m x : List Char) : Option AsmLine :=
  if m = ['F', 'I', 'N', 'D', '_', 'A', 'D', 'F'] then some (.findAdf x)
  else if m = ['F', 'I', 'N', 'D', '_', 'C', 'C'] then some (.findCc x)
  else if m = ['D', 'E', 'C', 'O', 'D', 'E', '_', 'C', 'D', 'P'] then some (.decodeCdp x)
  else if m = ['N', 'U', 'L', 'L', 'P', 'A', 'I', 'R'] then (parseTime x).map asmNullPair
  else
    match namedControl m, parseTime x with
    | some (c0, c1), some t => some (asmCtl c0 c1 t)
    | _, _ => none

/-- A line with two operands (R65). -/
def parseLine2 (m x y : List Char) : Option AsmLine :=
  if m = ['D', 'E', 'C', 'O', 'D', 'E', '_', 'V', 'A', 'N', 'C'] then (parseNumber y).map fun a => .decodeVanc x a
  else if m = ['S', 'E', 'L', 'E', 'C', 'T', '_', 'P', 'A', 'I', 'R'] then (parseType y).map fun wt => .selectPair x wt
  else none

/-- A line with three operands (R65, R66). -/
def parseLine3 (m x y z : List Char) : Option AsmLine :=
  if m = ['F', 'E', 'E', 'D'] ∨ m = ['F', 'E', 'E', 'D', '_', 'P', 'A', 'I', 'R'] then
    match parseBits 8 x, parseBits 8 y, parseTime z with
    | some b0, some b1, some t => some (.feed b0 b1 t)
    | _, _, _ => none
  else if m = ['C', 'T', 'L'] then
    match parseBits 7 x, parseBits 7 y, parseTime z with
    | some c0, some c1, some t => some (asmCtl c0 c1 t)
    | _, _, _ => none
  else if m = ['P', 'R', 'O', 'C', 'E', 'S', 'S', '_', 'L', 'I', 'N', 'E'] then
    match parseTime y, parseType z with
    | some t, some wt => some (.processLine x t wt)
    | _, _ => none
  else none

/-- One line of assembler text, "one command per line, operands separated by commas" (R65, R66). -/
def parseLine (text : List Char) : Option AsmLine :=
  match tokens false [] text with
  | [.word m] => parseLine0 m
  | [.word m, .word x] => parseLine1 m x
  | [.word m, .word x, .comma, .word y] => parseLine2 m x y
  | [.word m, .quoted x, .comma, .word y] =>
    if m = ['T', 'E', 'X', 'T'] then
      match parseTime y with
      | some t => parseText x t
      | none => none
    else none
  | [.word m, .word x, .comma, .word y, .comma, .word z] => parseLine3 m x y z
  | _ => none

end Sys2Proof.Machine
end

