-- ==== Sys2Proof/Machine/HostProcedure.lean ====
section
/-! DEFINITION. Sys2Proof/Machine/HostProcedure.lean: what the spec says the HOST does around the core: line selection and
probing (60_exceptions.md rules R270, R271). "It affects only which lines the host sends; no rule of the core depends on
it": nothing else of the model reads this file. -/

namespace Sys2Proof.Machine

/-- One transaction: the host issues a command with its operands and takes the response (R5, R269). -/
def transact (i : Instr) (operands : Operands) (s : State) : State :=
  match exec i { s with operands := operands } with
  | .next s' => s'
  | .fault _ => s
  | .refused _ => s

/-- Whether the last response has status OK. -/
def State.lastOk (s : State) : Bool :=
  match s.responses with
  | [] => false
  | r :: _ => r.status == .ok

/-- PROCESS_LINE on one line. -/
def sendLine (words : List Word) (t : Time) (wt : PacketType) (s : State) : State :=
  transact (.processLine wt) { s.operands with line := words, time := t } s

/-- FIND_CC on each candidate in order, stopping at the first OK: the line found, if any (R271). -/
def probe (frame : Nat → List Word) : List Nat → State → Option Nat × State
  | [], s => (none, s)
  | n :: rest, s =>
    let s' := transact .findCc { s.operands with line := frame n } s
    if s'.lastOk then (some n, s') else probe frame rest s'

/-- The host's handling of one frame with "auto-detect" (R271): the remembered line first; when there is none, or it has
stopped validating, the candidates in order. Answers the line remembered for the next frame. -/
def autoDetectFrame (candidates : List Nat) (frame : Nat → List Word) (t : Time) (wt : PacketType)
    (remembered : Option Nat) (s : State) : Option Nat × State :=
  let search (s : State) : Option Nat × State :=
    match probe frame candidates s with
    | (some n, s') => (some n, sendLine (frame n) t wt s')
    | (none, s') => (none, s')
  match remembered with
  | none => search s
  | some r =>
    let s' := sendLine (frame r) t wt s
    if s'.lastOk then (some r, s') else search s'

/-- The host's handling of one frame with a selected line number (R270). DESIGN CHOICE: when PROCESS_LINE on it fails the host
neither falls back to another line nor forgets this one; the spec gives a procedure for auto-detect alone (log 26). -/
def selectedFrame (selected : Nat) (frame : Nat → List Word) (t : Time) (wt : PacketType) (s : State) : State :=
  sendLine (frame selected) t wt s

end Sys2Proof.Machine
end

