-- ==== Sys2Proof/Machine/Instances.lean ====
section
/-! DEFINITION. Sys2Proof/Machine/Instances.lean: several instances of the core, one per caption channel
(60_exceptions.md rule R267). -/

namespace Sys2Proof.Machine

/-- One step of instance `k` of several. An instance reads and writes its own state alone (R267); an index with no
instance changes nothing. DESIGN CHOICE: the instances' free timestamps come of one function, each counting its own draws
from 0 (log 25). -/
def stepInstance (instances : List State) (k : Nat) : Host.Outcome (List State) Fault Refusal :=
  match instances[k]? with
  | none => .next instances
  | some s =>
    match step s with
    | .next s' => .next (instances.set k s')
    | .fault f => .fault f
    | .refused r => .refused r

end Sys2Proof.Machine
end

