-- ==== Sys2Proof/Machine/Reads.lean ====
section
/-! DEFINITION. Sys2Proof/Machine/Reads.lean: what each command reads of its operands, of the two tables and of the text, in
order, for the bounds the spec counts in reads (20_memory.md rule R43, 40_locator.md rule R104, 70_reset_and_hazards.md rule
R299). Comparisons stop at the first word that differs (log 21). -/

namespace Sys2Proof.Machine

/-- Two sequences of one length hold the same at these indices. -/
def AgreeOn {α : Type} (indices : List Nat) (x y : List α) : Prop :=
  x.length = y.length ∧ ∀ j ∈ indices, x[j]? = y[j]?

/-- The indices `IsAdf(LINE, i)` reads (R100). -/
def isAdfReads (line : List Word) (i : Nat) : List Nat :=
  if h : i + 2 < line.length then
    if wordAt line i (by omega) == 0x000 then
      if wordAt line (i + 1) (by omega) == 0x3FF then [i, i + 1, i + 2] else [i, i + 1]
    else [i]
  else []

/-- The indices `IsCcHeader(LINE, i)` reads (R102). -/
def isCcHeaderReads (p : Params) (line : List Word) (i : Nat) : List Nat :=
  isAdfReads line i ++
    if isAdf line i then
      if h : i + 4 < line.length then
        if wordAt line (i + 3) (by omega) == p.ccDid10 then [i + 3, i + 4] else [i + 3]
      else []
    else []

/-- The indices read by a scan of these indices that stops at the first one the test accepts (R101, R103). -/
def scanReads (test : Nat → Bool) (reads : Nat → List Nat) : List Nat → List Nat
  | [] => []
  | i :: rest => reads i ++ if test i then [] else scanReads test reads rest

/-- The indices FIND_ADF reads. -/
def findAdfReads (line : List Word) : List Nat :=
  scanReads (isAdf line) (isAdfReads line) (List.range line.length)

/-- The indices FIND_CC reads. -/
def findCcReads (p : Params) (line : List Word) : List Nat :=
  scanReads (isCcHeader p line) (isCcHeaderReads p line) (List.range line.length)

/-- The indices from `i` on, `n` of them. -/
def indicesFrom (i n : Nat) : List Nat := (List.range n).map (i + ·)

/-- The indices DECODE_VANC reads: header, payload, checksum, and the checksummed words again when it verifies (R121,
R299). -/
def decodeVancReads (p : Params) (line : List Word) (a : Nat) : List Nat :=
  if h : a + 6 ≤ line.length then
    let dc := (lowByte (wordAt line (a + 5) (by omega))).toNat
    [a + 3, a + 4, a + 5] ++
      if a + 6 + dc + 1 ≤ line.length then
        indicesFrom (a + 6) dc ++ [a + 6 + dc] ++
          if p.verifyChecksum then indicesFrom (a + 3) (dc + 3) else []
      else []
  else []

/-- The fields of a `CdpPacket` that DECODE_CDP reads from PAY: R299 bounds its reads "per field". -/
inductive CdpField where
  | marker1
  | marker2
  | length
  | frameRate
  | flags
  | sequenceCounter
  | sectionId
  | ccMarker
  | ccCount
  | ccPackets
  | footerId
  | footerSequenceCounter
  | serviceInfo
  deriving DecidableEq, Repr

/-- The offsets `DecodeServiceInfo(PAY, s)` reads (R153, R154). -/
def serviceInfoReads (pay : List Byte) (s : Nat) : List Nat :=
  if h : s + 2 ≤ pay.length then
    let count := (serviceCountOf (byteAt pay (s + 1) (by omega))).toNat
    [s, s + 1] ++ if s + 2 + 7 * count ≤ pay.length then indicesFrom (s + 2) (7 * count) else []
  else []

/-- The offsets DECODE_CDP reads for each field, in the order of its checks (R141, R157); a field after the first failing
check is not read. -/
def decodeCdpReads (p : Params) (pay : List Byte) : List (CdpField × List Nat) :=
  if 255 < pay.length then []
  else if hShort : pay.length < 9 then []
  else if byteAt pay 0 (by omega) ≠ p.cdpMarker1 then [(.marker1, [0])]
  else if byteAt pay 1 (by omega) ≠ p.cdpMarker2 then [(.marker1, [0]), (.marker2, [1])]
  else
    let cc := (ccCountOf (byteAt pay 8 (by omega))).toNat
    let counted := [(.marker1, [0]), (.marker2, [1]), (.ccCount, [8])]
    if pay.length < 9 + 3 * cc then counted
    else if byteAt pay (pay.length - 4) (by omega) ≠ p.cdpFooterId then counted ++ [(.footerId, [pay.length - 4])]
    else
      let flags := cdpFlagsOf (byteAt pay 4 (by omega))
      let checked := counted ++ [(.footerId, [pay.length - 4]), (.flags, [4]),
        (.serviceInfo, if flags.svcInfoPresent then serviceInfoReads pay (9 + 3 * cc) else [])]
      match serviceInfoOf pay flags (9 + 3 * cc) with
      | .error _ => checked
      | .ok _ =>
        checked ++ [(.length, [2]), (.frameRate, [3]), (.sequenceCounter, [5, 6]), (.sectionId, [7]), (.ccMarker, [8]),
          (.ccPackets, indicesFrom 9 (3 * cc)), (.footerSequenceCounter, [pay.length - 3, pay.length - 2])]

/-- All the offsets DECODE_CDP reads, field after field. -/
def decodeCdpOffsets (p : Params) (pay : List Byte) : List Nat := (decodeCdpReads p pay).flatMap Prod.snd

/-- The units SELECT_PAIR looks at, by index: those up to the first it selects (R180). -/
def selectPairReads (c : CdpPacket) (wt : PacketType) : List Nat :=
  scanReads (fun i => c.ccPackets[i]?.any fun u => u.valid && u.packetType == wt) (fun i => [i])
    (List.range c.ccPackets.length)

/-- What FEED_PAIR reads: entries of the two tables, and codes of the text (R299). -/
structure FeedReads where
  deparity : List Nat
  rowTable : List Nat
  text : List Nat
  deriving DecidableEq, Repr

/-- Nothing read. -/
def FeedReads.none : FeedReads := ⟨[], [], []⟩

/-- The row entries `RowLookup` looks at: those up to the first that covers the pair (R27). -/
def rowLookupReads (p : Params) (c0 c1 : Code) : List Nat :=
  scanReads (fun i => p.rowTable.toList[i]?.any fun e => rowCovers e c0 c1) (fun i => [i]) (List.range 15)

/-- What a channel-1 control pair of codes reads beyond them: row entries if it reaches the lookup, and the text, each code
once, if it flushes (R206 to R212, R217). -/
def feedControl1Reads (p : Params) (before : CaptionLineState) (c0 c1 : Code) : List Nat × List Nat :=
  let pass := List.range before.accumulatedText.length
  if (c0, c1) = before.lastControlPair then ([], [])
  else if isSpacing c0 c1 then ([], [])
  else if isFlushCode c0 c1 then ([], pass)
  else
    (rowLookupReads p c0 c1,
      match rowLookup p c0 c1 with
      | .none => []
      | some k => if (k.val : Int) = before.trackedRow then [] else pass)

/-- What FEED_PAIR reads (R200 to R217). -/
def feedPairReads (p : Params) (before : CaptionLineState) (b0 b1 : Byte) : FeedReads :=
  if before.overflow then .none
  else if b0 = 0x80 ∧ b1 = 0x80 then .none
  else
    let (rows, text) :=
      match pairClass (deparity p b0) with
      | .control1 => feedControl1Reads p before (deparity p b0) (deparity p b1)
      | .printable => ([], [])
      | .control2 => ([], [])
      | .other => ([], [])
    ⟨[b0.toNat, b1.toNat], rows, text⟩

/-- The words `Legacy(LINE, a)` reads (R147). -/
def legacyReads (p : Params) (line : List Word) (a : Nat) : List Nat :=
  match p.legacySeqIdx with
  | none => []
  | some (hi, lo) => if a + hi < line.length ∧ a + lo < line.length then [a + hi, a + lo] else []

/-- What PROCESS_LINE reads, stage by stage (R240, R299); a stage that is not reached reads nothing. -/
structure PipelineReads where
  locate : List Nat
  unpack : List Nat
  cdp : List (CdpField × List Nat)
  legacy : List Nat
  units : List Nat
  feed : FeedReads
  deriving DecidableEq, Repr

/-- The words of LINE among them. -/
def PipelineReads.words (r : PipelineReads) : List Nat := r.locate ++ r.unpack ++ r.legacy

/-- How many reads a FEED_PAIR makes. -/
def FeedReads.count (r : FeedReads) : Nat := r.deparity.length + r.rowTable.length + r.text.length

/-- How many reads a PROCESS_LINE makes: "the sum of its stages" (R299). -/
def PipelineReads.count (r : PipelineReads) : Nat :=
  r.locate.length + r.unpack.length + (r.cdp.flatMap Prod.snd).length + r.legacy.length + r.units.length + r.feed.count

/-- What PROCESS_LINE reads: each stage what its command reads on what the stages before answered (R240). -/
def processLineReads (p : Params) (before : CaptionLineState) (line : List Word) (wt : PacketType) : PipelineReads :=
  let located : PipelineReads := ⟨findCcReads p line, [], [], [], [], .none⟩
  match findCcIndex p line with
  | none => located
  | some a =>
    let unpacked := { located with unpack := decodeVancReads p line a }
    match decodeVanc p line a with
    | .error _ => unpacked
    | .ok v =>
      let decoded := { unpacked with cdp := decodeCdpReads p v.payload }
      match decodeCdp p v.payload with
      | .error _ => decoded
      | .ok c =>
        let selected := { decoded with legacy := legacyReads p line a, units := selectPairReads c wt }
        match selectPair c wt with
        | none => selected
        | some (d1, d2) => { selected with feed := feedPairReads p before d1 d2 }

end Sys2Proof.Machine
end

