-- ==== Sys2Proof/Safety.lean ====
section
/-! DEFINITION. Sys2Proof/Safety.lean: what claims mean by a legal state and by a host that keeps its duties
(10_state.md rules R22 to R31, 60_exceptions.md rule R269). -/

namespace Sys2Proof.Machine

/-- What R26 asks of a `DEPARITY` table: the odd-parity bytes go bijectively onto the codes, the others to 0. -/
structure ParamsLegal (p : Params) : Prop where
  others_to_zero : ∀ b, oddParity b = false → deparity p b = 0
  onto : ∀ c : Code, ∃ b, oddParity b = true ∧ deparity p b = c
  one_to_one : ∀ b b', oddParity b = true → oddParity b' = true → deparity p b = deparity p b' → b = b'

/-- The legal values of the fields of `S` (R22, R24, R25, R28, R31). -/
structure CaptionLineState.Legal (p : Params) (c : CaptionLineState) : Prop where
  row : -1 ≤ c.trackedRow ∧ c.trackedRow ≤ 14
  text : ∀ x ∈ c.accumulatedText, isPrintable x = true
  cap : withinCap p c.accumulatedText.length = true
  pair : c.lastControlPair = (0, 0) ∨ (0x10 ≤ c.lastControlPair.1 ∧ c.lastControlPair.1 ≤ 0x14)
  overflow : c.overflow = true → p.textCap ≠ none

/-- The invariant of the machine: the parameters and `S` are legal. -/
structure State.Inv (s : State) : Prop where
  params : ParamsLegal s.params
  capt : s.capt.Legal s.params

/-- Whether one input keeps the host's duties: no breach, a line of at most `LINE_MAX` words (R41), and a CDP operand "as
DECODE_CDP returns it" (R61). -/
def HostInput.Obeys : HostInput → Prop
  | .command _ operands => operands.line.length ≤ Config.lineMax ∧ operands.cdp.wf = true
  | .reset => True
  | .breach _ => False

/-- A host that keeps its duties in everything it has issued (R269). -/
def State.HostObeys (s : State) : Prop := ∀ x ∈ s.pending, x.Obeys

end Sys2Proof.Machine
end

