-- ==== Sys2Proof/Certificates/Slice0/Obligations.lean ====
section
/-! DEFINITION. Sys2Proof/Certificates/Slice0/Obligations.lean: the statements about the model, from the numbered rules of
spec/. Nothing is proved here. The helpers of `Claims` restate, on the words and bytes themselves, what a rule says, so
that a statement does not repeat the definition it is about. -/

namespace Sys2Proof.Claims

open Sys2Proof.Machine

/-- The three words of the ancillary-data flag stand at index `i` (R100). -/
def FlagAt (words : List Word) (i : Nat) : Prop :=
  words[i]? = some 0x000 ∧ words[i + 1]? = some 0x3FF ∧ words[i + 2]? = some 0x3FF

/-- A flag at `i` followed by the caption DID and SDID (R102). -/
def CaptionHeaderAt (p : Params) (words : List Word) (i : Nat) : Prop :=
  FlagAt words i ∧ words[i + 3]? = some p.ccDid10 ∧ words[i + 4]? = some p.ccSdid10

/-- The packet at `a` has this data-count word, and DID and SDID words, and fits the line with its checksum word `cs`
(R70, R122). -/
def PacketAt (words : List Word) (a : Nat) (did sdid dc cs : Word) : Prop :=
  words[a + 3]? = some did ∧ words[a + 4]? = some sdid ∧ words[a + 5]? = some dc ∧
    words[a + 6 + dc.toNat % 256]? = some cs

/-- The 9-bit sum of the `n` words from index `i` on, each without its bit 9 (R125). -/
def sumFrom (words : List Word) (i n : Nat) : Nat :=
  ((List.range n).map fun k => (words.getD (i + k) 0).toNat % 512).sum % 512

/-- The checksum word as a number: the 9-bit sum, with bit 9 the inverse of bit 8 (R125). -/
def checksumNumber (words : List Word) (a dc : Nat) : Nat :=
  let s := sumFrom words (a + 3) (dc + 3)
  if s < 256 then s + 512 else s

/-- `v` is the packet of these words (R120). -/
def IsPacketOf (words : List Word) (a : Nat) (did sdid dc cs : Word) (v : VancPacket) : Prop :=
  v.did.toNat = did.toNat % 256 ∧ v.sdid.toNat = sdid.toNat % 256 ∧ v.dataCount.toNat = dc.toNat % 256 ∧
    v.checksum.toNat = cs.toNat ∧ v.payload.length = dc.toNat % 256 ∧
    ∀ k, k < dc.toNat % 256 → ∃ w, words[a + 6 + k]? = some w ∧ v.payload[k]? = some (BitVec.ofNat 8 (w.toNat % 256))

/-- `u` is the unit of the three bytes `x0 x1 x2` (R76, R77). -/
def IsUnitOf (x0 x1 x2 : Byte) (u : CcDataUnit) : Prop :=
  u.marker.toNat = x0.toNat / 8 * 8 ∧ u.valid = decide (x0.toNat / 4 % 2 = 1) ∧
    (packetTypeCode u.packetType).toNat = x0.toNat % 4 ∧ u.data1 = x1 ∧ u.data2 = x2

/-- `r` is the service record of the seven bytes at offset `o` (R80, R155). -/
def IsRecordAt (pay : List Byte) (o : Nat) (r : ServiceRecord) : Prop :=
  ∃ y0, pay[o]? = some y0 ∧ r.reserved1 = decide (y0.toNat / 128 = 1) ∧ r.sizeFlag = decide (y0.toNat / 64 % 2 = 1) ∧
    (r.sizeFlag = true → r.reserved2 = some (decide (y0.toNat / 32 % 2 = 1)) ∧ r.serviceNumber.toNat = y0.toNat % 32) ∧
    (r.sizeFlag = false → r.reserved2 = none ∧ r.serviceNumber.toNat = y0.toNat % 64) ∧
    ∀ k : Fin 6, pay[o + 1 + k]? = some r.serviceData[k]

/-- `b` is the service-info block at offset `o`, its records at the cumulative offsets (R79, R154). -/
def IsBlockAt (pay : List Byte) (o : Nat) (b : ServiceInfoBlock) : Prop :=
  pay[o]? = some b.marker ∧
    ∃ f, pay[o + 1]? = some f ∧ b.reserved = decide (f.toNat / 128 = 1) ∧ b.start = decide (f.toNat / 64 % 2 = 1) ∧
      b.change = decide (f.toNat / 32 % 2 = 1) ∧ b.complete = decide (f.toNat / 16 % 2 = 1) ∧
      b.serviceCount.toNat = f.toNat % 16 ∧ b.records.length = f.toNat % 16 ∧
      ∀ i, i < f.toNat % 16 → ∃ r, b.records[i]? = some r ∧ IsRecordAt pay (o + 2 + 7 * i) r

/-- The first nine bytes of the payload are these (R72). -/
def HeaderIs (pay : List Byte) (m1 m2 len fr fl s1 s2 sec mc : Byte) : Prop :=
  ∃ rest, pay = m1 :: m2 :: len :: fr :: fl :: s1 :: s2 :: sec :: mc :: rest

/-- The header and footer fields of a CDP record are those of the payload (R72 to R75, R78). -/
def HeaderFieldsOf (pay : List Byte) (m1 m2 len fr fl s1 s2 sec mc : Byte) (c : CdpPacket) : Prop :=
  c.marker1 = m1 ∧ c.marker2 = m2 ∧ c.length = len ∧ c.frameRate.toNat = fr.toNat / 16 ∧
    c.flags.timecodePresent = decide (fl.toNat / 128 = 1) ∧ c.flags.ccDataPresent = decide (fl.toNat / 64 % 2 = 1) ∧
    c.flags.svcInfoPresent = decide (fl.toNat / 32 % 2 = 1) ∧ c.flags.svcInfoStart = decide (fl.toNat / 16 % 2 = 1) ∧
    c.flags.svcInfoChange = decide (fl.toNat / 8 % 2 = 1) ∧ c.flags.svcInfoComplete = decide (fl.toNat / 4 % 2 = 1) ∧
    c.flags.captionServiceActive = decide (fl.toNat / 2 % 2 = 1) ∧ c.flags.reserved = decide (fl.toNat % 2 = 1) ∧
    c.sequenceCounter.toNat = s1.toNat * 256 + s2.toNat ∧ c.sequenceCounterLegacy = none ∧ c.sectionId = sec ∧
    c.ccMarker.toNat = mc.toNat / 32 ∧ c.ccCount.toNat = mc.toNat % 32 ∧
    pay[pay.length - 4]? = some c.footerId ∧
    ∃ f1 f2, pay[pay.length - 3]? = some f1 ∧ pay[pay.length - 2]? = some f2 ∧
      c.footerSequenceCounter.toNat = f1.toNat * 256 + f2.toNat

/-- A unit that SELECT_PAIR may return (R180). -/
def Selectable (wt : PacketType) (u : CcDataUnit) : Prop := u.valid = true ∧ u.packetType = wt

/-- A pair that FEED_PAIR steps the state machine with: no fault pending and not null filler (R200, R201). -/
def Live (s : State) (b0 b1 : Byte) : Prop :=
  s.capt.overflow = false ∧ ¬ (b0 = 0x80 ∧ b1 = 0x80)

/-- A first code of the channel-1 control class (R203). -/
def IsControl1 (c0 : Code) : Prop := 0x10 ≤ c0.toNat ∧ c0.toNat ≤ 0x14

/-- Mid-row code or Flash-On (R208). -/
def IsSpacingPair (c0 c1 : Code) : Prop :=
  (c0.toNat = 0x11 ∧ 0x20 ≤ c1.toNat ∧ c1.toNat ≤ 0x2F) ∨ (c0.toNat = 0x14 ∧ c1.toNat = 0x28)

/-- RCL, EDM, CR, ENM or EOC (R209). -/
def IsFlushPair (c0 c1 : Code) : Prop :=
  c0.toNat = 0x14 ∧
    (c1.toNat = 0x20 ∨ c1.toNat = 0x2C ∨ c1.toNat = 0x2D ∨ c1.toNat = 0x2E ∨ c1.toNat = 0x2F)

/-- An entry of the row table covers the pair (R27). -/
def Covers (e : RowEntry) (c0 c1 : Code) : Prop :=
  e.ctrl.toNat = c0.toNat ∧ e.lo.toNat ≤ c1.toNat ∧ c1.toNat ≤ e.hi.toNat

/-- `k` is the row of the first entry, in entry order, that covers the pair (R27). -/
def RowIs (p : Params) (c0 c1 : Code) (k : Fin 15) : Prop :=
  ∃ before e after, p.rowTable.toList = before ++ e :: after ∧ Covers e c0 c1 ∧ e.row = k ∧
    ∀ e' ∈ before, ¬ Covers e' c0 c1

/-- What a flush of `text` with start time `start` emits: the trimmed text if it is not empty, stamped in milliseconds
where they fit 32 bits (R216, R218). The stamp is otherwise not said, being free (log 8). -/
def Emits (text : List Code) (start : Time) (line : Option CompletedCaptionLine) : Prop :=
  (trim text = [] → line = none) ∧
    (trim text ≠ [] → ∃ ms, line = some ⟨trim text, ms⟩ ∧ (msOf start < 2 ^ 32 → ms.toNat = msOf start))

/-- The command answers the response `r` in the state `s`. -/
def Answers (i : Instr) (s : State) (r : Response) : Prop :=
  ∃ t, exec i s = .next t ∧ t.responses = r :: s.responses

/-- The command gives the same response in both states. -/
def AnswersAlike (i : Instr) (s s' : State) : Prop :=
  ∃ r, Answers i s r ∧ Answers i s' r

/-- The rule's list of the illegal command words, on the bits of the word (R63). -/
def IllegalWord (w : CmdWord) : Prop :=
  let op := w.toNat % 16
  8 ≤ op ∨ w.toNat / 64 % 4 ≠ 0 ∨ w.toNat / 16777216 ≠ 0 ∨
    (op ≠ 5 ∧ op ≠ 7 ∧ w.toNat / 16 % 4 ≠ 0) ∨ (op ≠ 6 ∧ w.toNat / 256 % 65536 ≠ 0)

end Sys2Proof.Claims

section Statements

open Sys2Proof Sys2Proof.Machine Sys2Proof.Claims

/-! ## The command word -/

/-- Decoding the word of any command gives the command back, with every field at every value (30_encoding.md sections
1 and 2). -/
def Obligations.DecodeOfEncodeIsTheCommand : Prop :=
  ∀ i : Instr, i.WellFormed = true → decode (encode i) = .ok i

/-- A word that decodes to a command is that command's word: no two words are one command (30_encoding.md sections 1
and 2). -/
def Obligations.DecodedWordIsTheEncoding : Prop :=
  ∀ (w : CmdWord) (i : Instr), decode w = .ok i → encode i = w

/-- The decoder gives exactly the commands of the rows of the opcode table whose fixed bits the word has
(spec/opcode_table.json). -/
def Obligations.DecodeAgreesWithOpcodeTable : Prop :=
  ∀ (w : CmdWord) (m : String),
    (∃ i, decode w = .ok i ∧ mnemonic i = m) ↔ ∃ row ∈ opcodeRows, row.mnemonic = m ∧ w &&& row.mask = row.value

/-- Words written out from 30_encoding.md section 1 and 45_pipeline.md. -/
def Obligations.WrittenWordsDecode : Prop :=
  decode 0x00000000 = .ok .nop ∧ decode 0x00000001 = .ok .findAdf ∧ decode 0x00000002 = .ok .findCc ∧
    decode 0x00000003 = .ok .decodeVanc ∧ decode 0x00000004 = .ok .decodeCdp ∧
    decode 0x00000035 = .ok (.selectPair .dtvccStart) ∧ decode 0x00AE9406 = .ok (.feedPair 0x94 0xAE) ∧
    decode 0x00000017 = .ok (.processLine .cc2)

/-- A word in one of the cases the rule lists is answered IllegalCommand with the word, and writes no field but the response;
a word in none of them is a command's, which runs and never gives that answer (30_encoding.md section 2; 45_pipeline.md,
reserved words). That the info holds nothing beside the word is the model's reading (log 16). -/
def Obligations.IllegalWordsAreAnsweredAndChangeNothing : Prop :=
  ∀ (s : State) (w : CmdWord) (ops : Operands) (rest : List HostInput),
    s.pending = .command w ops :: rest →
    (IllegalWord w →
      step s = .next { s with pending := rest, operands := ops
                              responses := ⟨.illegalCommand w none, .empty⟩ :: s.responses }) ∧
    (¬ IllegalWord w →
      ∃ i, decode w = .ok i ∧ step s = exec i { s with pending := rest, operands := ops } ∧
        ∀ r, Answers i { s with pending := rest, operands := ops } r → r.status ≠ .illegalCommand w none)

/-! ## The step -/

/-- A step on an issued command that decodes is that command's exec, on the operands issued with it. -/
def Obligations.StepRunsTheIssuedCommand : Prop :=
  ∀ (s : State) (w : CmdWord) (ops : Operands) (rest : List HostInput) (i : Instr),
    s.pending = .command w ops :: rest → decode w = .ok i → step s = exec i { s with pending := rest, operands := ops }

/-- A reset sets every field of S, and nothing else but taking the input (70_reset_and_hazards.md, reset; the parameters
RESET_CHANNEL and RESET_TIME; log 7). -/
def Obligations.ResetSetsEveryField : Prop :=
  ∀ (s : State) (rest : List HostInput), s.pending = .reset :: rest →
    step s = .next { s with pending := rest
                            capt := { activeChannel := s.params.resetChannel, trackedRow := -1
                                      lastControlPair := (0x00, 0x00), accumulatedText := []
                                      lineStartTime := s.params.resetTime, overflow := false } }

/-- A new instance, whatever its parameters, has the reset values of 70_reset_and_hazards.md (log 7), nothing issued and
nothing answered (log 10, 11), and the machine's reset state is the new instance with the default parameters (log 1, 2). -/
def Obligations.StateAfterReset : Prop :=
  (∀ p : Params,
    (State.create p).capt = { activeChannel := p.resetChannel, trackedRow := -1, lastControlPair := (0x00, 0x00)
                              accumulatedText := [], lineStartTime := p.resetTime, overflow := false } ∧
      (State.create p).params = p ∧ (State.create p).pending = [] ∧ (State.create p).responses = []) ∧
    State.reset = State.create defaultParams

/-- With nothing issued the core does nothing (70_reset_and_hazards.md, boot; log 10). -/
def Obligations.IdleWithoutACommand : Prop :=
  ∀ s : State, s.pending = [] → step s = .next s

/-- A step never refuses, and faults exactly when the host breaks a duty (00_scope.md: every rule is total; log 13). -/
def Obligations.StepStopsOnlyOnHostBreach : Prop :=
  ∀ s : State, (∀ r, step s ≠ .refused r) ∧
    ∀ f, step s = .fault f ↔ ∃ d rest, s.pending = .breach d :: rest ∧ f = .hostDuty d

/-- No step changes the parameters: neither a command nor a reset (R292). -/
def Obligations.StepKeepsTheParameters : Prop :=
  ∀ s t : State, step s = .next t → t.params = s.params

/-- Every command answers exactly one response, and writes nothing but the registers of S, the model's draw counter and
that response: the operand buffers, the parameters and what the host will do next are unchanged. -/
def Obligations.ExecAnswersOnceAndFrames : Prop :=
  ∀ (i : Instr) (s : State), ∃ (c : CaptionLineState) (d : Nat) (r : Response),
    exec i s = .next { s with capt := c, draws := d, responses := r :: s.responses }

/-- A command that answers an error leaves S unchanged, but for TextOverflow, which sets S.overflow and nothing else
(00_scope.md section 4). -/
def Obligations.ErrorLeavesTheRegisters : Prop :=
  ∀ (i : Instr) (s t : State) (r : Response), exec i s = .next t → t.responses = r :: s.responses → r.status ≠ .ok →
    (r.status ≠ .textOverflow → t.capt = s.capt) ∧
      (r.status = .textOverflow → t.capt = { s.capt with overflow := true })

/-- The commands of the stateless units read only the operands and the parameters and write no field of S: two states that
agree on those give the same response (70_reset_and_hazards.md, serialization; 10_state.md section 4). -/
def Obligations.DecodeCommandsReadAndWriteNoState : Prop :=
  ∀ (i : Instr), (i = .nop ∨ i = .findAdf ∨ i = .findCc ∨ i = .decodeVanc ∨ i = .decodeCdp ∨ ∃ wt, i = .selectPair wt) →
    ∀ s s' : State, s.params = s'.params → s.operands = s'.operands →
      ∃ r, exec i s = .next { s with responses := r :: s.responses } ∧
        exec i s' = .next { s' with responses := r :: s'.responses }

/-- NOP answers OK with no field and leaves S as it was (45_pipeline.md, NOP). -/
def Obligations.NopAnswersOk : Prop :=
  ∀ s : State, exec .nop s = .next { s with responses := ⟨.ok, .empty⟩ :: s.responses }

/-! ## The locator -/

/-- FIND_ADF returns the first index where the three words of the flag stand, NoPacketFound when there is none, and writes
no state (R100, R101). -/
def Obligations.FindAdfReturnsTheFirstFlag : Prop :=
  decode 0x00000001 = .ok .findAdf ∧
  ∀ s : State,
    (∀ i, FlagAt s.operands.line i → (∀ j, j < i → ¬ FlagAt s.operands.line j) →
      exec .findAdf s = .next { s with responses := ⟨.ok, .adf (some i)⟩ :: s.responses }) ∧
    ((∀ i, ¬ FlagAt s.operands.line i) →
      exec .findAdf s = .next { s with responses := ⟨.noPacketFound, .adf none⟩ :: s.responses })

/-- FIND_CC returns the first index of a flag followed by the caption DID and SDID, compared as 10-bit words, whatever
stands before it, NoPacketFound when there is none, and writes no state (40_locator.md section 2). -/
def Obligations.FindCcReturnsTheFirstCaptionHeader : Prop :=
  ∀ s : State,
    (∀ i, CaptionHeaderAt s.params s.operands.line i →
      (∀ j, j < i → ¬ CaptionHeaderAt s.params s.operands.line j) →
      exec .findCc s = .next { s with responses := ⟨.ok, .adf (some i)⟩ :: s.responses }) ∧
    ((∀ i, ¬ CaptionHeaderAt s.params s.operands.line i) →
      exec .findCc s = .next { s with responses := ⟨.noPacketFound, .adf none⟩ :: s.responses })

/-- Each scan reads for a first part of the line's indices, at most 5 words for each, none past the line's end, so at most
5 * L in all (R104; the reads counted as in log 21). These are all it reads: on any line of the same length with the same
words there it answers the same, and that answer is OK or NoPacketFound and nothing else. -/
def Obligations.LocatorScansAreBounded : Prop :=
  ∀ (s : State) (i : Instr) (perIndex : Nat → List Nat) (reads : List Nat),
    let words := s.operands.line
    ((i = .findAdf ∧ perIndex = isAdfReads words ∧ reads = findAdfReads words) ∨
      (i = .findCc ∧ perIndex = isCcHeaderReads s.params words ∧ reads = findCcReads s.params words)) →
    (∃ n, n ≤ words.length ∧ reads = (List.range n).flatMap perIndex) ∧
    (∀ k, (perIndex k).length ≤ 5 ∧ ∀ j ∈ perIndex k, j < words.length) ∧
    reads.length ≤ 5 * words.length ∧
    ∃ r, (r.status = .ok ∨ r.status = .noPacketFound) ∧ Answers i s r ∧
      ∀ words', AgreeOn reads words words' → Answers i { s with operands := { s.operands with line := words' } } r

/-! ## The VANC packet decoder -/

/-- DECODE_VANC of a packet that fits its line, when the checksum is not verified or is right, returns its record: DID,
SDID, data count and payload narrowed to bits 7..0, the checksum word whole. Nothing is asked of the words at the
offset itself, nor of DID and SDID (41_vanc_decoder.md sections 1 and 2; log 15). -/
def Obligations.DecodeVancReturnsThePacket : Prop :=
  ∀ (s : State) (did sdid dc cs : Word),
    PacketAt s.operands.line s.operands.adf did sdid dc cs →
    (s.params.verifyChecksum = false ∨ cs.toNat = checksumNumber s.operands.line s.operands.adf (dc.toNat % 256)) →
    ∃ v, exec .decodeVanc s = .next { s with responses := ⟨.ok, .vanc v⟩ :: s.responses } ∧
      IsPacketOf s.operands.line s.operands.adf did sdid dc cs v

/-- DECODE_VANC raises TruncatedPacket when the header does not fit the line, and when the packet does not, with the word
count needed and the line's length (41_vanc_decoder.md section 2; log 15). -/
def Obligations.DecodeVancReportsTruncation : Prop :=
  ∀ s : State,
    let words := s.operands.line
    let a := s.operands.adf
    (words.length < a + 6 →
      exec .decodeVanc s =
        .next { s with responses := ⟨.truncatedPacket (a + 6) words.length, .empty⟩ :: s.responses }) ∧
    ∀ dc, words[a + 5]? = some dc → words.length < a + 7 + dc.toNat % 256 →
      exec .decodeVanc s =
        .next { s with responses :=
                  ⟨.truncatedPacket (a + 7 + dc.toNat % 256) words.length, .empty⟩ :: s.responses }

/-- With VERIFY_CHECKSUM, DECODE_VANC of a packet that fits but whose checksum word differs from the sum raises
ChecksumMismatch with both words (41_vanc_decoder.md section 2; log 3). -/
def Obligations.DecodeVancReportsChecksumMismatch : Prop :=
  ∀ (s : State) (did sdid dc cs : Word),
    PacketAt s.operands.line s.operands.adf did sdid dc cs → s.params.verifyChecksum = true →
    cs.toNat ≠ checksumNumber s.operands.line s.operands.adf (dc.toNat % 256) →
    ∃ expected : Word,
      expected.toNat = checksumNumber s.operands.line s.operands.adf (dc.toNat % 256) ∧
      exec .decodeVanc s = .next { s with responses := ⟨.checksumMismatch expected cs, .empty⟩ :: s.responses }

/-- Without verification, the upper two bits of the payload words change nothing of the answer (41_vanc_decoder.md section
2: they "are not re-validated"). -/
def Obligations.PayloadUpperBitsAreIgnored : Prop :=
  ∀ (s : State) (did sdid dc cs : Word) (words' : List Word),
    PacketAt s.operands.line s.operands.adf did sdid dc cs → s.params.verifyChecksum = false →
    words'.length = s.operands.line.length →
    (∀ j, (j < s.operands.adf + 6 ∨ s.operands.adf + 6 + dc.toNat % 256 ≤ j) → words'[j]? = s.operands.line[j]?) →
    (∀ (j : Nat) (w w' : Word), s.operands.line[j]? = some w → words'[j]? = some w' → w'.toNat % 256 = w.toNat % 256) →
    ∃ r, Answers .decodeVanc s r ∧ Answers .decodeVanc { s with operands := { s.operands with line := words' } } r

/-- The bounds of 70_reset_and_hazards.md, termination, on what the other commands read, counted as in log 21. DECODE_VANC: at
most 2 * dc + 7 words. DECODE_CDP: at most n bytes for each of its fields, with n at most 255, cc_count at most 31 and
service_count at most 15. SELECT_PAIR: at most 31 units. FEED_PAIR: two entries of the one table, at most 15 of the other, and
at most one pass over the text. PROCESS_LINE: the sum of its stages. None reads past its operand; and these are all it
reads: where buffers, tables and texts of the same length hold the same there, the answer is the same. That this takes in a timestamp past 32 bits is the
model's choice (log 25). -/
def Obligations.CommandReadsAreBounded : Prop :=
  ∀ s : State,
    (let words := s.operands.line
     let reads := decodeVancReads s.params words s.operands.adf
     (∀ j ∈ reads, j < words.length) ∧ reads.length ≤ 2 * 255 + 7 ∧
       (∀ dc, words[s.operands.adf + 5]? = some dc → reads.length ≤ 2 * (dc.toNat % 256) + 7) ∧
       ∀ words', AgreeOn reads words words' →
         AnswersAlike .decodeVanc s { s with operands := { s.operands with line := words' } }) ∧
    (let pay := s.operands.pay
     let fields := decodeCdpReads s.params pay
     (fields.map Prod.fst).Nodup ∧
       (∀ f ∈ fields, f.2.length ≤ pay.length ∧ pay.length ≤ 255 ∧ ∀ j ∈ f.2, j < pay.length) ∧
       (∀ c, Answers .decodeCdp s ⟨.ok, .cdp c⟩ →
         c.ccPackets.length ≤ 31 ∧ ∀ b, c.serviceInfo = some b → b.records.length ≤ 15) ∧
       ∀ pay', AgreeOn (decodeCdpOffsets s.params pay) pay pay' →
         AnswersAlike .decodeCdp s { s with operands := { s.operands with pay := pay' } }) ∧
    (∀ wt,
      (∃ n, n ≤ 31 ∧ n ≤ s.operands.cdp.ccPackets.length ∧ selectPairReads s.operands.cdp wt = List.range n) ∧
        ∀ c', AgreeOn (selectPairReads s.operands.cdp wt) s.operands.cdp.ccPackets c'.ccPackets →
          AnswersAlike (.selectPair wt) s { s with operands := { s.operands with cdp := c' } }) ∧
    (∀ b0 b1,
      let reads := feedPairReads s.params s.capt b0 b1
      reads.deparity.length ≤ 2 ∧ reads.rowTable.length ≤ 15 ∧
        (reads.text = [] ∨ reads.text = List.range s.capt.accumulatedText.length) ∧
        ∀ (deparity' : Vector Code 256) (rows' : Vector RowEntry 15) (text' : List Code),
          AgreeOn reads.deparity s.params.deparity.toList deparity'.toList →
          AgreeOn reads.rowTable s.params.rowTable.toList rows'.toList →
          AgreeOn reads.text s.capt.accumulatedText text' →
          AnswersAlike (.feedPair b0 b1) s
            { s with params := { s.params with deparity := deparity', rowTable := rows' }
                     capt := { s.capt with accumulatedText := text' } }) ∧
    ∀ wt,
      let words := s.operands.line
      let reads := processLineReads s.params s.capt words wt
      (∀ j ∈ reads.words, j < words.length) ∧
        reads.count ≤ 5 * words.length + (2 * 255 + 7) + 13 * 255 + 2 + 31 +
          (2 + 15 + s.capt.accumulatedText.length) ∧
        ∀ words' (deparity' : Vector Code 256) (rows' : Vector RowEntry 15) (text' : List Code),
          AgreeOn reads.words words words' →
          AgreeOn reads.feed.deparity s.params.deparity.toList deparity'.toList →
          AgreeOn reads.feed.rowTable s.params.rowTable.toList rows'.toList →
          AgreeOn reads.feed.text s.capt.accumulatedText text' →
          AnswersAlike (.processLine wt) s
            { s with params := { s.params with deparity := deparity', rowTable := rows' }
                     capt := { s.capt with accumulatedText := text' }
                     operands := { s.operands with line := words' } }

/-! ## The CDP decoder -/

/-- DECODE_CDP of a payload with the right markers and footer id, room for its triplets and no service-info flag returns
the header and footer fields, and no service-info block; nothing else of the header is checked (42_cdp_decoder.md
sections 2, 3, 5, 7; log 15). -/
def Obligations.DecodeCdpReturnsTheFields : Prop :=
  ∀ (s : State) (len fr fl s1 s2 sec mc : Byte),
    HeaderIs s.operands.pay s.params.cdpMarker1 s.params.cdpMarker2 len fr fl s1 s2 sec mc →
    s.operands.pay.length ≤ 255 → 9 + 3 * (mc.toNat % 32) ≤ s.operands.pay.length →
    s.operands.pay[s.operands.pay.length - 4]? = some s.params.cdpFooterId → fl.toNat / 32 % 2 = 0 →
    ∃ c, exec .decodeCdp s = .next { s with responses := ⟨.ok, .cdp c⟩ :: s.responses } ∧
      HeaderFieldsOf s.operands.pay s.params.cdpMarker1 s.params.cdpMarker2 len fr fl s1 s2 sec mc c ∧
      c.serviceInfo = none

/-- DECODE_CDP keeps every triplet, in order, decoded byte by byte: none is dropped for its valid bit or its marker
(R150). -/
def Obligations.DecodeCdpKeepsEveryTriplet : Prop :=
  ∀ (s t : State) (c : CdpPacket),
    exec .decodeCdp s = .next t → t.responses = ⟨.ok, .cdp c⟩ :: s.responses →
    c.ccPackets.length = c.ccCount.toNat ∧
      ∀ i, i < c.ccCount.toNat → ∃ x0 x1 x2 u,
        s.operands.pay[9 + 3 * i]? = some x0 ∧ s.operands.pay[10 + 3 * i]? = some x1 ∧
        s.operands.pay[11 + 3 * i]? = some x2 ∧ c.ccPackets[i]? = some u ∧ IsUnitOf x0 x1 x2 u

/-- DECODE_CDP raises the error of the first failing check, in the order: operand length, SHORT, MARKER, triplet bound,
FOOTER (42_cdp_decoder.md section 7; log 15). That the info of the first is DECODE_CDP's word and the operand's name is the
model's reading (log 16). -/
def Obligations.DecodeCdpFailsInOrder : Prop :=
  ∀ s : State,
    let pay := s.operands.pay
    let fails := fun e : Status => exec .decodeCdp s = .next { s with responses := ⟨e, .empty⟩ :: s.responses }
    (255 < pay.length → fails (.illegalCommand 0x00000004 (some .pay))) ∧
    (pay.length < 9 → fails (.malformedCdp .short)) ∧
    ∀ m1 m2 len fr fl s1 s2 sec mc, HeaderIs pay m1 m2 len fr fl s1 s2 sec mc → pay.length ≤ 255 →
      (m1 ≠ s.params.cdpMarker1 ∨ m2 ≠ s.params.cdpMarker2 → fails (.malformedCdp .marker)) ∧
      (m1 = s.params.cdpMarker1 → m2 = s.params.cdpMarker2 →
        (pay.length < 9 + 3 * (mc.toNat % 32) → fails (.malformedCdp .short)) ∧
        (9 + 3 * (mc.toNat % 32) ≤ pay.length → pay[pay.length - 4]? ≠ some s.params.cdpFooterId →
          fails (.malformedCdp .footer)))

/-- With the service-info flag set, DECODE_CDP decodes the block right after the triplets, its records at the offsets
base, base + 7, base + 14, ..., and raises SHORT when the block's header or its records do not fit (42_cdp_decoder.md
section 6; log 15). -/
def Obligations.DecodeCdpDecodesServiceInfo : Prop :=
  ∀ (s : State) (len fr fl s1 s2 sec mc : Byte),
    HeaderIs s.operands.pay s.params.cdpMarker1 s.params.cdpMarker2 len fr fl s1 s2 sec mc →
    s.operands.pay.length ≤ 255 → 9 + 3 * (mc.toNat % 32) ≤ s.operands.pay.length →
    s.operands.pay[s.operands.pay.length - 4]? = some s.params.cdpFooterId → fl.toNat / 32 % 2 = 1 →
    let o := 9 + 3 * (mc.toNat % 32)
    let short := exec .decodeCdp s = .next { s with responses := ⟨.malformedCdp .short, .empty⟩ :: s.responses }
    (s.operands.pay.length < o + 2 → short) ∧
    ∀ f, s.operands.pay[o + 1]? = some f →
      (s.operands.pay.length < o + 2 + 7 * (f.toNat % 16) → short) ∧
      (o + 2 + 7 * (f.toNat % 16) ≤ s.operands.pay.length →
        ∃ c b, exec .decodeCdp s = .next { s with responses := ⟨.ok, .cdp c⟩ :: s.responses } ∧
          HeaderFieldsOf s.operands.pay s.params.cdpMarker1 s.params.cdpMarker2 len fr fl s1 s2 sec mc c ∧
          c.serviceInfo = some b ∧ IsBlockAt s.operands.pay o b)

/-- Laying out any sequence of at most 31 units, each with a marker that is a multiple of 8, between a header and a footer
and decoding the payload gives the same units back (42_cdp_decoder.md section 7). -/
def Obligations.CdpUnitsRoundTrip : Prop :=
  ∀ (s : State) (units : List CcDataUnit) (len fr fl s1 s2 sec mc : Byte) (tail : List Byte),
    (∀ u ∈ units, u.marker.toNat % 8 = 0) → mc.toNat % 32 = units.length → fl.toNat / 32 % 2 = 0 →
    4 ≤ tail.length → tail[tail.length - 4]? = some s.params.cdpFooterId →
    s.operands.pay =
      [s.params.cdpMarker1, s.params.cdpMarker2, len, fr, fl, s1, s2, sec, mc] ++
        (units.flatMap fun u =>
          [BitVec.ofNat 8 (u.marker.toNat + (if u.valid then 4 else 0) + (packetTypeCode u.packetType).toNat),
            u.data1, u.data2]) ++ tail →
    s.operands.pay.length ≤ 255 →
    ∃ c, exec .decodeCdp s = .next { s with responses := ⟨.ok, .cdp c⟩ :: s.responses } ∧ c.ccPackets = units

/-- What DECODE_VANC and DECODE_CDP return is a well-formed record: the payload has data_count bytes, cc_packets has cc_count
units, and the block has service_count records (41_vanc_decoder.md section 1, 42_cdp_decoder.md section 1). -/
def Obligations.DecodedRecordsAreWellFormed : Prop :=
  (∀ (s : State) (v : VancPacket), Answers .decodeVanc s ⟨.ok, .vanc v⟩ → v.wf = true) ∧
    ∀ (s : State) (c : CdpPacket), Answers .decodeCdp s ⟨.ok, .cdp c⟩ → c.wf = true

/-! ## The selector -/

/-- SELECT_PAIR returns the data bytes of the first unit that is valid and of the wanted type, OK with no pair when there is
none, and writes no state (43_channel_selector.md). -/
def Obligations.SelectPairReturnsTheFirstValidUnit : Prop :=
  ∀ (s : State) (wt : PacketType),
    (∀ before u after, s.operands.cdp.ccPackets = before ++ u :: after → (∀ v ∈ before, ¬ Selectable wt v) →
      Selectable wt u →
      exec (.selectPair wt) s =
        .next { s with responses := ⟨.ok, .pair (some (u.data1, u.data2))⟩ :: s.responses }) ∧
    ((∀ v ∈ s.operands.cdp.ccPackets, ¬ Selectable wt v) →
      exec (.selectPair wt) s = .next { s with responses := ⟨.ok, .pair none⟩ :: s.responses })

/-! ## The 608 state machine -/

/-- The null-filler pair, and any pair whose codes are both 0, change nothing and emit nothing (R201). -/
def Obligations.NullFillerChangesNothing : Prop :=
  ∀ (s : State) (b0 b1 : Byte), s.capt.overflow = false →
    ((b0 = 0x80 ∧ b1 = 0x80) ∨ (deparity s.params b0 = 0 ∧ deparity s.params b1 = 0)) →
    exec (.feedPair b0 b1) s = .next { s with responses := ⟨.ok, .feed ⟨false, none⟩⟩ :: s.responses }

/-- A printable pair on channel 1 appends its first code, and its second if that is printable too, and writes nothing else
(R204), when the text has room. -/
def Obligations.PrintablePairIsAppended : Prop :=
  ∀ (s : State) (b0 b1 : Byte),
    let c0 := deparity s.params b0
    let c1 := deparity s.params b1
    let codes := if 0x20 ≤ c1.toNat then [c0, c1] else [c0]
    Live s b0 b1 → 0x20 ≤ c0.toNat → s.capt.activeChannel = .ch1 →
    withinCap s.params (s.capt.accumulatedText.length + codes.length) = true →
    exec (.feedPair b0 b1) s =
      .next { s with capt := { s.capt with accumulatedText := s.capt.accumulatedText ++ codes }
                     responses := ⟨.ok, .feed ⟨false, none⟩⟩ :: s.responses }

/-- A pair whose first code is below 0x10 or in 0x15..0x17 is ignored: no field is written (R214). -/
def Obligations.OtherPairsChangeNothing : Prop :=
  ∀ (s : State) (b0 b1 : Byte),
    let c0 := (deparity s.params b0).toNat
    Live s b0 b1 → (c0 < 0x10 ∨ (0x15 ≤ c0 ∧ c0 ≤ 0x17)) →
    exec (.feedPair b0 b1) s = .next { s with responses := ⟨.ok, .feed ⟨false, none⟩⟩ :: s.responses }

/-- A printable pair while channel 2 is active is ignored (44_eia608.md section 2, derived there). -/
def Obligations.Channel2TextIsIgnored : Prop :=
  ∀ (s : State) (b0 b1 : Byte),
    Live s b0 b1 → 0x20 ≤ (deparity s.params b0).toNat → s.capt.activeChannel = .ch2 →
    exec (.feedPair b0 b1) s = .next { s with responses := ⟨.ok, .feed ⟨false, none⟩⟩ :: s.responses }

/-- A channel-2 control pair sets the active channel to 2 and does nothing else (44_eia608.md section 2). -/
def Obligations.Channel2ControlSetsTheChannelOnly : Prop :=
  ∀ (s : State) (b0 b1 : Byte),
    let c0 := (deparity s.params b0).toNat
    Live s b0 b1 → 0x18 ≤ c0 → c0 ≤ 0x1F →
    exec (.feedPair b0 b1) s =
      .next { s with capt := { s.capt with activeChannel := .ch2 }
                     responses := ⟨.ok, .feed ⟨false, none⟩⟩ :: s.responses }

/-- A channel-1 control pair equal to the last one sets the active channel to 1 and does nothing else (R206, and
44_eia608.md on duplicates), whatever came between (44_eia608.md section 4). -/
def Obligations.DuplicateControlSetsTheChannelOnly : Prop :=
  ∀ (s : State) (b0 b1 : Byte),
    let c0 := deparity s.params b0
    let c1 := deparity s.params b1
    Live s b0 b1 → IsControl1 c0 → s.capt.lastControlPair = (c0, c1) →
    exec (.feedPair b0 b1) s =
      .next { s with capt := { s.capt with activeChannel := .ch1 }
                     responses := ⟨.ok, .feed ⟨false, none⟩⟩ :: s.responses }

/-- A mid-row code or Flash-On that is no duplicate appends one space, sets channel 1 and the last control pair, and does
nothing else (44_eia608.md section 2), when the text has room. -/
def Obligations.SpacingCodeAppendsASpace : Prop :=
  ∀ (s : State) (b0 b1 : Byte),
    let c0 := deparity s.params b0
    let c1 := deparity s.params b1
    Live s b0 b1 → IsSpacingPair c0 c1 → s.capt.lastControlPair ≠ (c0, c1) →
    withinCap s.params (s.capt.accumulatedText.length + 1) = true →
    exec (.feedPair b0 b1) s =
      .next { s with capt := { s.capt with activeChannel := .ch1, lastControlPair := (c0, c1)
                                           accumulatedText := s.capt.accumulatedText ++ [0x20] }
                     responses := ⟨.ok, .feed ⟨false, none⟩⟩ :: s.responses }

/-- An explicit flush code that is no duplicate flushes, at the pair's time: it clears the text, sets the line start time,
and leaves the row, but for ENM, which sets it to -1 (R209, R210). What it emits is FlushEmitsTheTrimmedText's. -/
def Obligations.FlushCodeFlushes : Prop :=
  ∀ (s : State) (b0 b1 : Byte),
    let c0 := deparity s.params b0
    let c1 := deparity s.params b1
    Live s b0 b1 → IsFlushPair c0 c1 → s.capt.lastControlPair ≠ (c0, c1) →
    ∃ (line : Option CompletedCaptionLine) (d : Nat),
      exec (.feedPair b0 b1) s =
        .next { s with capt := { s.capt with activeChannel := .ch1, lastControlPair := (c0, c1), accumulatedText := []
                                             lineStartTime := s.operands.time
                                             trackedRow := if c1.toNat = 0x2E then -1 else s.capt.trackedRow }
                       draws := d
                       responses := ⟨.ok, .feed ⟨true, line⟩⟩ :: s.responses }

/-- A channel-1 control pair that is no duplicate, no spacing and no flush code, and that the row table maps to a row:
if the row is not the tracked one, it flushes at the pair's time and then sets the row; if it is, nothing further happens
(R211). What a flush emits is FlushEmitsTheTrimmedText's. -/
def Obligations.RowChangeFlushes : Prop :=
  ∀ (s : State) (b0 b1 : Byte) (k : Fin 15),
    let c0 := deparity s.params b0
    let c1 := deparity s.params b1
    Live s b0 b1 → IsControl1 c0 → s.capt.lastControlPair ≠ (c0, c1) → ¬ IsSpacingPair c0 c1 → ¬ IsFlushPair c0 c1 →
    RowIs s.params c0 c1 k →
    ((k.val : Int) ≠ s.capt.trackedRow →
      ∃ (line : Option CompletedCaptionLine) (d : Nat),
        exec (.feedPair b0 b1) s =
          .next { s with capt := { s.capt with activeChannel := .ch1, lastControlPair := (c0, c1), accumulatedText := []
                                               lineStartTime := s.operands.time, trackedRow := (k.val : Int) }
                         draws := d
                         responses := ⟨.ok, .feed ⟨true, line⟩⟩ :: s.responses }) ∧
    ((k.val : Int) = s.capt.trackedRow →
      exec (.feedPair b0 b1) s =
        .next { s with capt := { s.capt with activeChannel := .ch1, lastControlPair := (c0, c1) }
                       responses := ⟨.ok, .feed ⟨false, none⟩⟩ :: s.responses })

/-- Whatever pair flushed, the emitted line is the trimmed old text, stamped with the OLD start time in milliseconds where
they fit 32 bits, and no line if the trimmed text is empty; a pair that does not flush emits nothing (44_eia608.md sections
3 and 4; the trim and the rounding are the spec's decisions, log 15). -/
def Obligations.FlushEmitsTheTrimmedText : Prop :=
  ∀ (s t : State) (b0 b1 : Byte) (f : FeedResult),
    exec (.feedPair b0 b1) s = .next t → t.responses = ⟨.ok, .feed f⟩ :: s.responses →
    (f.flushed = true → Emits s.capt.accumulatedText s.capt.lineStartTime f.line ∧ t.capt.accumulatedText = [] ∧
      t.capt.lineStartTime = s.operands.time) ∧
    (f.flushed = false → f.line = none ∧ t.capt.lineStartTime = s.capt.lineStartTime)

/-- A channel-1 control pair that is no duplicate, no spacing and no flush code, and that the row table does not map, sets
channel 1 and the last control pair and does nothing else (44_eia608.md section 2, derived there). -/
def Obligations.OtherControlSetsChannelAndPairOnly : Prop :=
  ∀ (s : State) (b0 b1 : Byte),
    let c0 := deparity s.params b0
    let c1 := deparity s.params b1
    Live s b0 b1 → IsControl1 c0 → s.capt.lastControlPair ≠ (c0, c1) → ¬ IsSpacingPair c0 c1 → ¬ IsFlushPair c0 c1 →
    (∀ e ∈ s.params.rowTable.toList, ¬ Covers e c0 c1) →
    exec (.feedPair b0 b1) s =
      .next { s with capt := { s.capt with activeChannel := .ch1, lastControlPair := (c0, c1) }
                     responses := ⟨.ok, .feed ⟨false, none⟩⟩ :: s.responses }

/-- An append past TEXT_CAP is a fault: the response is TextOverflow, S.overflow is set and every other write of the pair is
discarded, the channel's and the last pair's included (44_eia608.md section 2, 60_exceptions.md; log 5). -/
def Obligations.OverflowingAppendSetsOverflowOnly : Prop :=
  ∀ (s : State) (b0 b1 : Byte),
    let c0 := deparity s.params b0
    let c1 := deparity s.params b1
    let room := fun n => withinCap s.params (s.capt.accumulatedText.length + n)
    Live s b0 b1 →
    ((0x20 ≤ c0.toNat ∧ s.capt.activeChannel = .ch1 ∧ room (if 0x20 ≤ c1.toNat then 2 else 1) = false) ∨
      (IsSpacingPair c0 c1 ∧ s.capt.lastControlPair ≠ (c0, c1) ∧ room 1 = false)) →
    exec (.feedPair b0 b1) s =
      .next { s with capt := { s.capt with overflow := true }
                     responses := ⟨.textOverflow, .empty⟩ :: s.responses }

/-- While S.overflow is set, every FEED_PAIR answers TextOverflow and writes no state, null filler included
(60_exceptions.md; log 5). -/
def Obligations.OverflowIsSticky : Prop :=
  ∀ (s : State) (b0 b1 : Byte), s.capt.overflow = true →
    exec (.feedPair b0 b1) s = .next { s with responses := ⟨.textOverflow, .empty⟩ :: s.responses }

/-- Only a channel-1 control pair, fed alone or by PROCESS_LINE, writes the last control pair, and it writes its own codes:
no text, no channel-2 pair and no other command resets duplicate suppression (10_state.md, 44_eia608.md section 4). -/
def Obligations.LastControlPairIsWrittenByControlOnly : Prop :=
  ∀ (i : Instr) (s t : State), exec i s = .next t → t.capt.lastControlPair ≠ s.capt.lastControlPair →
    IsControl1 t.capt.lastControlPair.1 ∧ t.capt.activeChannel = .ch1 ∧
      ((∃ b0 b1, i = .feedPair b0 b1 ∧ t.capt.lastControlPair = (deparity s.params b0, deparity s.params b1)) ∨
        ∃ wt, i = .processLine wt)

/-- The active channel after a pair that is not turned away: 1 after every channel-1 control pair, duplicates included, 2
after every channel-2 control pair, and otherwise as it was (10_state.md section 2). -/
def Obligations.ActiveChannelFollowsControlPairs : Prop :=
  ∀ (s t : State) (b0 b1 : Byte) (f : FeedResult),
    let c0 := (deparity s.params b0).toNat
    Live s b0 b1 → exec (.feedPair b0 b1) s = .next t → t.responses = ⟨.ok, .feed f⟩ :: s.responses →
    t.capt.activeChannel =
      if 0x10 ≤ c0 ∧ c0 ≤ 0x14 then .ch1 else if 0x18 ≤ c0 ∧ c0 ≤ 0x1F then .ch2 else s.capt.activeChannel

/-- The text grows only on channel 1: a command that leaves a text longer than before is a FEED_PAIR or a PROCESS_LINE,
leaves channel 1 active, flushes nothing and emits nothing, as its answer says (10_state.md section 2, 44_eia608.md
section 2). -/
def Obligations.TextGrowsOnChannel1Only : Prop :=
  ∀ (i : Instr) (s t : State), exec i s = .next t →
    s.capt.accumulatedText.length < t.capt.accumulatedText.length →
    t.capt.activeChannel = .ch1 ∧ t.capt.lineStartTime = s.capt.lineStartTime ∧ t.capt.trackedRow = s.capt.trackedRow ∧
      (∃ codes, t.capt.accumulatedText = s.capt.accumulatedText ++ codes ∧ codes.length ≤ 2 ∧
        ∀ x ∈ codes, 0x20 ≤ x.toNat) ∧
      (((∃ b0 b1, i = .feedPair b0 b1) ∧ t.responses = ⟨.ok, .feed ⟨false, none⟩⟩ :: s.responses) ∨
        ((∃ wt, i = .processLine wt) ∧
          ∃ r, t.responses = ⟨.ok, .pipeline r⟩ :: s.responses ∧ r.flushed = some false ∧ r.line = none))

/-- Right after reset no channel-1 control pair is suppressed, and the first row-table hit always flushes, emitting nothing
(70_reset_and_hazards.md, consequences of the reset values; log 7). -/
def Obligations.FirstControlAfterResetIsNotSuppressed : Prop :=
  ∀ (s : State) (b0 b1 : Byte),
    let c0 := deparity s.params b0
    let c1 := deparity s.params b1
    s.capt = .afterReset s.params → Live s b0 b1 → IsControl1 c0 →
    (∀ t f, exec (.feedPair b0 b1) s = .next t → t.responses = ⟨.ok, .feed f⟩ :: s.responses →
      t.capt.lastControlPair = (c0, c1)) ∧
    ∀ k, RowIs s.params c0 c1 k → ¬ IsSpacingPair c0 c1 → ¬ IsFlushPair c0 c1 →
      exec (.feedPair b0 b1) s =
        .next { s with capt := { s.capt with activeChannel := .ch1, lastControlPair := (c0, c1)
                                             lineStartTime := s.operands.time, trackedRow := (k.val : Int) }
                       responses := ⟨.ok, .feed ⟨true, none⟩⟩ :: s.responses }

/-- Trim removes the leading and the trailing spaces and no other code, and trimming again changes nothing (44_eia608.md
section 3). -/
def Obligations.TrimRemovesOuterSpacesOnly : Prop :=
  ∀ x : List Code,
    (∃ m n, x = List.replicate m 0x20 ++ trim x ++ List.replicate n 0x20) ∧
    (trim x).head? ≠ some 0x20 ∧ (trim x).getLast? ≠ some 0x20 ∧ trim (trim x) = trim x

/-- The timestamp is the time in milliseconds rounded to the nearest integer, halves up (44_eia608.md section 3). -/
def Obligations.TimestampIsTheNearestMillisecond : Prop :=
  ∀ t : Time,
    let ms : ℚ := 1000 * (t.num : ℚ) / (t.den : ℚ)
    (msOf t : ℚ) - 1 / 2 ≤ ms ∧ ms < (msOf t : ℚ) + 1 / 2

/-! ## The pipeline -/

/-- A PROCESS_LINE whose locator, VANC or CDP stage fails answers that stage's error, has no effect on S and produces no
caption line (R241). The stages are the single commands. -/
def Obligations.FailingPipelineHasNoEffect : Prop :=
  ∀ (s : State) (wt : PacketType),
    let ends := fun e : Status =>
      ∃ r, exec (.processLine wt) s = .next { s with responses := ⟨e, .pipeline r⟩ :: s.responses } ∧ r.line = none
    (Answers .findCc s ⟨.noPacketFound, .adf none⟩ → ends .noPacketFound) ∧
    ∀ a, Answers .findCc s ⟨.ok, .adf (some a)⟩ →
      (∀ e, Answers .decodeVanc { s with operands := { s.operands with adf := a } } ⟨e, .empty⟩ → ends e) ∧
      ∀ v, Answers .decodeVanc { s with operands := { s.operands with adf := a } } ⟨.ok, .vanc v⟩ →
        ∀ e, Answers .decodeCdp { s with operands := { s.operands with pay := v.payload } } ⟨e, .empty⟩ → ends e

/-- The response of a failing PROCESS_LINE carries its stage's error and the results of the stages that completed before it,
as the single commands answer them (45_pipeline.md, PROCESS_LINE, response fields): nothing when FIND_CC fails, the index
when DECODE_VANC fails, also the packet when DECODE_CDP raises MalformedCdp, and all but FEED_PAIR's when that raises
TextOverflow. That the other fields are absent is the model's reading (log 17). -/
def Obligations.FailingPipelineKeepsCompletedStages : Prop :=
  ∀ (s t : State) (wt : PacketType) (e : Status) (r : PipelineResult),
    exec (.processLine wt) s = .next t → t.responses = ⟨e, .pipeline r⟩ :: s.responses → e ≠ .ok →
    (Answers .findCc s ⟨.noPacketFound, .adf none⟩ ∧ e = .noPacketFound ∧
      r = ⟨none, none, none, none, none, none, none, none⟩) ∨
    ∃ a, Answers .findCc s ⟨.ok, .adf (some a)⟩ ∧
      ((Answers .decodeVanc { s with operands := { s.operands with adf := a } } ⟨e, .empty⟩ ∧
          r = ⟨some a, none, none, none, none, none, none, none⟩) ∨
        ∃ v, Answers .decodeVanc { s with operands := { s.operands with adf := a } } ⟨.ok, .vanc v⟩ ∧
          ((∃ reason, e = .malformedCdp reason ∧
              Answers .decodeCdp { s with operands := { s.operands with pay := v.payload } } ⟨e, .empty⟩ ∧
              r = ⟨some a, some v, none, none, none, none, none, none⟩) ∨
            ∃ c d1 d2,
              let c' := { c with sequenceCounterLegacy := legacyCounter s.params s.operands.line a }
              let disc := decide (∃ x, c'.sequenceCounterLegacy = some x ∧ x ≠ c.sequenceCounter)
              Answers .decodeCdp { s with operands := { s.operands with pay := v.payload } } ⟨.ok, .cdp c⟩ ∧
                Answers (.selectPair wt) { s with operands := { s.operands with cdp := c } }
                  ⟨.ok, .pair (some (d1, d2))⟩ ∧
                e = .textOverflow ∧ Answers (.feedPair d1 d2) s ⟨.textOverflow, .empty⟩ ∧
                r = ⟨some a, some v, some c', some disc, some (some (d1, d2)), none, none, none⟩))

/-- PROCESS_LINE is the composition of the single commands: FIND_CC, DECODE_VANC at the index found, DECODE_CDP of the
payload, the legacy counter added, SELECT_PAIR, and FEED_PAIR of the pair. When every decoding stage answers OK, the
registers after PROCESS_LINE are those after FEED_PAIR of the selected pair, or those before if none is selected, and
the response holds every stage's result (45_pipeline.md; 42_cdp_decoder.md on the legacy counter; log 4). That a timestamp
past 32 bits is the same in both is the model's choice (log 25). -/
def Obligations.PipelineIsTheComposition : Prop :=
  ∀ (s : State) (wt : PacketType) (a : Nat) (v : VancPacket) (c : CdpPacket),
    let legacy : Option (BitVec 16) :=
      match s.params.legacySeqIdx with
      | none => none
      | some (hi, lo) =>
        match s.operands.line[a + hi]?, s.operands.line[a + lo]? with
        | some wh, some wl => some (BitVec.ofNat 16 (wh.toNat % 256 * 256 + wl.toNat % 256))
        | _, _ => none
    let c' := { c with sequenceCounterLegacy := legacy }
    let disc := decide (∃ x, legacy = some x ∧ x ≠ c.sequenceCounter)
    Answers .findCc s ⟨.ok, .adf (some a)⟩ →
    Answers .decodeVanc { s with operands := { s.operands with adf := a } } ⟨.ok, .vanc v⟩ →
    Answers .decodeCdp { s with operands := { s.operands with pay := v.payload } } ⟨.ok, .cdp c⟩ →
    (Answers (.selectPair wt) { s with operands := { s.operands with cdp := c } } ⟨.ok, .pair none⟩ →
      exec (.processLine wt) s =
        .next { s with responses :=
                  ⟨.ok, .pipeline ⟨some a, some v, some c', some disc, some none, some false, some false, none⟩⟩ ::
                    s.responses }) ∧
    ∀ d1 d2, Answers (.selectPair wt) { s with operands := { s.operands with cdp := c } } ⟨.ok, .pair (some (d1, d2))⟩ →
      ∀ u, exec (.feedPair d1 d2) s = .next u →
        (∀ f, u.responses = ⟨.ok, .feed f⟩ :: s.responses →
          exec (.processLine wt) s =
            .next { u with responses :=
                      ⟨.ok, .pipeline ⟨some a, some v, some c', some disc, some (some (d1, d2)), some true,
                        some f.flushed, f.line⟩⟩ :: s.responses }) ∧
        ∀ e, u.responses = ⟨e, .empty⟩ :: s.responses →
          exec (.processLine wt) s =
            .next { u with responses :=
                      ⟨e, .pipeline ⟨some a, some v, some c', some disc, some (some (d1, d2)), none, none, none⟩⟩ ::
                        s.responses }

/-- PROCESS_LINE completes: on a line whose first caption packet decodes, with a payload that decodes, it answers OK. When no
unit is valid and of the wanted type it feeds nothing and leaves S unchanged; else, with S.overflow clear and an
infinite TEXT_CAP, it feeds the first such unit's bytes, at the sample time, to the state machine (45_pipeline.md). That a
timestamp past 32 bits is FEED_PAIR's is the model's choice (log 25). -/
def Obligations.ProcessLineAnswersOk : Prop :=
  ∀ (s : State) (wt : PacketType) (a : Nat) (v : VancPacket) (c : CdpPacket),
    findCcIndex s.params s.operands.line = some a → decodeVanc s.params s.operands.line a = .ok v →
    decodeCdp s.params v.payload = .ok c →
    ((∀ u ∈ c.ccPackets, ¬ Selectable wt u) →
      ∃ r, exec (.processLine wt) s = .next { s with responses := ⟨.ok, .pipeline r⟩ :: s.responses } ∧
        r.adf = some a ∧ r.vanc = some v ∧ r.pair = some none ∧ r.fed = some false ∧ r.flushed = some false ∧
        r.line = none) ∧
    ∀ before u after, c.ccPackets = before ++ u :: after → (∀ x ∈ before, ¬ Selectable wt x) → Selectable wt u →
      s.capt.overflow = false → s.params.textCap = none →
      ∃ r, exec (.processLine wt) s =
          .next { s with capt := (feedPair s.params s.capt s.draws u.data1 u.data2 s.operands.time).capt
                         draws := (feedPair s.params s.capt s.draws u.data1 u.data2 s.operands.time).draws
                         responses := ⟨.ok, .pipeline r⟩ :: s.responses } ∧
        r.adf = some a ∧ r.vanc = some v ∧ r.pair = some (some (u.data1, u.data2)) ∧ r.fed = some true ∧
        ∃ f, Answers (.feedPair u.data1 u.data2) s ⟨.ok, .feed f⟩ ∧ r.flushed = some f.flushed ∧ r.line = f.line

/-! ## Invariants -/

/-- Every step keeps the machine legal: the row is -1 or a row index, the text holds printable codes and is within TEXT_CAP,
the last control pair is (0, 0) or a channel-1 control pair, S.overflow is set only with a finite TEXT_CAP, and the
de-parity table meets its constraint (10_state.md section 2). -/
def Obligations.StepKeepsTheMachineLegal : Prop :=
  ∀ s t : State, s.Inv → step s = .next t → t.Inv

/-- The machine is legal at reset, with the default tables (10_state.md sections 2 and 3; log 2). -/
def Obligations.MachineIsLegalAtReset : Prop := State.reset.Inv

/-- Under the default row table no step brings the tracked row into 4..9, the rows whose control bytes 0x15 to 0x17 the
classifier does not reach (10_state.md section 3; 90_conflicts.md C6; log 2). -/
def Obligations.DefaultTableNeverTracksRows4To9 : Prop :=
  ∀ s t : State, s.params.rowTable = defaultRowTable → ¬ (4 ≤ s.capt.trackedRow ∧ s.capt.trackedRow ≤ 9) →
    step s = .next t → ¬ (4 ≤ t.capt.trackedRow ∧ t.capt.trackedRow ≤ 9)

/-- S.overflow is cleared by nothing but reset, and never set with an infinite TEXT_CAP (10_state.md section 2; log 5). -/
def Obligations.OverflowIsClearedByResetOnly : Prop :=
  ∀ (i : Instr) (s t : State), exec i s = .next t →
    (s.capt.overflow = true → t.capt = s.capt) ∧
    (s.params.textCap = none → t.capt.overflow = s.capt.overflow)

/-! ## Beside the core -/

/-- A command to one instance changes no other instance (60_exceptions.md, instances; log 19). -/
def Obligations.InstancesShareNothing : Prop :=
  ∀ (instances after : List State) (k : Nat), stepInstance instances k = .next after →
    after.length = instances.length ∧ (∀ j, j ≠ k → after[j]? = instances[j]?) ∧
      ∀ s, instances[k]? = some s → ∃ s', step s = .next s' ∧ after[k]? = some s'

/-- The host's probing writes no field of S and finds the first candidate whose line holds a caption header. With no line
remembered, the auto-detect handling of a frame remembers the line found and does to S what PROCESS_LINE on it does, and
nothing when none is found; a remembered line is sent first, and if its answer is not OK the candidates are searched as with
none remembered, from the state it left (60_exceptions.md, line selection; log 20). -/
def Obligations.ProbingFindsTheFirstCandidate : Prop :=
  ∀ (frame : Nat → List Word) (candidates : List Nat) (t : Time) (wt : PacketType) (s : State),
    let found := candidates.find? fun n => (findCcIndex s.params (frame n)).isSome
    let handle := fun remembered s => autoDetectFrame candidates frame t wt remembered s
    (probe frame candidates s).2.capt = s.capt ∧ (probe frame candidates s).2.params = s.params ∧
      (probe frame candidates s).1 = found ∧
      (handle none s).1 = found ∧ (found = none → (handle none s).2.capt = s.capt) ∧
      (∀ n, found = some n → (handle none s).2.capt = (sendLine (frame n) t wt s).capt) ∧
      ∀ k, let sent := sendLine (frame k) t wt s
        (sent.lastOk = true → handle (some k) s = (some k, sent)) ∧
          (sent.lastOk = false → handle (some k) s = handle none sent)

/-- `P(c)` is a raw byte whose image under the default DEPARITY is `c` (30_encoding.md section 3; log 2). -/
def Obligations.ParityEncodingInvertsDeparity : Prop :=
  ∀ c : Code, oddParity (parityEncode c) = true ∧ deparity defaultParams (parityEncode c) = c

end Statements
end

