-- ==== Sys2Proof/Laws/State.lean ====
section
/-! SUPPORT. Sys2Proof/Laws/State.lean: for each update of the state, each field after it. -/

namespace Sys2Proof.Machine

variable (s : State) (st : Status) (f : ResultFields) (c : CaptionLineState) (d : Nat) (w : CmdWord) (o : Operands)
  (rest : List HostInput)

@[simp] theorem State.answer_capt : (s.answer st f).capt = s.capt := rfl
@[simp] theorem State.answer_params : (s.answer st f).params = s.params := rfl
@[simp] theorem State.answer_operands : (s.answer st f).operands = s.operands := rfl
@[simp] theorem State.answer_pending : (s.answer st f).pending = s.pending := rfl
@[simp] theorem State.answer_responses : (s.answer st f).responses = ⟨st, f⟩ :: s.responses := rfl
@[simp] theorem State.answer_draws : (s.answer st f).draws = s.draws := rfl

@[simp] theorem State.succeed_eq : s.succeed f = s.answer .ok f := rfl
@[simp] theorem State.raise_eq : s.raise st f = s.answer st f := rfl

@[simp] theorem State.setCapt_capt : (s.setCapt c d).capt = c := rfl
@[simp] theorem State.setCapt_params : (s.setCapt c d).params = s.params := rfl
@[simp] theorem State.setCapt_operands : (s.setCapt c d).operands = s.operands := rfl
@[simp] theorem State.setCapt_pending : (s.setCapt c d).pending = s.pending := rfl
@[simp] theorem State.setCapt_responses : (s.setCapt c d).responses = s.responses := rfl
@[simp] theorem State.setCapt_draws : (s.setCapt c d).draws = d := rfl
@[simp] theorem State.setCapt_same : s.setCapt s.capt s.draws = s := rfl

@[simp] theorem State.take_capt : (s.take rest o).capt = s.capt := rfl
@[simp] theorem State.take_params : (s.take rest o).params = s.params := rfl
@[simp] theorem State.take_operands : (s.take rest o).operands = o := rfl
@[simp] theorem State.take_pending : (s.take rest o).pending = rest := rfl
@[simp] theorem State.take_responses : (s.take rest o).responses = s.responses := rfl
@[simp] theorem State.take_draws : (s.take rest o).draws = s.draws := rfl

@[simp] theorem State.issue_capt : (s.issue w o).capt = s.capt := rfl
@[simp] theorem State.issue_params : (s.issue w o).params = s.params := rfl
@[simp] theorem State.issue_operands : (s.issue w o).operands = s.operands := rfl
@[simp] theorem State.issue_pending : (s.issue w o).pending = .command w o :: s.pending := rfl
@[simp] theorem State.issue_responses : (s.issue w o).responses = s.responses := rfl
@[simp] theorem State.issue_draws : (s.issue w o).draws = s.draws := rfl

@[simp] theorem State.resetInstance_capt : s.resetInstance.capt = .afterReset s.params := rfl
@[simp] theorem State.resetInstance_params : s.resetInstance.params = s.params := rfl
@[simp] theorem State.resetInstance_operands : s.resetInstance.operands = s.operands := rfl
@[simp] theorem State.resetInstance_pending : s.resetInstance.pending = s.pending := rfl
@[simp] theorem State.resetInstance_responses : s.resetInstance.responses = s.responses := rfl
@[simp] theorem State.resetInstance_draws : s.resetInstance.draws = s.draws := rfl

@[simp] theorem illegalWord_eq : illegalWord w s = s.answer (.illegalCommand w none) .empty := rfl

end Sys2Proof.Machine
end

