-- ==== Sys2Proof/Laws/Ops.lean ====
section
/-! SUPPORT. Sys2Proof/Laws/Ops.lean: what trimming, stamping and reading the operand buffers do. -/

namespace Sys2Proof.Machine

@[simp] theorem isSpace_iff (c : Code) : isSpace c = true ↔ c = 0x20 := by simp [isSpace]

@[simp] theorem trim_nil : trim [] = [] := rfl

/-- The leading part that `dropWhile isSpace` removes is spaces. -/
theorem exists_replicate_dropWhile (x : List Code) :
    ∃ n, x = List.replicate n 0x20 ++ x.dropWhile isSpace := by
  induction x with
  | nil => exact ⟨0, rfl⟩
  | cons c x ih =>
    by_cases h : isSpace c = true
    · obtain ⟨n, hn⟩ := ih
      refine ⟨n + 1, ?_⟩
      rw [List.dropWhile_cons_of_pos h, List.replicate_succ, List.cons_append, ← hn, (isSpace_iff c).1 h]
    · exact ⟨0, by rw [List.dropWhile_cons_of_neg h]; rfl⟩

/-- What is left by `dropWhile isSpace` starts with no space. -/
theorem head?_dropWhile_isSpace (x : List Code) : (x.dropWhile isSpace).head? ≠ some 0x20 := by
  induction x with
  | nil => simp
  | cons c x ih =>
    by_cases h : isSpace c = true
    · rwa [List.dropWhile_cons_of_pos h]
    · rw [List.dropWhile_cons_of_neg h, List.head?_cons]
      simpa using h

/-- The stamp is the milliseconds where they fit 32 bits; else it is the free value and the draw is used up (R218). -/
theorem stamp_cases (t : Time) (d : Nat) :
    (msOf t < 2 ^ 32 ∧ (stamp t d).1.toNat = msOf t ∧ (stamp t d).2 = d) ∨
      (2 ^ 32 ≤ msOf t ∧ stamp t d = (Config.freeTimestamp d, d + 1)) := by
  unfold stamp
  split
  · left
    refine ⟨‹_›, ?_, rfl⟩
    simp only [BitVec.toNat_ofNat]
    omega
  · right
    exact ⟨by omega, rfl⟩

@[simp] theorem lowByte_toNat (w : Word) : (lowByte w).toNat = w.toNat % 256 := by
  simp [lowByte, BitVec.extractLsb'_toNat]

@[simp] theorem bigEndian_toNat (hi lo : Byte) : (bigEndian hi lo).toNat = hi.toNat * 256 + lo.toNat := by
  have h := lo.isLt
  simp only [bigEndian, BitVec.toNat_append]
  rw [← Nat.shiftLeft_add_eq_or_of_lt h, Nat.shiftLeft_eq]

theorem bit_eq (b : Byte) (i : Nat) : bit b i = decide (b.toNat / 2 ^ i % 2 = 1) := by
  rw [bit, BitVec.getLsbD, Nat.testBit_eq_decide_div_mod_eq]

theorem getElem?_wordAt {words : List Word} {i : Nat} (h : i < words.length) :
    words[i]? = some (wordAt words i h) := List.getElem?_eq_getElem h

theorem getElem?_byteAt {pay : List Byte} {i : Nat} (h : i < pay.length) :
    pay[i]? = some (byteAt pay i h) := List.getElem?_eq_getElem h

/-- A read of a word that the line is known to hold there. -/
theorem wordAt_of_getElem? {words : List Word} {i : Nat} {w : Word} (h : i < words.length) (hw : words[i]? = some w) :
    wordAt words i h = w := by
  rw [getElem?_wordAt h] at hw
  exact Option.some.inj hw

/-- A read of a byte that the payload is known to hold there. -/
theorem byteAt_of_getElem? {pay : List Byte} {i : Nat} {b : Byte} (h : i < pay.length) (hb : pay[i]? = some b) :
    byteAt pay i h = b := by
  rw [getElem?_byteAt h] at hb
  exact Option.some.inj hb

/-- An index at which the line holds a word is within it. -/
theorem lt_of_getElem?_word {α : Type} {l : List α} {i : Nat} {w : α} (h : l[i]? = some w) : i < l.length := by
  by_contra hn
  rw [List.getElem?_eq_none (by omega)] at h
  cases h

/-- The words from `i` on, `n` of them, when the line has them. -/
theorem wordsFrom_length {words : List Word} {i n : Nat} (h : i + n ≤ words.length) :
    (wordsFrom words i n).length = n := by
  simp only [wordsFrom, List.length_take, List.length_drop]
  omega

theorem wordsFrom_getElem? (words : List Word) (i n k : Nat) (h : k < n) :
    (wordsFrom words i n)[k]? = words[i + k]? := by
  simp [wordsFrom, h, List.getElem?_drop]

/-- The first entry that covers the pair gives the row (R27). -/
theorem rowLookup_eq_some_iff (p : Params) (c0 c1 : Code) (k : Fin 15) :
    rowLookup p c0 c1 = some k ↔
      ∃ before e after, p.rowTable.toList = before ++ e :: after ∧ rowCovers e c0 c1 = true ∧ e.row = k ∧
        ∀ e' ∈ before, rowCovers e' c0 c1 = false := by
  simp only [rowLookup, Option.map_eq_some_iff, List.find?_eq_some_iff_append]
  constructor
  · rintro ⟨e, ⟨he, before, after, heq, hb⟩, hk⟩
    exact ⟨before, e, after, heq, he, hk, fun e' h' => by simpa using hb e' h'⟩
  · rintro ⟨before, e, after, heq, he, hk, hb⟩
    exact ⟨e, ⟨he, before, after, heq, fun e' h' => by simpa using hb e' h'⟩, hk⟩

theorem rowLookup_eq_none_iff (p : Params) (c0 c1 : Code) :
    rowLookup p c0 c1 = none ↔ ∀ e ∈ p.rowTable.toList, rowCovers e c0 c1 = false := by
  simp [rowLookup]

end Sys2Proof.Machine
end

