-- ==== Sys2Proof/Laws/Cdp.lean ====
section
/-! SUPPORT. Sys2Proof/Laws/Cdp.lean: everything DECODE_CDP's shared operation can answer, and the records it builds. -/

namespace Sys2Proof.Machine

variable {p : Params} {pay : List Byte}

theorem ccUnits_length (cc : Nat) (h : 9 + 3 * cc ≤ pay.length) : (ccUnits pay cc h).length = cc := by
  simp [ccUnits]

theorem ccUnits_getElem? (cc : Nat) (h : 9 + 3 * cc ≤ pay.length) (i : Nat) (hi : i < cc) :
    (ccUnits pay cc h)[i]? =
      some (ccUnit (byteAt pay (9 + 3 * i) (by omega)) (byteAt pay (10 + 3 * i) (by omega))
        (byteAt pay (11 + 3 * i) (by omega))) := by
  simp [ccUnits, hi]

/-- The block's header does not fit (R153). -/
theorem decodeServiceInfo_header_short {s : Nat} (h : pay.length < s + 2) :
    decodeServiceInfo pay s = .error (.malformedCdp .short) := by
  rw [decodeServiceInfo, dif_neg (by omega)]

/-- The block's records do not fit (R154). -/
theorem decodeServiceInfo_records_short {s : Nat} {f : Byte} (hf : pay[s + 1]? = some f)
    (h : pay.length < s + 2 + 7 * (serviceCountOf f).toNat) :
    decodeServiceInfo pay s = .error (.malformedCdp .short) := by
  have hl := lt_of_getElem?_word hf
  rw [decodeServiceInfo, dif_pos (by omega)]
  simp only [byteAt_of_getElem? hl hf]
  rw [dif_neg (by omega)]

/-- The block fits: its record (R153, R154). -/
theorem decodeServiceInfo_fits {s : Nat} {m f : Byte} (hm : pay[s]? = some m) (hf : pay[s + 1]? = some f)
    (h : s + 2 + 7 * (serviceCountOf f).toNat ≤ pay.length) :
    decodeServiceInfo pay s =
      .ok ⟨m, bit f 7, bit f 6, bit f 5, bit f 4, serviceCountOf f,
        List.ofFn fun i : Fin (serviceCountOf f).toNat => serviceRecordAt pay (s + 2 + 7 * i) (by omega)⟩ := by
  have hl := lt_of_getElem?_word hf
  have hl0 := lt_of_getElem?_word hm
  obtain rfl := byteAt_of_getElem? hl hf
  obtain rfl := byteAt_of_getElem? hl0 hm
  rw [decodeServiceInfo, dif_pos (by omega), dif_pos h]

/-- The operand is too long (R42). -/
theorem decodeCdp_too_long (h : 255 < pay.length) :
    decodeCdp p pay = .error (.illegalCommand (encode .decodeCdp) (some .pay)) := by
  rw [decodeCdp, if_pos h]

/-- The header does not fit (R142). -/
theorem decodeCdp_header_short (h : pay.length < 9) : decodeCdp p pay = .error (.malformedCdp .short) := by
  rw [decodeCdp, if_neg (by omega), dif_pos h]

section Header

variable {m1 m2 len fr fl s1 s2 sec mc : Byte} {rest : List Byte}

/-- The header bytes of such a payload, at whatever proof of their range. -/
theorem byteAt_header (hp : pay = m1 :: m2 :: len :: fr :: fl :: s1 :: s2 :: sec :: mc :: rest) :
    (∀ h, byteAt pay 0 h = m1) ∧ (∀ h, byteAt pay 1 h = m2) ∧ (∀ h, byteAt pay 2 h = len) ∧
      (∀ h, byteAt pay 3 h = fr) ∧ (∀ h, byteAt pay 4 h = fl) ∧ (∀ h, byteAt pay 5 h = s1) ∧
      (∀ h, byteAt pay 6 h = s2) ∧ (∀ h, byteAt pay 7 h = sec) ∧ ∀ h, byteAt pay 8 h = mc := by
  subst hp
  exact ⟨fun _ => rfl, fun _ => rfl, fun _ => rfl, fun _ => rfl, fun _ => rfl, fun _ => rfl, fun _ => rfl, fun _ => rfl,
    fun _ => rfl⟩

theorem length_header (hp : pay = m1 :: m2 :: len :: fr :: fl :: s1 :: s2 :: sec :: mc :: rest) : 9 ≤ pay.length := by
  subst hp
  simp

/-- The markers differ (R143). -/
theorem decodeCdp_markers (hp : pay = m1 :: m2 :: len :: fr :: fl :: s1 :: s2 :: sec :: mc :: rest)
    (hl : pay.length ≤ 255) (hm : m1 ≠ p.cdpMarker1 ∨ m2 ≠ p.cdpMarker2) :
    decodeCdp p pay = .error (.malformedCdp .marker) := by
  have h9 := length_header hp
  obtain ⟨e0, e1, -⟩ := byteAt_header hp
  rw [decodeCdp, if_neg (by omega), dif_neg (by omega), if_pos (by simpa only [e0, e1] using hm)]

/-- The triplets do not fit (R149). -/
theorem decodeCdp_units_short (hp : pay = m1 :: m2 :: len :: fr :: fl :: s1 :: s2 :: sec :: mc :: rest)
    (hl : pay.length ≤ 255) (h1 : m1 = p.cdpMarker1) (h2 : m2 = p.cdpMarker2)
    (h : pay.length < 9 + 3 * (ccCountOf mc).toNat) : decodeCdp p pay = .error (.malformedCdp .short) := by
  have h9 := length_header hp
  obtain ⟨e0, e1, -, -, -, -, -, -, e8⟩ := byteAt_header hp
  rw [decodeCdp, if_neg (by omega), dif_neg (by omega), if_neg (by simp [e0, e1, h1, h2])]
  simp only [e8]
  rw [dif_neg (by omega)]

/-- The footer id differs (R151). -/
theorem decodeCdp_footer (hp : pay = m1 :: m2 :: len :: fr :: fl :: s1 :: s2 :: sec :: mc :: rest)
    (hl : pay.length ≤ 255) (h1 : m1 = p.cdpMarker1) (h2 : m2 = p.cdpMarker2)
    (h : 9 + 3 * (ccCountOf mc).toNat ≤ pay.length) (hf : pay[pay.length - 4]? ≠ some p.cdpFooterId) :
    decodeCdp p pay = .error (.malformedCdp .footer) := by
  have h9 := length_header hp
  obtain ⟨e0, e1, -, -, -, -, -, -, e8⟩ := byteAt_header hp
  have hf' : byteAt pay (pay.length - 4) (by omega) ≠ p.cdpFooterId := fun he =>
    hf (by rw [getElem?_byteAt (by omega : pay.length - 4 < pay.length), he])
  rw [decodeCdp, if_neg (by omega), dif_neg (by omega), if_neg (by simp [e0, e1, h1, h2])]
  simp only [e8]
  rw [dif_pos h, if_pos hf']

/-- Every check before the service-info block passes: the record, or the block's error (R141, R152). -/
theorem decodeCdp_passes (hp : pay = m1 :: m2 :: len :: fr :: fl :: s1 :: s2 :: sec :: mc :: rest)
    (hl : pay.length ≤ 255) (h1 : m1 = p.cdpMarker1) (h2 : m2 = p.cdpMarker2)
    (h : 9 + 3 * (ccCountOf mc).toNat ≤ pay.length) (hf : pay[pay.length - 4]? = some p.cdpFooterId) :
    decodeCdp p pay =
      match serviceInfoOf pay (cdpFlagsOf fl) (9 + 3 * (ccCountOf mc).toNat) with
      | .error e => .error e
      | .ok svc =>
        .ok { marker1 := m1, marker2 := m2, length := len, frameRate := frameRateOf fr, flags := cdpFlagsOf fl
              sequenceCounter := bigEndian s1 s2, sequenceCounterLegacy := none, sectionId := sec
              ccMarker := ccMarkerOf mc, ccCount := ccCountOf mc
              ccPackets := ccUnits pay (ccCountOf mc).toNat h, ccBound := ccUnits_bound pay mc h, footerId := p.cdpFooterId
              footerSequenceCounter :=
                bigEndian (byteAt pay (pay.length - 3) (by omega)) (byteAt pay (pay.length - 2) (by omega))
              serviceInfo := svc } := by
  have h9 := length_header hp
  obtain ⟨e0, e1, e2, e3, e4, e5, e6, e7, e8⟩ := byteAt_header hp
  have hf' := byteAt_of_getElem? (by omega) hf
  rw [decodeCdp, if_neg (by omega), dif_neg (by omega), if_neg (by simp [e0, e1, h1, h2])]
  simp only [e8]
  rw [dif_pos h, if_neg (by simp [hf'])]
  simp only [e0, e1, e2, e3, e4, e5, e6, e7, hf']
  all_goals (cases serviceInfoOf pay (cdpFlagsOf fl) (9 + 3 * (ccCountOf mc).toNat) <;> rfl)

end Header

/-- A payload of at least nine bytes is its nine header bytes and the rest. -/
theorem exists_header (h : 9 ≤ pay.length) :
    ∃ m1 m2 len fr fl s1 s2 sec mc rest, pay = m1 :: m2 :: len :: fr :: fl :: s1 :: s2 :: sec :: mc :: rest := by
  match pay, h with
  | m1 :: m2 :: len :: fr :: fl :: s1 :: s2 :: sec :: mc :: rest, _ =>
    exact ⟨m1, m2, len, fr, fl, s1, s2, sec, mc, rest, rfl⟩

/-- The block's only error is SHORT (R153, R154). -/
theorem serviceInfoOf_error {flags : CdpFlags} {o : Nat} {e : Status} (h : serviceInfoOf pay flags o = .error e) :
    e = .malformedCdp .short := by
  unfold serviceInfoOf decodeServiceInfo at h
  split at h
  · split at h
    · simp only at h
      split at h
      · cases h
      · cases h; rfl
    · cases h; rfl
  · cases h

/-- An error of DECODE_CDP is MalformedCdp, or IllegalCommand for the length of its operand. -/
theorem decodeCdp_error {e : Status} (h : decodeCdp p pay = .error e) :
    (255 < pay.length ∧ e = .illegalCommand (encode .decodeCdp) (some .pay)) ∨ ∃ r, e = .malformedCdp r := by
  by_cases hlong : 255 < pay.length
  · rw [decodeCdp_too_long hlong] at h; cases h; exact .inl ⟨hlong, rfl⟩
  by_cases hshort : pay.length < 9
  · rw [decodeCdp_header_short hshort] at h; cases h; exact .inr ⟨_, rfl⟩
  obtain ⟨m1, m2, len, fr, fl, s1, s2, sec, mc, rest, hp⟩ := exists_header (pay := pay) (by omega)
  by_cases hm : m1 ≠ p.cdpMarker1 ∨ m2 ≠ p.cdpMarker2
  · rw [decodeCdp_markers hp (by omega) hm] at h; cases h; exact .inr ⟨_, rfl⟩
  obtain ⟨h1, h2⟩ : m1 = p.cdpMarker1 ∧ m2 = p.cdpMarker2 := by simpa using hm
  by_cases hu : pay.length < 9 + 3 * (ccCountOf mc).toNat
  · rw [decodeCdp_units_short hp (by omega) h1 h2 hu] at h; cases h; exact .inr ⟨_, rfl⟩
  by_cases hf : pay[pay.length - 4]? = some p.cdpFooterId
  · rw [decodeCdp_passes hp (by omega) h1 h2 (by omega) hf] at h
    split at h
    · cases h; exact .inr ⟨_, serviceInfoOf_error ‹_›⟩
    · cases h
  · rw [decodeCdp_footer hp (by omega) h1 h2 (by omega) hf] at h; cases h; exact .inr ⟨_, rfl⟩

/-- An error of DECODE_CDP is neither OK nor TextOverflow. -/
theorem decodeCdp_error_ne {e : Status} (h : decodeCdp p pay = .error e) : e ≠ .ok ∧ e ≠ .textOverflow := by
  obtain ⟨-, rfl⟩ | ⟨r, rfl⟩ := decodeCdp_error h <;> simp

/-- What a decoded payload looked like: every check of R157 before the service-info block passed, and the record is built
from it. -/
theorem decodeCdp_ok {c : CdpPacket} (hc : decodeCdp p pay = .ok c) :
    ∃ len fr fl s1 s2 sec mc rest, ∃ h : 9 + 3 * (ccCountOf mc).toNat ≤ pay.length, ∃ svc,
      pay = p.cdpMarker1 :: p.cdpMarker2 :: len :: fr :: fl :: s1 :: s2 :: sec :: mc :: rest ∧ pay.length ≤ 255 ∧
      pay[pay.length - 4]? = some p.cdpFooterId ∧
      serviceInfoOf pay (cdpFlagsOf fl) (9 + 3 * (ccCountOf mc).toNat) = .ok svc ∧
      c = { marker1 := p.cdpMarker1, marker2 := p.cdpMarker2, length := len, frameRate := frameRateOf fr
            flags := cdpFlagsOf fl, sequenceCounter := bigEndian s1 s2, sequenceCounterLegacy := none, sectionId := sec
            ccMarker := ccMarkerOf mc, ccCount := ccCountOf mc
            ccPackets := ccUnits pay (ccCountOf mc).toNat h, ccBound := ccUnits_bound pay mc h, footerId := p.cdpFooterId
            footerSequenceCounter :=
              bigEndian (byteAt pay (pay.length - 3) (by omega)) (byteAt pay (pay.length - 2) (by omega))
            serviceInfo := svc } := by
  by_cases hlong : 255 < pay.length
  · rw [decodeCdp_too_long hlong] at hc; cases hc
  by_cases hshort : pay.length < 9
  · rw [decodeCdp_header_short hshort] at hc; cases hc
  obtain ⟨m1, m2, len, fr, fl, s1, s2, sec, mc, rest, hp⟩ := exists_header (pay := pay) (by omega)
  by_cases hm : m1 ≠ p.cdpMarker1 ∨ m2 ≠ p.cdpMarker2
  · rw [decodeCdp_markers hp (by omega) hm] at hc; cases hc
  obtain ⟨h1, h2⟩ : m1 = p.cdpMarker1 ∧ m2 = p.cdpMarker2 := by simpa using hm
  by_cases hu : pay.length < 9 + 3 * (ccCountOf mc).toNat
  · rw [decodeCdp_units_short hp (by omega) h1 h2 hu] at hc; cases hc
  by_cases hf : pay[pay.length - 4]? = some p.cdpFooterId
  · rw [decodeCdp_passes hp (by omega) h1 h2 (by omega) hf] at hc
    subst h1 h2
    refine ⟨len, fr, fl, s1, s2, sec, mc, rest, by omega, ?_⟩
    split at hc
    · cases hc
    · exact ⟨_, hp, by omega, hf, ‹_›, (Except.ok.inj hc).symm⟩
  · rw [decodeCdp_footer hp (by omega) h1 h2 (by omega) hf] at hc; cases hc

end Sys2Proof.Machine
end

