-- ==== Sys2Proof/Laws/Decode.lean ====
section
/-! SUPPORT. Sys2Proof/Laws/Decode.lean: the fields of a packed word, and the word of its fields. -/

namespace Sys2Proof

variable (op : BitVec 4) (wt : BitVec 2) (b0 b1 : Byte)

theorem pack_toNat : (pack op wt b0 b1).toNat =
    op.toNat + 16 * wt.toNat + 256 * b0.toNat + 65536 * b1.toNat := by
  have h0 := op.isLt; have h1 := wt.isLt; have h2 := b0.isLt; have h3 := b1.isLt
  simp only [pack, BitVec.toNat_append, Nat.shiftLeft_eq]
  rw [← Nat.shiftLeft_eq, ← Nat.shiftLeft_eq, ← Nat.shiftLeft_eq, ← Nat.shiftLeft_eq, ← Nat.shiftLeft_eq]
  rw [← Nat.shiftLeft_add_eq_or_of_lt (b := op.toNat) (by omega),
    ← Nat.shiftLeft_add_eq_or_of_lt (b := wt.toNat) (by omega),
    ← Nat.shiftLeft_add_eq_or_of_lt (b := (0#2).toNat) (by simp),
    ← Nat.shiftLeft_add_eq_or_of_lt (b := b0.toNat) (by omega),
    ← Nat.shiftLeft_add_eq_or_of_lt (b := b1.toNat) (by omega)]
  simp only [Nat.shiftLeft_eq, BitVec.toNat_ofNat]
  omega

@[simp] theorem opField_pack : opField (pack op wt b0 b1) = op := by
  have h0 := op.isLt
  apply BitVec.eq_of_toNat_eq
  simp only [opField, BitVec.extractLsb'_toNat, pack_toNat, Nat.shiftRight_eq_div_pow]; omega

@[simp] theorem wtField_pack : wtField (pack op wt b0 b1) = wt := by
  have h0 := op.isLt; have h1 := wt.isLt
  apply BitVec.eq_of_toNat_eq
  simp only [wtField, BitVec.extractLsb'_toNat, pack_toNat, Nat.shiftRight_eq_div_pow]; omega

@[simp] theorem b0Field_pack : b0Field (pack op wt b0 b1) = b0 := by
  have h0 := op.isLt; have h1 := wt.isLt; have h2 := b0.isLt
  apply BitVec.eq_of_toNat_eq
  simp only [b0Field, BitVec.extractLsb'_toNat, pack_toNat, Nat.shiftRight_eq_div_pow]; omega

@[simp] theorem b1Field_pack : b1Field (pack op wt b0 b1) = b1 := by
  have h0 := op.isLt; have h1 := wt.isLt; have h2 := b0.isLt; have h3 := b1.isLt
  apply BitVec.eq_of_toNat_eq
  simp only [b1Field, BitVec.extractLsb'_toNat, pack_toNat, Nat.shiftRight_eq_div_pow]; omega

@[simp] theorem reservedLow_pack : reservedLow (pack op wt b0 b1) = 0 := by
  have h0 := op.isLt; have h1 := wt.isLt
  apply BitVec.eq_of_toNat_eq
  simp only [reservedLow, BitVec.extractLsb'_toNat, pack_toNat, Nat.shiftRight_eq_div_pow, BitVec.ofNat_eq_ofNat, BitVec.toNat_ofNat]; omega

@[simp] theorem reservedHigh_pack : reservedHigh (pack op wt b0 b1) = 0 := by
  have h0 := op.isLt; have h1 := wt.isLt; have h2 := b0.isLt; have h3 := b1.isLt
  apply BitVec.eq_of_toNat_eq
  simp only [reservedHigh, BitVec.extractLsb'_toNat, pack_toNat, Nat.shiftRight_eq_div_pow, BitVec.ofNat_eq_ofNat, BitVec.toNat_ofNat]; omega

/-- A word whose reserved bits are 0 is packed from its fields. -/
theorem pack_fields (w : CmdWord) (hl : reservedLow w = 0) (hh : reservedHigh w = 0) :
    pack (opField w) (wtField w) (b0Field w) (b1Field w) = w := by
  have h := w.isLt
  have hl' := congrArg BitVec.toNat hl
  have hh' := congrArg BitVec.toNat hh
  apply BitVec.eq_of_toNat_eq
  simp only [pack_toNat, opField, wtField, b0Field, b1Field, reservedLow, reservedHigh, BitVec.extractLsb'_toNat,
    BitVec.ofNat_eq_ofNat, Nat.shiftRight_eq_div_pow, BitVec.toNat_ofNat] at hl' hh' ⊢
  omega

/-! The fields of a masked word. -/

theorem opField_and (w m : CmdWord) : opField (w &&& m) = opField w &&& opField m := BitVec.extractLsb'_and ..

theorem wtField_and (w m : CmdWord) : wtField (w &&& m) = wtField w &&& wtField m := BitVec.extractLsb'_and ..

theorem reservedLow_and (w m : CmdWord) : reservedLow (w &&& m) = reservedLow w &&& reservedLow m := BitVec.extractLsb'_and ..

theorem b0Field_and (w m : CmdWord) : b0Field (w &&& m) = b0Field w &&& b0Field m := BitVec.extractLsb'_and ..

theorem b1Field_and (w m : CmdWord) : b1Field (w &&& m) = b1Field w &&& b1Field m := BitVec.extractLsb'_and ..

theorem reservedHigh_and (w m : CmdWord) : reservedHigh (w &&& m) = reservedHigh w &&& reservedHigh m := BitVec.extractLsb'_and ..

@[simp] theorem packetTypeOf_code (t : PacketType) : packetTypeOf (packetTypeCode t) = t := by cases t <;> rfl

@[simp] theorem packetTypeCode_of (c : BitVec 2) : packetTypeCode (packetTypeOf c) = c := by
  revert c; decide

end Sys2Proof
end

