-- ==== Sys2Proof/Laws/Eia608.lean ====
section
/-! SUPPORT. Sys2Proof/Laws/Eia608.lean: what each step of the state machine does, and everything FEED_PAIR's shared
operation can answer. -/

namespace Sys2Proof.Machine

@[simp] theorem FeedStep.quiet_capt (c : CaptionLineState) (d : Nat) : (FeedStep.quiet c d).capt = c := rfl
@[simp] theorem FeedStep.quiet_draws (c : CaptionLineState) (d : Nat) : (FeedStep.quiet c d).draws = d := rfl
@[simp] theorem FeedStep.quiet_result (c : CaptionLineState) (d : Nat) :
    (FeedStep.quiet c d).result = .ok ⟨false, none⟩ := rfl

theorem isPrintable_iff (c : Code) : isPrintable c = true ↔ 0x20 ≤ c.toNat := by
  simp [isPrintable, BitVec.le_def]

theorem pairClass_printable {c0 : Code} (h : 0x20 ≤ c0.toNat) : pairClass c0 = .printable := by
  rw [pairClass, if_pos ((isPrintable_iff c0).2 h)]

theorem pairClass_control1 {c0 : Code} (h : 0x10 ≤ c0.toNat) (h' : c0.toNat ≤ 0x14) : pairClass c0 = .control1 := by
  rw [pairClass, if_neg (by rw [isPrintable_iff]; omega), if_pos]
  simp only [BitVec.le_def]
  exact ⟨h, h'⟩

theorem pairClass_control2 {c0 : Code} (h : 0x18 ≤ c0.toNat) (h' : c0.toNat ≤ 0x1F) : pairClass c0 = .control2 := by
  rw [pairClass, if_neg (by rw [isPrintable_iff]; omega), if_neg, if_pos]
  · simp only [BitVec.le_def]
    exact h
  · simp only [BitVec.le_def, BitVec.ofNat_eq_ofNat, BitVec.toNat_ofNat]
    omega

theorem pairClass_other {c0 : Code} (h : c0.toNat < 0x10 ∨ (0x15 ≤ c0.toNat ∧ c0.toNat ≤ 0x17)) :
    pairClass c0 = .other := by
  rw [pairClass, if_neg (by rw [isPrintable_iff]; omega), if_neg, if_neg]
  all_goals
    simp only [BitVec.le_def, BitVec.ofNat_eq_ofNat, BitVec.toNat_ofNat]
    omega

/-- The class of a code by its number, the four classes of R203. -/
theorem pairClass_iff (c0 : Code) :
    (pairClass c0 = .printable ↔ 0x20 ≤ c0.toNat) ∧
      (pairClass c0 = .control1 ↔ 0x10 ≤ c0.toNat ∧ c0.toNat ≤ 0x14) ∧
      (pairClass c0 = .control2 ↔ 0x18 ≤ c0.toNat ∧ c0.toNat ≤ 0x1F) ∧
      (pairClass c0 = .other ↔ c0.toNat < 0x10 ∨ (0x15 ≤ c0.toNat ∧ c0.toNat ≤ 0x17)) := by
  by_cases h1 : 0x20 ≤ c0.toNat
  · rw [pairClass_printable h1]; simp only [reduceCtorEq, true_iff, false_iff]; omega
  by_cases h2 : 0x10 ≤ c0.toNat ∧ c0.toNat ≤ 0x14
  · rw [pairClass_control1 h2.1 h2.2]; simp only [reduceCtorEq, true_iff, false_iff]; omega
  by_cases h3 : 0x18 ≤ c0.toNat
  · rw [pairClass_control2 h3 (by omega)]; simp only [reduceCtorEq, true_iff, false_iff]; omega
  · rw [pairClass_other (by omega)]; simp only [reduceCtorEq, true_iff, false_iff]; omega

theorem isSpacing_iff (c0 c1 : Code) :
    isSpacing c0 c1 = true ↔
      (c0.toNat = 0x11 ∧ 0x20 ≤ c1.toNat ∧ c1.toNat ≤ 0x2F) ∨ (c0.toNat = 0x14 ∧ c1.toNat = 0x28) := by
  simp only [isSpacing, Bool.or_eq_true, Bool.and_eq_true, beq_iff_eq, decide_eq_true_eq, BitVec.le_def,
    BitVec.toNat_eq, BitVec.ofNat_eq_ofNat, BitVec.toNat_ofNat, Nat.reducePow, Nat.reduceMod, and_assoc]

theorem isFlushCode_iff (c0 c1 : Code) :
    isFlushCode c0 c1 = true ↔
      c0.toNat = 0x14 ∧
        (c1.toNat = 0x20 ∨ c1.toNat = 0x2C ∨ c1.toNat = 0x2D ∨ c1.toNat = 0x2E ∨ c1.toNat = 0x2F) := by
  simp [isFlushCode, BitVec.toNat_eq]

/-- What a flush does to the registers (R216). -/
theorem flush_capt (c : CaptionLineState) (d : Nat) (t : Time) :
    (flush c d t).1 = { c with accumulatedText := [], lineStartTime := t } := by
  unfold flush
  simp only
  split <;> rfl

/-- A flush of a text that trims to nothing emits nothing and draws nothing (R216, "EmptyLine"). -/
theorem flush_empty {c : CaptionLineState} {d : Nat} {t : Time} (h : trim c.accumulatedText = []) :
    (flush c d t).2 = (d, none) := by
  simp [flush, h]

/-- A flush of any other text emits the trimmed text with the stamp of the old start time (R216, R219). -/
theorem flush_emits {c : CaptionLineState} {d : Nat} {t : Time} (h : trim c.accumulatedText ≠ []) :
    (flush c d t).2 = ((stamp c.lineStartTime d).2, some ⟨trim c.accumulatedText, (stamp c.lineStartTime d).1⟩) := by
  have : (trim c.accumulatedText).isEmpty = false := by simpa using h
  simp [flush, this]

/-- An append that has room (R215). -/
theorem append_fits {p : Params} {before c : CaptionLineState} {d : Nat} {codes : List Code}
    (h : withinCap p (c.accumulatedText.length + codes.length) = true) :
    append p before c d codes = .quiet { c with accumulatedText := c.accumulatedText ++ codes } d := by
  rw [append, if_pos h]

/-- An append that has none: a fault that sets the overflow bit alone (R215). -/
theorem append_overflows {p : Params} {before c : CaptionLineState} {d : Nat} {codes : List Code}
    (h : withinCap p (c.accumulatedText.length + codes.length) = false) :
    append p before c d codes = ⟨{ before with overflow := true }, d, .error .textOverflow⟩ := by
  rw [append, if_neg (by simp [h])]

section Feed

variable {p : Params} {c : CaptionLineState} {d : Nat} {b0 b1 : Byte} {t : Time}

/-- While the overflow bit is set (R272). -/
theorem feedPair_overflow (h : c.overflow = true) :
    feedPair p c d b0 b1 t = ⟨c, d, .error .textOverflow⟩ := by
  rw [feedPair, if_pos h]

/-- The null filler (R201). -/
theorem feedPair_null (h : c.overflow = false) (hn : b0 = 0x80 ∧ b1 = 0x80) :
    feedPair p c d b0 b1 t = .quiet c d := by
  rw [feedPair, if_neg (by simp [h]), if_pos hn]

/-- Any other pair goes by the class of its first code (R203). -/
theorem feedPair_live (h : c.overflow = false) (hn : ¬ (b0 = 0x80 ∧ b1 = 0x80)) :
    feedPair p c d b0 b1 t =
      match pairClass (deparity p b0) with
      | .printable => feedPrintable p c d (deparity p b0) (deparity p b1)
      | .control1 => feedControl1 p c d (deparity p b0) (deparity p b1) t
      | .control2 => .quiet { c with activeChannel := .ch2 } d
      | .other => .quiet c d := by
  rw [feedPair, if_neg (by simp [h]), if_neg hn]
  all_goals rfl

end Feed

section Control1

variable {p : Params} {c : CaptionLineState} {d : Nat} {c0 c1 : Code} {t : Time}

/-- A duplicate (R206, R207). -/
theorem feedControl1_duplicate (h : c.lastControlPair = (c0, c1)) :
    feedControl1 p c d c0 c1 t = .quiet { c with activeChannel := .ch1 } d := by
  rw [feedControl1, if_pos h.symm]

/-- Mid-row or Flash-On (R208). -/
theorem feedControl1_spacing (h : c.lastControlPair ≠ (c0, c1)) (hs : isSpacing c0 c1 = true) :
    feedControl1 p c d c0 c1 t =
      append p c { c with activeChannel := .ch1, lastControlPair := (c0, c1) } d [0x20] := by
  rw [feedControl1, if_neg (Ne.symm h), if_pos hs]

/-- An explicit flush code (R209, R210). -/
theorem feedControl1_flush (h : c.lastControlPair ≠ (c0, c1)) (hs : isSpacing c0 c1 = false)
    (hf : isFlushCode c0 c1 = true) :
    feedControl1 p c d c0 c1 t =
      ⟨{ c with activeChannel := .ch1, lastControlPair := (c0, c1), accumulatedText := [], lineStartTime := t
                trackedRow := if c1 = 0x2E then -1 else c.trackedRow },
        (flush c d t).2.1, .ok ⟨true, (flush c d t).2.2⟩⟩ := by
  have hfl : (flush { c with activeChannel := .ch1, lastControlPair := (c0, c1) } d t).2 = (flush c d t).2 := by
    unfold flush
    simp only
    split <;> rfl
  rw [feedControl1, if_neg (Ne.symm h), if_neg (by simp [hs]), if_pos hf]
  simp only [flush_capt, hfl]
  split <;> rfl

/-- No row, or the tracked row (R211, R212). -/
theorem feedControl1_other (h : c.lastControlPair ≠ (c0, c1)) (hs : isSpacing c0 c1 = false)
    (hf : isFlushCode c0 c1 = false)
    (hr : rowLookup p c0 c1 = none ∨ ∃ k, rowLookup p c0 c1 = some k ∧ (k.val : Int) = c.trackedRow) :
    feedControl1 p c d c0 c1 t = .quiet { c with activeChannel := .ch1, lastControlPair := (c0, c1) } d := by
  rw [feedControl1, if_neg (Ne.symm h), if_neg (by simp [hs]), if_neg (by simp [hf])]
  obtain hr | ⟨k, hr, hk⟩ := hr
  · simp only [hr]
  · simp only [hr, hk, if_true]

/-- Another row (R211). -/
theorem feedControl1_row {k : Fin 15} (h : c.lastControlPair ≠ (c0, c1)) (hs : isSpacing c0 c1 = false)
    (hf : isFlushCode c0 c1 = false) (hr : rowLookup p c0 c1 = some k) (hk : (k.val : Int) ≠ c.trackedRow) :
    feedControl1 p c d c0 c1 t =
      ⟨{ c with activeChannel := .ch1, lastControlPair := (c0, c1), accumulatedText := [], lineStartTime := t
                trackedRow := (k.val : Int) },
        (flush c d t).2.1, .ok ⟨true, (flush c d t).2.2⟩⟩ := by
  have hfl : (flush { c with activeChannel := .ch1, lastControlPair := (c0, c1) } d t).2 = (flush c d t).2 := by
    unfold flush
    simp only
    split <;> rfl
  rw [feedControl1, if_neg (Ne.symm h), if_neg (by simp [hs]), if_neg (by simp [hf])]
  simp only [hr, flush_capt, hfl]
  rw [if_neg hk]

/-- Everything a channel-1 control pair can do (R206 to R212). -/
theorem feedControl1_cases (p : Params) (c : CaptionLineState) (d : Nat) (c0 c1 : Code) (t : Time) :
    feedControl1 p c d c0 c1 t = .quiet { c with activeChannel := .ch1 } d ∨
      feedControl1 p c d c0 c1 t = .quiet { c with activeChannel := .ch1, lastControlPair := (c0, c1) } d ∨
      feedControl1 p c d c0 c1 t = append p c { c with activeChannel := .ch1, lastControlPair := (c0, c1) } d [0x20] ∨
      ∃ row d' line,
        (row = c.trackedRow ∨ row = -1 ∨ ∃ k, rowLookup p c0 c1 = some k ∧ row = (k.val : Int)) ∧
        feedControl1 p c d c0 c1 t =
          ⟨{ c with activeChannel := .ch1, lastControlPair := (c0, c1), accumulatedText := [], lineStartTime := t
                    trackedRow := row }, d', .ok ⟨true, line⟩⟩ := by
  by_cases h : c.lastControlPair = (c0, c1)
  · exact .inl (feedControl1_duplicate h)
  cases hs : isSpacing c0 c1
  · cases hf : isFlushCode c0 c1
    · cases hr : rowLookup p c0 c1 with
      | none => exact .inr (.inl (feedControl1_other h hs hf (.inl hr)))
      | some k =>
        by_cases hk : (k.val : Int) = c.trackedRow
        · exact .inr (.inl (feedControl1_other h hs hf (.inr ⟨k, hr, hk⟩)))
        · exact .inr (.inr (.inr ⟨_, _, _, .inr (.inr ⟨k, rfl, rfl⟩), feedControl1_row h hs hf hr hk⟩))
    · refine .inr (.inr (.inr ⟨_, _, _, ?_, feedControl1_flush h hs hf⟩))
      split
      · exact .inr (.inl rfl)
      · exact .inl rfl
  · exact .inr (.inr (.inl (feedControl1_spacing h hs)))

end Control1

/-- Everything FEED_PAIR can do to the registers, with its answer: it is turned away or overflows, it changes nothing, it
sets the channel, it takes a control pair, it appends, or it flushes. -/
theorem feedPair_cases (p : Params) (c : CaptionLineState) (d : Nat) (b0 b1 : Byte) (t : Time) :
    (c.overflow = true ∧ feedPair p c d b0 b1 t = ⟨c, d, .error .textOverflow⟩) ∨
    (c.overflow = false ∧
      (feedPair p c d b0 b1 t = .quiet c d ∨
        (pairClass (deparity p b0) = .control2 ∧
          feedPair p c d b0 b1 t = .quiet { c with activeChannel := .ch2 } d) ∨
        (pairClass (deparity p b0) = .printable ∧ c.activeChannel = .ch1 ∧
          feedPair p c d b0 b1 t =
            append p c c d
              (if isPrintable (deparity p b1) then [deparity p b0, deparity p b1] else [deparity p b0])) ∨
        (pairClass (deparity p b0) = .control1 ∧
          feedPair p c d b0 b1 t = feedControl1 p c d (deparity p b0) (deparity p b1) t))) := by
  by_cases ho : c.overflow = true
  · exact .inl ⟨ho, feedPair_overflow ho⟩
  have ho : c.overflow = false := by simpa using ho
  refine .inr ⟨ho, ?_⟩
  by_cases hn : b0 = 0x80 ∧ b1 = 0x80
  · exact .inl (feedPair_null ho hn)
  have hl := feedPair_live (p := p) (d := d) (t := t) ho hn
  cases hc : pairClass (deparity p b0) <;> simp only [hc] at hl
  · by_cases hch : c.activeChannel = .ch1
    · exact .inr (.inr (.inl ⟨rfl, hch, by rw [hl, feedPrintable]; simp only [hch]⟩))
    · have hch : c.activeChannel = .ch2 := by cases h : c.activeChannel <;> simp_all
      exact .inl (by rw [hl, feedPrintable]; simp only [hch])
  · exact .inr (.inr (.inr ⟨rfl, hl⟩))
  · exact .inr (.inl ⟨rfl, hl⟩)
  · exact .inl hl

end Sys2Proof.Machine
end

