-- ==== Sys2Proof/Laws/Locator.lean ====
section
/-! SUPPORT. Sys2Proof/Laws/Locator.lean: what the two predicates and the scan of the locator say. -/

namespace Sys2Proof.Machine

/-- `IsAdf` on the words themselves (R100). -/
theorem isAdf_iff (words : List Word) (i : Nat) :
    isAdf words i = true ↔ words[i]? = some 0x000 ∧ words[i + 1]? = some 0x3FF ∧ words[i + 2]? = some 0x3FF := by
  unfold isAdf
  split
  case isTrue h =>
    rw [getElem?_wordAt (by omega : i < words.length), getElem?_wordAt (by omega : i + 1 < words.length),
      getElem?_wordAt h]
    simp [and_assoc]
  case isFalse h =>
    simp only [Bool.false_eq_true, false_iff]
    rintro ⟨_, _, h2⟩
    exact h (lt_of_getElem?_word h2)

/-- `IsCcHeader` on the words themselves (R102). -/
theorem isCcHeader_iff (p : Params) (words : List Word) (i : Nat) :
    isCcHeader p words i = true ↔
      isAdf words i = true ∧ words[i + 3]? = some p.ccDid10 ∧ words[i + 4]? = some p.ccSdid10 := by
  unfold isCcHeader
  rw [Bool.and_eq_true]
  refine and_congr_right fun _ => ?_
  split
  case isTrue h =>
    rw [getElem?_wordAt (by omega : i + 3 < words.length), getElem?_wordAt h]
    simp
  case isFalse h =>
    simp only [Bool.false_eq_true, false_iff]
    rintro ⟨_, h2⟩
    exact h (lt_of_getElem?_word h2)

/-- The scan finds an index exactly when the test accepts it and no earlier one. -/
theorem firstIndex_eq_some_iff (words : List Word) (test : Nat → Bool) (i : Nat) :
    firstIndex words test = some i ↔ i < words.length ∧ test i = true ∧ ∀ j < i, test j = false := by
  simp only [firstIndex, List.find?_range_eq_some, List.mem_range]
  constructor
  · rintro ⟨h1, h2, h3⟩
    exact ⟨h2, h1, fun j hj => by simpa using h3 j hj⟩
  · rintro ⟨h1, h2, h3⟩
    exact ⟨h2, h1, fun j hj => by simpa using h3 j hj⟩

/-- The scan finds nothing exactly when the test accepts no index of the line. -/
theorem firstIndex_eq_none_iff (words : List Word) (test : Nat → Bool) :
    firstIndex words test = none ↔ ∀ i < words.length, test i = false := by
  simp [firstIndex]

/-- The answer of a scan writes the response alone. -/
theorem answerScan_eq (s : State) (found : Option Nat) :
    ∃ st, answerScan s found = s.answer st (.adf found) ∧ (st = .ok ↔ found.isSome = true) ∧
      (st = .noPacketFound ↔ found = none) := by
  cases found with
  | none => exact ⟨.noPacketFound, rfl, by simp, by simp⟩
  | some i => exact ⟨.ok, rfl, by simp, by simp⟩

end Sys2Proof.Machine
end

