-- ==== Sys2Proof/Laws/PerInstr.lean ====
section
/-! SUPPORT. Sys2Proof/Laws/PerInstr.lean: statements about every command as syntax, one lemma per constructor. -/

namespace Sys2Proof.Laws.TableRow

/-- The command's word has the fixed bits of the row of spec/opcode_table.json that bears its mnemonic. -/
def Statement (i : Instr) : Prop :=
  ∃ row ∈ opcodeRows, row.mnemonic = mnemonic i ∧ encode i &&& row.mask = row.value

theorem nop : Statement .nop := by unfold Statement; decide
theorem findAdf : Statement .findAdf := by unfold Statement; decide
theorem findCc : Statement .findCc := by unfold Statement; decide
theorem decodeVanc : Statement .decodeVanc := by unfold Statement; decide
theorem decodeCdp : Statement .decodeCdp := by unfold Statement; decide
theorem selectPair (wt : PacketType) : Statement (.selectPair wt) := by cases wt <;> (unfold Statement; decide)
theorem processLine (wt : PacketType) : Statement (.processLine wt) := by cases wt <;> (unfold Statement; decide)

theorem feedPair (b0 b1 : Byte) : Statement (.feedPair b0 b1) := by
  refine ⟨⟨"FEED_PAIR", 0x00000006, 0xFF0000FF⟩, by simp [opcodeRows], rfl, ?_⟩
  ext k hk
  simp only [encode, pack, BitVec.getElem_and, BitVec.getElem_append]
  interval_cases k <;> simp

end Sys2Proof.Laws.TableRow
end

