-- ==== Sys2Proof/Laws/Vanc.lean ====
section
/-! SUPPORT. Sys2Proof/Laws/Vanc.lean: everything DECODE_VANC's shared operation can answer. -/

namespace Sys2Proof.Machine

variable {p : Params} {words : List Word} {a : Nat}

/-- The header does not fit (R122). -/
theorem decodeVanc_header_short (h : words.length < a + 6) :
    decodeVanc p words a = .error (.truncatedPacket (a + 6) words.length) := by
  rw [decodeVanc, dif_neg (by omega)]

/-- The packet does not fit (R122). -/
theorem decodeVanc_packet_short {dc : Word} (hdc : words[a + 5]? = some dc)
    (h : words.length < a + 7 + dc.toNat % 256) :
    decodeVanc p words a = .error (.truncatedPacket (a + 7 + dc.toNat % 256) words.length) := by
  have h5 := lt_of_getElem?_word hdc
  rw [decodeVanc, dif_pos (by omega)]
  simp only [wordAt_of_getElem? h5 hdc, lowByte_toNat]
  rw [dif_neg (by omega)]

/-- The packet fits: its record, or a mismatch of the checksum when that is verified (R121, R125). -/
theorem decodeVanc_fits {did sdid dc cs : Word} (h3 : words[a + 3]? = some did) (h4 : words[a + 4]? = some sdid)
    (h5 : words[a + 5]? = some dc) (h6 : words[a + 6 + dc.toNat % 256]? = some cs) :
    decodeVanc p words a =
      if p.verifyChecksum = true ∧ cs ≠ ancChecksum words a (dc.toNat % 256) then
        .error (.checksumMismatch (ancChecksum words a (dc.toNat % 256)) cs)
      else
        .ok ⟨lowByte did, lowByte sdid, lowByte dc, (wordsFrom words (a + 6) (dc.toNat % 256)).map lowByte,
          cs.zeroExtend 16⟩ := by
  have l6 := lt_of_getElem?_word h6
  have l3 := lt_of_getElem?_word h3
  have l4 := lt_of_getElem?_word h4
  have l5 := lt_of_getElem?_word h5
  rw [decodeVanc, dif_pos (by omega)]
  simp only [wordAt_of_getElem? l3 h3, wordAt_of_getElem? l4 h4, wordAt_of_getElem? l5 h5, lowByte_toNat]
  rw [dif_pos (by omega)]
  simp only [wordAt_of_getElem? l6 h6]

/-- A line on which the header and the packet fit holds the words they name. -/
theorem exists_packet_words {dc : Word} (hdc : words[a + 5]? = some dc)
    (h : a + 7 + dc.toNat % 256 ≤ words.length) :
    ∃ did sdid cs, words[a + 3]? = some did ∧ words[a + 4]? = some sdid ∧
      words[a + 6 + dc.toNat % 256]? = some cs :=
  have hlt := lt_of_getElem?_word hdc
  ⟨_, _, _, getElem?_wordAt (by omega), getElem?_wordAt (by omega), getElem?_wordAt (by omega)⟩

/-- Everything `decodeVanc` can answer. -/
theorem decodeVanc_cases (p : Params) (words : List Word) (a : Nat) :
    (words.length < a + 6 ∧ decodeVanc p words a = .error (.truncatedPacket (a + 6) words.length)) ∨
      ∃ dc, words[a + 5]? = some dc ∧
        ((words.length < a + 7 + dc.toNat % 256 ∧
            decodeVanc p words a = .error (.truncatedPacket (a + 7 + dc.toNat % 256) words.length)) ∨
          ∃ did sdid cs, words[a + 3]? = some did ∧ words[a + 4]? = some sdid ∧
            words[a + 6 + dc.toNat % 256]? = some cs ∧
            ((p.verifyChecksum = true ∧ cs ≠ ancChecksum words a (dc.toNat % 256) ∧
                decodeVanc p words a = .error (.checksumMismatch (ancChecksum words a (dc.toNat % 256)) cs)) ∨
              ((p.verifyChecksum = false ∨ cs = ancChecksum words a (dc.toNat % 256)) ∧
                decodeVanc p words a =
                  .ok ⟨lowByte did, lowByte sdid, lowByte dc,
                    (wordsFrom words (a + 6) (dc.toNat % 256)).map lowByte, cs.zeroExtend 16⟩))) := by
  by_cases hh : words.length < a + 6
  · exact .inl ⟨hh, decodeVanc_header_short hh⟩
  refine .inr ⟨_, getElem?_wordAt (by omega), ?_⟩
  generalize hdc : wordAt words (a + 5) (by omega) = dc
  have h5 : words[a + 5]? = some dc := by rw [← hdc]; exact getElem?_wordAt _
  by_cases hp : words.length < a + 7 + dc.toNat % 256
  · exact .inl ⟨hp, decodeVanc_packet_short h5 hp⟩
  obtain ⟨did, sdid, cs, h3, h4, h6⟩ := exists_packet_words h5 (by omega)
  refine .inr ⟨did, sdid, cs, h3, h4, h6, ?_⟩
  have he := decodeVanc_fits (p := p) h3 h4 h5 h6
  by_cases hv : p.verifyChecksum = true ∧ cs ≠ ancChecksum words a (dc.toNat % 256)
  · rw [if_pos hv] at he
    exact .inl ⟨hv.1, hv.2, he⟩
  · rw [if_neg hv] at he
    refine .inr ⟨?_, he⟩
    cases hb : p.verifyChecksum
    · exact .inl rfl
    · exact .inr (by_contra fun hne => hv ⟨hb, hne⟩)

/-- An error of DECODE_VANC is neither OK nor TextOverflow. -/
theorem decodeVanc_error_ne {e : Status} (h : decodeVanc p words a = .error e) : e ≠ .ok ∧ e ≠ .textOverflow := by
  obtain ⟨-, h'⟩ | ⟨dc, -, ⟨-, h'⟩ | ⟨_, _, cs, -, -, -, ⟨-, -, h'⟩ | ⟨-, h'⟩⟩⟩ := decodeVanc_cases p words a <;>
    rw [h'] at h <;> cases h <;> simp

/-- The payload of a decoded packet is within what DECODE_CDP takes (R42, R240). -/
theorem decodeVanc_payload_le {v : VancPacket} (h : decodeVanc p words a = .ok v) : v.payload.length ≤ 255 := by
  obtain ⟨-, h'⟩ | ⟨dc, -, ⟨-, h'⟩ | ⟨_, _, cs, -, -, -, ⟨-, -, h'⟩ | ⟨-, h'⟩⟩⟩ := decodeVanc_cases p words a <;>
    rw [h'] at h <;> cases h
  have : dc.toNat % 256 < 256 := Nat.mod_lt _ (by omega)
  simp [wordsFrom]
  omega

end Sys2Proof.Machine
end

