-- ==== Sys2Proof/Laws/Pipeline.lean ====
section
/-! SUPPORT. Sys2Proof/Laws/Pipeline.lean: what FEED_PAIR answers, everything PROCESS_LINE's shared operation can do to the
registers, and exec's answers in terms of the shared operations. -/

namespace Sys2Proof.Machine

/-- FEED_PAIR's only error is TextOverflow, and it leaves the registers but for the overflow bit (R11, R215, R272). -/
theorem feedPair_error {p : Params} {c : CaptionLineState} {d : Nat} {b0 b1 : Byte} {t : Time} {e : Status}
    (h : (feedPair p c d b0 b1 t).result = .error e) :
    e = .textOverflow ∧ (feedPair p c d b0 b1 t).capt = { c with overflow := true } ∧
      (feedPair p c d b0 b1 t).draws = d := by
  have happ : ∀ c' codes, (append p c c' d codes).result = .error e →
      e = .textOverflow ∧ (append p c c' d codes).capt = { c with overflow := true } ∧
        (append p c c' d codes).draws = d := by
    intro c' codes h
    unfold append at h ⊢
    split at h
    · cases h
    · rw [if_neg ‹_›]
      exact ⟨(Except.error.inj h).symm, rfl, rfl⟩
  obtain ⟨ho, hf⟩ | ⟨-, hf | ⟨-, hf⟩ | ⟨-, -, hf⟩ | ⟨-, hf⟩⟩ := feedPair_cases p c d b0 b1 t
  · rw [hf] at h ⊢
    exact ⟨(Except.error.inj h).symm, by rw [← ho], rfl⟩
  · rw [hf] at h
    cases h
  · rw [hf] at h
    cases h
  · rw [hf] at h ⊢
    exact happ _ _ h
  · rw [hf] at h ⊢
    obtain hc | hc | hc | ⟨row, d', line, -, hc⟩ := feedControl1_cases p c d (deparity p b0) (deparity p b1) t
    · rw [hc] at h
      cases h
    · rw [hc] at h
      cases h
    · rw [hc] at h ⊢
      exact happ _ _ h
    · rw [hc] at h
      cases h

/-- The last stages leave the registers, or do to them what FEED_PAIR of the selected pair does (R240, R242). -/
theorem selectAndFeed_registers (p : Params) (c : CaptionLineState) (d : Nat) (k : CdpPacket) (wt : PacketType) (t : Time)
    (done : PipelineResult) :
    ((selectAndFeed p c d k wt t done).capt = c ∧ (selectAndFeed p c d k wt t done).draws = d ∧
        (selectAndFeed p c d k wt t done).status = .ok) ∨
      ∃ b0 b1, (selectAndFeed p c d k wt t done).capt = (feedPair p c d b0 b1 t).capt ∧
        (selectAndFeed p c d k wt t done).draws = (feedPair p c d b0 b1 t).draws ∧
        (((selectAndFeed p c d k wt t done).status = .ok ∧ ∃ f, (feedPair p c d b0 b1 t).result = .ok f) ∨
          (feedPair p c d b0 b1 t).result = .error (selectAndFeed p c d k wt t done).status) := by
  unfold selectAndFeed
  split
  · exact .inl ⟨rfl, rfl, rfl⟩
  · rename_i d1 d2 _
    right
    refine ⟨d1, d2, ?_⟩
    simp only
    split
    · exact ⟨rfl, rfl, .inr ‹_›⟩
    · exact ⟨rfl, rfl, .inl ⟨rfl, _, ‹_›⟩⟩

/-- PROCESS_LINE leaves the registers, or does to them what FEED_PAIR of some pair does, and then answers as it does
(R240, R241, R242). -/
theorem processLine_registers (p : Params) (c : CaptionLineState) (d : Nat) (words : List Word) (t : Time)
    (wt : PacketType) :
    ((processLine p c d words t wt).capt = c ∧ (processLine p c d words t wt).draws = d ∧
        (processLine p c d words t wt).status ≠ .textOverflow) ∨
      ∃ b0 b1, (processLine p c d words t wt).capt = (feedPair p c d b0 b1 t).capt ∧
        (processLine p c d words t wt).draws = (feedPair p c d b0 b1 t).draws ∧
        (((processLine p c d words t wt).status = .ok ∧ ∃ f, (feedPair p c d b0 b1 t).result = .ok f) ∨
          (feedPair p c d b0 b1 t).result = .error (processLine p c d words t wt).status) := by
  unfold processLine
  split
  · exact .inl ⟨rfl, rfl, by simp⟩
  · simp only
    split
    · exact .inl ⟨rfl, rfl, (decodeVanc_error_ne ‹_›).2⟩
    · split
      · exact .inl ⟨rfl, rfl, (decodeCdp_error_ne ‹_›).2⟩
      · obtain ⟨h1, h2, h3⟩ | h := selectAndFeed_registers p c d _ wt t _
        · exact .inl ⟨h1, h2, by rw [h3]; simp⟩
        · exact .inr h

section Exec

variable (s : State)

theorem exec_findAdf : exec .findAdf s = .next (answerScan s (findAdfIndex s.operands.line)) := rfl

theorem exec_findCc : exec .findCc s = .next (answerScan s (findCcIndex s.params s.operands.line)) := rfl

theorem exec_decodeVanc_ok {v : VancPacket} (h : decodeVanc s.params s.operands.line s.operands.adf = .ok v) :
    exec .decodeVanc s = .next (s.answer .ok (.vanc v)) := by
  simp only [exec, execDecodeVanc, h, State.succeed_eq]

theorem exec_decodeVanc_error {e : Status} (h : decodeVanc s.params s.operands.line s.operands.adf = .error e) :
    exec .decodeVanc s = .next (s.answer e .empty) := by
  simp only [exec, execDecodeVanc, h, State.raise_eq]

theorem exec_decodeCdp_ok {c : CdpPacket} (h : decodeCdp s.params s.operands.pay = .ok c) :
    exec .decodeCdp s = .next (s.answer .ok (.cdp c)) := by
  simp only [exec, execDecodeCdp, h, State.succeed_eq]

theorem exec_decodeCdp_error {e : Status} (h : decodeCdp s.params s.operands.pay = .error e) :
    exec .decodeCdp s = .next (s.answer e .empty) := by
  simp only [exec, execDecodeCdp, h, State.raise_eq]

theorem exec_selectPair (wt : PacketType) :
    exec (.selectPair wt) s = .next (s.answer .ok (.pair (selectPair s.operands.cdp wt))) := rfl

theorem exec_feedPair_ok {b0 b1 : Byte} {f : FeedResult}
    (h : (feedPair s.params s.capt s.draws b0 b1 s.operands.time).result = .ok f) :
    exec (.feedPair b0 b1) s =
      .next ((s.setCapt (feedPair s.params s.capt s.draws b0 b1 s.operands.time).capt
        (feedPair s.params s.capt s.draws b0 b1 s.operands.time).draws).answer .ok (.feed f)) := by
  simp only [exec, execFeedPair, h, State.succeed_eq]

theorem exec_feedPair_error {b0 b1 : Byte} {e : Status}
    (h : (feedPair s.params s.capt s.draws b0 b1 s.operands.time).result = .error e) :
    exec (.feedPair b0 b1) s =
      .next ((s.setCapt (feedPair s.params s.capt s.draws b0 b1 s.operands.time).capt
        (feedPair s.params s.capt s.draws b0 b1 s.operands.time).draws).answer e .empty) := by
  simp only [exec, execFeedPair, h, State.raise_eq]

theorem exec_processLine (wt : PacketType) :
    exec (.processLine wt) s =
      .next ((s.setCapt (processLine s.params s.capt s.draws s.operands.line s.operands.time wt).capt
        (processLine s.params s.capt s.draws s.operands.line s.operands.time wt).draws).answer
        (processLine s.params s.capt s.draws s.operands.line s.operands.time wt).status
        (.pipeline (processLine s.params s.capt s.draws s.operands.line s.operands.time wt).result)) := rfl

/-- What any command does to the registers: nothing, or what FEED_PAIR of some pair at the command's time does. -/
theorem exec_registers {i : Instr} {t : State} (h : exec i s = .next t) :
    t.params = s.params ∧
      ((t.capt = s.capt ∧ t.draws = s.draws) ∨
        ∃ b0 b1, ((i = .feedPair b0 b1) ∨ ∃ wt, i = .processLine wt) ∧
          t.capt = (feedPair s.params s.capt s.draws b0 b1 s.operands.time).capt ∧
          t.draws = (feedPair s.params s.capt s.draws b0 b1 s.operands.time).draws) := by
  cases i with
  | nop => cases h; exact ⟨rfl, .inl ⟨rfl, rfl⟩⟩
  | findAdf =>
    obtain ⟨st, he, -⟩ := answerScan_eq s (findAdfIndex s.operands.line)
    rw [exec_findAdf, he] at h
    cases h
    exact ⟨rfl, .inl ⟨rfl, rfl⟩⟩
  | findCc =>
    obtain ⟨st, he, -⟩ := answerScan_eq s (findCcIndex s.params s.operands.line)
    rw [exec_findCc, he] at h
    cases h
    exact ⟨rfl, .inl ⟨rfl, rfl⟩⟩
  | decodeVanc =>
    cases hd : decodeVanc s.params s.operands.line s.operands.adf with
    | ok v => rw [exec_decodeVanc_ok s hd] at h; cases h; exact ⟨rfl, .inl ⟨rfl, rfl⟩⟩
    | error e => rw [exec_decodeVanc_error s hd] at h; cases h; exact ⟨rfl, .inl ⟨rfl, rfl⟩⟩
  | decodeCdp =>
    cases hd : decodeCdp s.params s.operands.pay with
    | ok v => rw [exec_decodeCdp_ok s hd] at h; cases h; exact ⟨rfl, .inl ⟨rfl, rfl⟩⟩
    | error e => rw [exec_decodeCdp_error s hd] at h; cases h; exact ⟨rfl, .inl ⟨rfl, rfl⟩⟩
  | selectPair wt => rw [exec_selectPair] at h; cases h; exact ⟨rfl, .inl ⟨rfl, rfl⟩⟩
  | feedPair b0 b1 =>
    refine ⟨?_, .inr ⟨b0, b1, .inl rfl, ?_⟩⟩ <;>
    cases hd : (feedPair s.params s.capt s.draws b0 b1 s.operands.time).result with
    | ok f =>
      rw [exec_feedPair_ok s hd] at h
      cases h
      simp
    | error e =>
      rw [exec_feedPair_error s hd] at h
      cases h
      simp
  | processLine wt =>
    rw [exec_processLine] at h
    cases h
    refine ⟨rfl, ?_⟩
    obtain ⟨h1, h2, -⟩ | ⟨b0, b1, h1, h2, -⟩ :=
      processLine_registers s.params s.capt s.draws s.operands.line s.operands.time wt
    · exact .inl ⟨h1, h2⟩
    · exact .inr ⟨b0, b1, .inr ⟨wt, rfl⟩, h1, h2⟩

end Exec

end Sys2Proof.Machine
end

