-- ==== Sys2Proof/Laws/Reads.lean ====
section
/-! SUPPORT. Sys2Proof/Laws/Reads.lean: the read lists are those of the operations: an operation answers the same on operands
that agree where it reads. And the lists are short and within the operand. -/

namespace Sys2Proof.Machine

section AgreeOn

variable {α : Type} {js ks : List Nat} {x y : List α}

theorem AgreeOn.mono (h : AgreeOn js x y) (hk : ∀ j ∈ ks, j ∈ js) : AgreeOn ks x y := ⟨h.1, fun j hj => h.2 j (hk j hj)⟩

theorem AgreeOn.left (h : AgreeOn (js ++ ks) x y) : AgreeOn js x y := h.mono fun _ => List.mem_append_left _

theorem AgreeOn.right (h : AgreeOn (js ++ ks) x y) : AgreeOn ks x y := h.mono fun _ => List.mem_append_right _

/-- A list of the same value where it is read holds the element the other holds. -/
theorem AgreeOn.get (h : AgreeOn js x y) {j : Nat} (hj : j ∈ js) (hx : j < x.length) (hy : j < y.length) : x[j] = y[j] := by
  have := h.2 j hj
  rw [List.getElem?_eq_getElem hx, List.getElem?_eq_getElem hy] at this
  exact Option.some.inj this

end AgreeOn

/-! ## Scans -/

/-- Two tests that agree on every index whose reads agree find the same index. -/
theorem find?_of_scanReads {test test' : Nat → Bool} {reads : Nat → List Nat} {P : Nat → Prop} :
    ∀ {l : List Nat}, (∀ i, (∀ j ∈ reads i, P j) → test i = test' i) → (∀ j ∈ scanReads test reads l, P j) →
      l.find? test = l.find? test'
  | [], _, _ => rfl
  | i :: rest, ht, hr => by
    have hi : test i = test' i := ht i fun j hj => hr j (by simp [scanReads, hj])
    rw [List.find?_cons, List.find?_cons, ← hi]
    cases hti : test i
    · exact find?_of_scanReads ht fun j hj => hr j (by simp [scanReads, hti, hj])
    · rfl

/-- A scan reads for the index it finds. -/
theorem mem_scanReads_of_find? {test : Nat → Bool} {reads : Nat → List Nat} {i j : Nat} (hj : j ∈ reads i) :
    ∀ {l : List Nat}, l.find? test = some i → j ∈ scanReads test reads l
  | [], h => by cases h
  | k :: rest, h => by
    rw [List.find?_cons] at h
    cases hk : test k
    · rw [hk] at h
      simp only [scanReads, hk, List.mem_append]
      exact .inr (mem_scanReads_of_find? hj h)
    · rw [hk] at h
      cases h
      simp [scanReads, hj]

/-- The element a scan of the indices finds is the element a search of the list finds. -/
theorem find?_eq_range_bind {α : Type} (x : List α) (q : α → Bool) :
    x.find? q = ((List.range x.length).find? fun i => x[i]?.any q).bind fun i => x[i]? := by
  induction x with
  | nil => rfl
  | cons a x ih =>
    rw [List.length_cons, List.range_succ_eq_map, List.find?_cons, List.find?_cons]
    simp only [List.getElem?_cons_zero, Option.any_some]
    cases hq : q a
    · rw [List.find?_map]
      simp only [ih, Function.comp_def, List.getElem?_cons_succ, Nat.succ_eq_add_one, Option.bind_map]
    · rfl

/-- A search finds the same element in lists that agree on the indices it looks at. -/
theorem find?_congr_scanReads {α : Type} {x y : List α} {q : α → Bool}
    (h : AgreeOn (scanReads (fun i => x[i]?.any q) (fun i => [i]) (List.range x.length)) x y) : x.find? q = y.find? q := by
  have hf := find?_of_scanReads (P := fun j => x[j]? = y[j]?) (test' := fun i => y[i]?.any q)
    (fun i hi => by simp only [hi i (by simp)]) h.2
  rw [find?_eq_range_bind x, find?_eq_range_bind y, ← h.1, ← hf]
  cases hi : (List.range x.length).find? fun i => x[i]?.any q with
  | none => rfl
  | some i => exact h.2 i (mem_scanReads_of_find? (by simp) hi)

/-- A scan reads for the indices up to the first accepted, so for a first part of them. -/
theorem exists_scanReads_eq (test : Nat → Bool) (reads : Nat → List Nat) :
    ∀ l : List Nat, ∃ n, n ≤ l.length ∧ scanReads test reads l = (l.take n).flatMap reads
  | [] => ⟨0, by simp, rfl⟩
  | i :: rest => by
    by_cases h : test i = true
    · exact ⟨1, by simp, by simp [scanReads, h]⟩
    · obtain ⟨n, hn, he⟩ := exists_scanReads_eq test reads rest
      exact ⟨n + 1, by simpa using hn, by simp [scanReads, h, he]⟩

/-- The scan of a range reads for a shorter range. -/
theorem exists_scanReads_range (test : Nat → Bool) (reads : Nat → List Nat) (m : Nat) :
    ∃ n, n ≤ m ∧ scanReads test reads (List.range m) = (List.range n).flatMap reads := by
  obtain ⟨n, hn, he⟩ := exists_scanReads_eq test reads (List.range m)
  rw [List.length_range] at hn
  exact ⟨n, hn, by rw [he, List.take_range, Nat.min_eq_left hn]⟩

/-- A scan that reads one element per index reads a first part of the range. -/
theorem exists_scanReads_singleton (test : Nat → Bool) (m : Nat) :
    ∃ n, n ≤ m ∧ scanReads test (fun i => [i]) (List.range m) = List.range n := by
  obtain ⟨n, hn, he⟩ := exists_scanReads_range test (fun i => [i]) m
  exact ⟨n, hn, by rw [he, List.flatMap_singleton']⟩

/-! ## The locator -/

theorem isAdfReads_bound (words : List Word) (i : Nat) :
    (isAdfReads words i).length ≤ 3 ∧ ∀ j ∈ isAdfReads words i, j < words.length := by
  unfold isAdfReads
  split
  · split
    · split <;> simp <;> omega
    · simp
      omega
  · simp

theorem isCcHeaderReads_bound (p : Params) (words : List Word) (i : Nat) :
    (isCcHeaderReads p words i).length ≤ 5 ∧ ∀ j ∈ isCcHeaderReads p words i, j < words.length := by
  obtain ⟨h1, h2⟩ := isAdfReads_bound words i
  unfold isCcHeaderReads
  split
  · split
    · rename_i hlt
      simp only [List.length_append, List.mem_append]
      split
      · exact ⟨by simp; omega, fun j hj => hj.elim (h2 j) fun h => by simp at h; omega⟩
      · exact ⟨by simp; omega, fun j hj => hj.elim (h2 j) fun h => by simp at h; omega⟩
    · simpa using ⟨by omega, h2⟩
  · simpa using ⟨by omega, h2⟩

theorem wordAt_congr {js : List Nat} {x y : List Word} (h : AgreeOn js x y) {j : Nat} (hj : j ∈ js) (hx : j < x.length) :
    wordAt x j hx = wordAt y j (h.1 ▸ hx) := h.get hj _ _

theorem byteAt_congr {js : List Nat} {x y : List Byte} (h : AgreeOn js x y) {j : Nat} (hj : j ∈ js) (hx : j < x.length) :
    byteAt x j hx = byteAt y j (h.1 ▸ hx) := h.get hj _ _

/-- `IsAdf` depends on nothing but the words it reads. -/
theorem isAdf_congr {x y : List Word} {i : Nat} (h : AgreeOn (isAdfReads x i) x y) : isAdf x i = isAdf y i := by
  have hl := h.1
  by_cases hi : i + 2 < x.length
  · rw [isAdf, dif_pos hi, isAdf, dif_pos (by omega)]
    rw [isAdfReads, dif_pos hi] at h
    by_cases h0 : wordAt x i (by omega) == 0x000
    · by_cases h1 : wordAt x (i + 1) (by omega) == 0x3FF
      · rw [if_pos h0, if_pos h1] at h
        rw [wordAt_congr h (by simp) (by omega), wordAt_congr h (by simp) (by omega : i + 1 < x.length),
          wordAt_congr h (by simp) hi]
      · rw [if_pos h0, if_neg h1] at h
        rw [wordAt_congr h (by simp) (by omega : i + 1 < x.length)] at h1 ⊢
        rw [Bool.not_eq_true] at h1
        simp only [h1, Bool.and_false, Bool.false_and]
    · rw [if_neg h0] at h
      rw [wordAt_congr h (by simp) (by omega)] at h0 ⊢
      rw [Bool.not_eq_true] at h0
      simp only [h0, Bool.false_and]
  · rw [isAdf, dif_neg hi, isAdf, dif_neg (by omega)]

/-- `IsCcHeader` depends on nothing but the words it reads. -/
theorem isCcHeader_congr {p : Params} {x y : List Word} {i : Nat} (h : AgreeOn (isCcHeaderReads p x i) x y) :
    isCcHeader p x i = isCcHeader p y i := by
  have hl := h.1
  have ha := isAdf_congr h.left
  have hr := h.right
  rw [isCcHeader, isCcHeader, ← ha]
  by_cases hx : isAdf x i = true
  · rw [hx, Bool.true_and, Bool.true_and]
    rw [if_pos hx] at hr
    by_cases hi : i + 4 < x.length
    · rw [dif_pos hi, dif_pos (by omega)]
      rw [dif_pos hi] at hr
      by_cases h3 : wordAt x (i + 3) (by omega) == p.ccDid10
      · rw [if_pos h3] at hr
        rw [wordAt_congr hr (by simp) (by omega : i + 3 < x.length), wordAt_congr hr (by simp) hi]
      · rw [if_neg h3] at hr
        rw [wordAt_congr hr (by simp) (by omega : i + 3 < x.length)] at h3 ⊢
        simp [h3]
    · rw [dif_neg hi, dif_neg (by omega)]
  · simp [hx]

/-- FIND_ADF's index depends on nothing but the words it reads. -/
theorem findAdfIndex_congr {x y : List Word} (h : AgreeOn (findAdfReads x) x y) : findAdfIndex x = findAdfIndex y := by
  rw [findAdfIndex, findAdfIndex, firstIndex, firstIndex, ← h.1]
  exact find?_of_scanReads (P := fun j => x[j]? = y[j]?) (fun i hi => isAdf_congr ⟨h.1, hi⟩) h.2

/-- FIND_CC's index depends on nothing but the words it reads. -/
theorem findCcIndex_congr {p : Params} {x y : List Word} (h : AgreeOn (findCcReads p x) x y) :
    findCcIndex p x = findCcIndex p y := by
  rw [findCcIndex, findCcIndex, firstIndex, firstIndex, ← h.1]
  exact find?_of_scanReads (P := fun j => x[j]? = y[j]?) (fun i hi => isCcHeader_congr ⟨h.1, hi⟩) h.2

/-! ## The VANC packet decoder -/

@[simp] theorem indicesFrom_length (i n : Nat) : (indicesFrom i n).length = n := by simp [indicesFrom]

@[simp] theorem mem_indicesFrom {i n j : Nat} : j ∈ indicesFrom i n ↔ i ≤ j ∧ j < i + n := by
  simp only [indicesFrom, List.mem_map, List.mem_range]
  constructor
  · rintro ⟨k, hk, rfl⟩
    omega
  · rintro ⟨h1, h2⟩
    exact ⟨j - i, by omega, by omega⟩

/-- What DECODE_VANC reads of a line on which its header fits. -/
theorem decodeVancReads_eq {p : Params} {words : List Word} {a : Nat} {dc : Word} (h : words[a + 5]? = some dc) :
    decodeVancReads p words a =
      [a + 3, a + 4, a + 5] ++
        if a + 7 + dc.toNat % 256 ≤ words.length then
          indicesFrom (a + 6) (dc.toNat % 256) ++ [a + 6 + dc.toNat % 256] ++
            if p.verifyChecksum then indicesFrom (a + 3) (dc.toNat % 256 + 3) else []
        else [] := by
  have hl := lt_of_getElem?_word h
  rw [decodeVancReads, dif_pos (by omega)]
  simp only [wordAt_of_getElem? hl h, lowByte_toNat]
  congr 1
  simp only [show a + 6 + dc.toNat % 256 + 1 = a + 7 + dc.toNat % 256 by omega]

/-- The words from `i` on are the same where the lines agree. -/
theorem wordsFrom_congr {js : List Nat} {x y : List Word} {i n : Nat} (h : AgreeOn js x y)
    (hj : ∀ j, i ≤ j → j < i + n → j ∈ js) : wordsFrom x i n = wordsFrom y i n := by
  apply List.ext_getElem?
  intro k
  by_cases hk : k < n
  · rw [wordsFrom_getElem? _ _ _ _ hk, wordsFrom_getElem? _ _ _ _ hk]
    exact h.2 _ (hj _ (by omega) (by omega))
  · simp [wordsFrom, hk]

/-- DECODE_VANC's answer depends on nothing but the words it reads. -/
theorem decodeVanc_congr {p : Params} {x y : List Word} {a : Nat} (h : AgreeOn (decodeVancReads p x a) x y) :
    decodeVanc p x a = decodeVanc p y a := by
  have hl := h.1
  by_cases hs : x.length < a + 6
  · rw [decodeVanc_header_short hs, decodeVanc_header_short (by omega), hl]
  obtain ⟨dc, h5⟩ : ∃ dc, x[a + 5]? = some dc := ⟨_, getElem?_wordAt (by omega)⟩
  rw [decodeVancReads_eq h5] at h
  have g5 : y[a + 5]? = some dc := by rw [← h.2 _ (by simp), h5]
  by_cases hp : x.length < a + 7 + dc.toNat % 256
  · rw [decodeVanc_packet_short h5 hp, decodeVanc_packet_short g5 (by omega), hl]
  obtain ⟨did, sdid, cs, h3, h4, h6⟩ := exists_packet_words h5 (by omega)
  rw [if_pos (by omega)] at h
  have g3 : y[a + 3]? = some did := by rw [← h.2 _ (by simp), h3]
  have g4 : y[a + 4]? = some sdid := by rw [← h.2 _ (by simp), h4]
  have g6 : y[a + 6 + dc.toNat % 256]? = some cs := by rw [← h.2 _ (by simp), h6]
  rw [decodeVanc_fits h3 h4 h5 h6, decodeVanc_fits g3 g4 g5 g6,
    wordsFrom_congr h.right.left.left fun j h1 h2 => mem_indicesFrom.2 ⟨h1, h2⟩]
  cases hv : p.verifyChecksum
  · simp
  · rw [hv, if_pos rfl] at h
    have hc : ancChecksum x a (dc.toNat % 256) = ancChecksum y a (dc.toNat % 256) := by
      rw [ancChecksum, ancChecksum, wordsFrom_congr h.right.right fun j h1 h2 => mem_indicesFrom.2 ⟨h1, by omega⟩]
    rw [hc]

/-! ## The CDP decoder -/

theorem serviceInfoReads_bound (pay : List Byte) (s : Nat) :
    (serviceInfoReads pay s).length ≤ pay.length ∧ ∀ j ∈ serviceInfoReads pay s, j < pay.length := by
  unfold serviceInfoReads
  split
  · simp only
    split
    · simp only [List.length_append, indicesFrom_length, List.mem_append, mem_indicesFrom]
      refine ⟨by simp; omega, ?_⟩
      rintro j (hj | hj)
      · simp at hj
        omega
      · omega
    · simp only [List.append_nil]
      exact ⟨by simp; omega, fun j hj => by simp at hj; omega⟩
  · simp

theorem serviceRecordAt_congr {js : List Nat} {x y : List Byte} {r : Nat} (h : AgreeOn js x y)
    (hj : ∀ j, r ≤ j → j < r + 7 → j ∈ js) (hr : r + 7 ≤ x.length) :
    serviceRecordAt x r hr = serviceRecordAt y r (h.1 ▸ hr) := by
  have hb := byteAt_congr h (hj r (by omega) (by omega)) (by omega)
  unfold serviceRecordAt
  simp only [hb]
  congr 2
  funext k
  exact byteAt_congr h (hj _ (by omega) (by omega)) _

/-- The service-info block depends on nothing but the bytes it reads. -/
theorem decodeServiceInfo_congr {x y : List Byte} {s : Nat} (h : AgreeOn (serviceInfoReads x s) x y) :
    decodeServiceInfo x s = decodeServiceInfo y s := by
  have hl := h.1
  by_cases hs : x.length < s + 2
  · rw [decodeServiceInfo_header_short hs, decodeServiceInfo_header_short (by omega)]
  rw [serviceInfoReads, dif_pos (by omega)] at h
  have f1 := getElem?_byteAt (by omega : s + 1 < x.length)
  have g1 : y[s + 1]? = _ := (h.2 (s + 1) (by simp)).symm.trans f1
  have f0 := getElem?_byteAt (by omega : s < x.length)
  have g0 : y[s]? = _ := (h.2 s (by simp)).symm.trans f0
  by_cases hr : x.length < s + 2 + 7 * (serviceCountOf (byteAt x (s + 1) (by omega))).toNat
  · rw [decodeServiceInfo_records_short f1 hr, decodeServiceInfo_records_short g1 (by omega)]
  · simp only at h
    rw [if_pos (by omega)] at h
    rw [decodeServiceInfo_fits f0 f1 (by omega), decodeServiceInfo_fits g0 g1 (by omega)]
    congr 3
    funext i
    exact serviceRecordAt_congr h.right (fun j h1 h2 => mem_indicesFrom.2 ⟨by omega, by omega⟩) (by omega)

theorem ccUnits_congr {js : List Nat} {x y : List Byte} {cc : Nat} (h : AgreeOn js x y)
    (hj : ∀ j, 9 ≤ j → j < 9 + 3 * cc → j ∈ js) (hc : 9 + 3 * cc ≤ x.length) :
    ccUnits x cc hc = ccUnits y cc (h.1 ▸ hc) := by
  unfold ccUnits
  congr 1
  funext i
  rw [byteAt_congr h (hj _ (by omega) (by omega)), byteAt_congr h (hj _ (by omega) (by omega)),
    byteAt_congr h (hj _ (by omega) (by omega))]

/-- What DECODE_CDP reads is within the payload, each field at most once and in at most `n` reads (R299). -/
theorem decodeCdpReads_bound (p : Params) (pay : List Byte) :
    ((decodeCdpReads p pay).map Prod.fst).Nodup ∧
      ∀ e ∈ decodeCdpReads p pay, e.2.length ≤ pay.length ∧ pay.length ≤ 255 ∧ ∀ j ∈ e.2, j < pay.length := by
  unfold decodeCdpReads
  split
  · simp
  split
  · simp
  rename_i h255 h9
  split
  · simp
    omega
  split
  · simp
    omega
  simp only
  split
  · simp
    omega
  rename_i hu
  split
  · simp
    omega
  have hs := serviceInfoReads_bound pay (9 + 3 * (ccCountOf (byteAt pay 8 (by omega))).toNat)
  generalize hz : (if (cdpFlagsOf (byteAt pay 4 (by omega))).svcInfoPresent = true then
    serviceInfoReads pay (9 + 3 * (ccCountOf (byteAt pay 8 (by omega))).toNat) else []) = z
  have hs : z.length ≤ pay.length ∧ ∀ j ∈ z, j < pay.length := by
    rw [← hz]
    split
    · exact hs
    · simp
  have hz1 := hs.1
  split
  · refine ⟨by simp, ?_⟩
    intro e he
    simp only [List.cons_append, List.nil_append, List.mem_cons, List.not_mem_nil, or_false] at he
    rcases he with rfl | rfl | rfl | rfl | rfl | rfl
    all_goals first
      | exact ⟨hs.1, by omega, hs.2⟩
      | exact ⟨by simp; omega, by omega, fun j hj => by simp at hj; omega⟩
  · refine ⟨by simp, ?_⟩
    intro e he
    simp only [List.cons_append, List.nil_append, List.mem_cons, List.not_mem_nil, or_false] at he
    rcases he with rfl | rfl | rfl | rfl | rfl | rfl | rfl | rfl | rfl | rfl | rfl | rfl | rfl
    all_goals first
      | exact ⟨hs.1, by omega, hs.2⟩
      | exact ⟨by simp; omega, by omega, fun j hj => by simp at hj; omega⟩

/-- DECODE_CDP's answer depends on nothing but the bytes it reads. -/
theorem decodeCdp_congr {p : Params} {x y : List Byte} (h : AgreeOn (decodeCdpOffsets p x) x y) :
    decodeCdp p x = decodeCdp p y := by
  have hl := h.1
  by_cases hlong : 255 < x.length
  · rw [decodeCdp_too_long hlong, decodeCdp_too_long (by omega)]
  by_cases hshort : x.length < 9
  · rw [decodeCdp_header_short hshort, decodeCdp_header_short (by omega)]
  obtain ⟨m1, m2, len, fr, fl, s1, s2, sec, mc, rest, hp⟩ := exists_header (pay := x) (by omega)
  obtain ⟨n1, n2, len', fr', fl', t1, t2, sec', mc', rest', hq⟩ := exists_header (pay := y) (by omega)
  obtain ⟨x0, x1, x2, x3, x4, x5, x6, x7, x8⟩ := byteAt_header hp
  obtain ⟨y0, y1, y2, y3, y4, y5, y6, y7, y8⟩ := byteAt_header hq
  unfold decodeCdpOffsets decodeCdpReads at h
  rw [if_neg hlong, dif_neg hshort] at h
  simp only [x0, x1, x8, x4] at h
  by_cases hm1 : m1 = p.cdpMarker1
  swap
  · rw [if_pos hm1] at h
    have e0 := byteAt_congr h (j := 0) (by simp) (by omega)
    rw [x0, y0] at e0
    rw [decodeCdp_markers hp (by omega) (.inl hm1), decodeCdp_markers hq (by omega) (.inl (e0 ▸ hm1))]
  rw [if_neg (not_not.2 hm1)] at h
  by_cases hm2 : m2 = p.cdpMarker2
  swap
  · rw [if_pos hm2] at h
    have e1 := byteAt_congr h (j := 1) (by simp) (by omega)
    rw [x1, y1] at e1
    rw [decodeCdp_markers hp (by omega) (.inr hm2), decodeCdp_markers hq (by omega) (.inr (e1 ▸ hm2))]
  rw [if_neg (not_not.2 hm2)] at h
  have common : ∀ {js}, AgreeOn js x y → 0 ∈ js → 1 ∈ js → 8 ∈ js →
      n1 = p.cdpMarker1 ∧ n2 = p.cdpMarker2 ∧ mc' = mc := fun h j0 j1 j8 =>
    ⟨by have := byteAt_congr h j0 (by omega); rw [x0, y0] at this; rw [← this, hm1],
      by have := byteAt_congr h j1 (by omega); rw [x1, y1] at this; rw [← this, hm2],
      by have := byteAt_congr h j8 (by omega); rw [x8, y8] at this; exact this.symm⟩
  by_cases hu : x.length < 9 + 3 * (ccCountOf mc).toNat
  · rw [if_pos hu] at h
    obtain ⟨hn1, hn2, rfl⟩ := common h (by simp) (by simp) (by simp)
    rw [decodeCdp_units_short hp (by omega) hm1 hm2 hu, decodeCdp_units_short hq (by omega) hn1 hn2 (by omega)]
  rw [if_neg hu] at h
  by_cases hf : byteAt x (x.length - 4) (by omega) = p.cdpFooterId
  swap
  · rw [if_pos hf] at h
    obtain ⟨hn1, hn2, rfl⟩ := common h (by simp) (by simp) (by simp)
    have hfx : x[x.length - 4]? ≠ some p.cdpFooterId := fun he => hf (byteAt_of_getElem? _ he)
    have hfy : y[y.length - 4]? ≠ some p.cdpFooterId := by
      rw [← hl, ← h.2 _ (by simp)]
      exact hfx
    rw [decodeCdp_footer hp (by omega) hm1 hm2 (by omega) hfx, decodeCdp_footer hq (by omega) hn1 hn2 (by omega) hfy]
  rw [if_neg (not_not.2 hf)] at h
  have hfx : x[x.length - 4]? = some p.cdpFooterId := by rw [getElem?_byteAt (by omega), hf]
  have hsvc : ∀ {js}, AgreeOn js x y →
      (∀ j ∈ if (cdpFlagsOf fl).svcInfoPresent then serviceInfoReads x (9 + 3 * (ccCountOf mc).toNat) else [], j ∈ js) →
      serviceInfoOf x (cdpFlagsOf fl) (9 + 3 * (ccCountOf mc).toNat) =
        serviceInfoOf y (cdpFlagsOf fl) (9 + 3 * (ccCountOf mc).toNat) := by
    intro js h hj
    unfold serviceInfoOf
    by_cases hp : (cdpFlagsOf fl).svcInfoPresent = true
    · rw [if_pos hp] at hj
      rw [if_pos hp, if_pos hp, decodeServiceInfo_congr (h.mono hj)]
    · rw [if_neg hp, if_neg hp]
  cases hsx : serviceInfoOf x (cdpFlagsOf fl) (9 + 3 * (ccCountOf mc).toNat) with
  | error e =>
    rw [hsx] at h
    simp only at h
    obtain ⟨hn1, hn2, rfl⟩ := common h (by simp) (by simp) (by simp)
    have hfy : y[y.length - 4]? = some p.cdpFooterId := by rw [← hl, ← h.2 _ (by simp), hfx]
    have e4 := byteAt_congr h (j := 4) (by simp) (by omega)
    rw [x4, y4] at e4
    subst e4
    have hsy := (hsvc h (by simp +contextual)).symm.trans hsx
    rw [decodeCdp_passes hp (by omega) hm1 hm2 (by omega) hfx, decodeCdp_passes hq (by omega) hn1 hn2 (by omega) hfy,
      hsx, hsy]
  | ok svc =>
    rw [hsx] at h
    simp only at h
    obtain ⟨hn1, hn2, rfl⟩ := common h (by simp) (by simp) (by simp)
    have hfy : y[y.length - 4]? = some p.cdpFooterId := by rw [← hl, ← h.2 _ (by simp), hfx]
    have e2 := byteAt_congr h (j := 2) (by simp) (by omega)
    have e3 := byteAt_congr h (j := 3) (by simp) (by omega)
    have e4 := byteAt_congr h (j := 4) (by simp) (by omega)
    have e5 := byteAt_congr h (j := 5) (by simp) (by omega)
    have e6 := byteAt_congr h (j := 6) (by simp) (by omega)
    have e7 := byteAt_congr h (j := 7) (by simp) (by omega)
    have eh : byteAt x (x.length - 3) (by omega) = byteAt y (y.length - 3) (by omega) := by
      simpa only [hl] using byteAt_congr h (j := x.length - 3) (by simp) (by omega)
    have el : byteAt x (x.length - 2) (by omega) = byteAt y (y.length - 2) (by omega) := by
      simpa only [hl] using byteAt_congr h (j := x.length - 2) (by simp) (by omega)
    rw [x2, y2] at e2
    rw [x3, y3] at e3
    rw [x4, y4] at e4
    rw [x5, y5] at e5
    rw [x6, y6] at e6
    rw [x7, y7] at e7
    subst e2 e3 e4 e5 e6 e7 hn1 hn2 hm1 hm2
    have hsy := (hsvc h (by simp +contextual)).symm.trans hsx
    have eu := ccUnits_congr h (cc := (ccCountOf mc').toNat)
      (fun j h1 h2 => by
        simp only [List.mem_flatMap]
        exact ⟨(.ccPackets, indicesFrom 9 (3 * (ccCountOf mc').toNat)), by simp, mem_indicesFrom.2 ⟨h1, h2⟩⟩) (by omega)
    rw [decodeCdp_passes hp (by omega) rfl rfl (by omega) hfx, decodeCdp_passes hq (by omega) rfl rfl (by omega) hfy,
      hsx, hsy]
    simp only [eu, eh, el]

/-! ## The selector -/

/-- SELECT_PAIR's answer depends on nothing but the units it looks at. -/
theorem selectPair_congr {c c' : CdpPacket} {wt : PacketType}
    (h : AgreeOn (selectPairReads c wt) c.ccPackets c'.ccPackets) : selectPair c wt = selectPair c' wt := by
  rw [selectPair, selectPair, find?_congr_scanReads h]

/-- SELECT_PAIR looks at each unit of a first part of its list, so at most at 31 (R299). -/
theorem selectPairReads_bound (c : CdpPacket) (wt : PacketType) :
    ∃ n, n ≤ c.ccPackets.length ∧ n ≤ 31 ∧ selectPairReads c wt = List.range n := by
  obtain ⟨n, hn, he⟩ := exists_scanReads_singleton
    (fun i => c.ccPackets[i]?.any fun u => u.valid && u.packetType == wt) c.ccPackets.length
  exact ⟨n, hn, hn.trans c.ccBound, he⟩

/-! ## The state machine -/

theorem rowLookup_congr {p p' : Params} {c0 c1 : Code}
    (h : AgreeOn (rowLookupReads p c0 c1) p.rowTable.toList p'.rowTable.toList) :
    rowLookup p c0 c1 = rowLookup p' c0 c1 := by
  rw [rowLookup, rowLookup, find?_congr_scanReads (by rw [Vector.length_toList]; exact h)]

theorem deparity_congr {js : List Nat} {p p' : Params} {b : Byte} (h : AgreeOn js p.deparity.toList p'.deparity.toList)
    (hj : b.toNat ∈ js) : deparity p b = deparity p' b := by
  have := h.get hj (by rw [Vector.length_toList]; exact b.isLt) (by rw [Vector.length_toList]; exact b.isLt)
  simpa [deparity] using this

/-- FEED_PAIR reads at most two entries of the one table, 15 of the other, and each code of the text at most once
(R299). -/
theorem feedPairReads_bound (p : Params) (c : CaptionLineState) (b0 b1 : Byte) :
    (feedPairReads p c b0 b1).deparity.length ≤ 2 ∧ (feedPairReads p c b0 b1).rowTable.length ≤ 15 ∧
      ((feedPairReads p c b0 b1).text = [] ∨
        (feedPairReads p c b0 b1).text = List.range c.accumulatedText.length) := by
  have hrow : ∀ c0 c1, (rowLookupReads p c0 c1).length ≤ 15 := by
    intro c0 c1
    obtain ⟨n, hn, he⟩ := exists_scanReads_singleton
      (fun i => p.rowTable.toList[i]?.any fun e => rowCovers e c0 c1) 15
    rw [rowLookupReads, he, List.length_range]
    exact hn
  have hctl : ∀ c0 c1, (feedControl1Reads p c c0 c1).1.length ≤ 15 ∧
      ((feedControl1Reads p c c0 c1).2 = [] ∨
        (feedControl1Reads p c c0 c1).2 = List.range c.accumulatedText.length) := by
    intro c0 c1
    unfold feedControl1Reads
    simp only
    split
    · simp
    split
    · simp
    split
    · simp
    refine ⟨hrow c0 c1, ?_⟩
    simp only
    split
    · simp
    · split <;> simp
  unfold feedPairReads
  split
  · simp [FeedReads.none]
  split
  · simp [FeedReads.none]
  simp only
  split
  · exact ⟨by simp, hctl _ _⟩
  all_goals simp

/-- Two texts of one length that agree on every index are one. -/
theorem AgreeOn.eq_of_range {α : Type} {x y : List α} (h : AgreeOn (List.range x.length) x y) : x = y := by
  apply List.ext_getElem?
  intro k
  by_cases hk : k < x.length
  · exact h.2 k (by simpa using hk)
  · rw [List.getElem?_eq_none (by omega), List.getElem?_eq_none (by have := h.1; omega)]

/-- An append's answer depends on the length of the text alone. -/
theorem append_result (p : Params) (before c : CaptionLineState) (d : Nat) (codes : List Code) :
    (append p before c d codes).result =
      if withinCap p (c.accumulatedText.length + codes.length) then .ok ⟨false, none⟩ else .error .textOverflow := by
  unfold append
  split <;> rfl

/-- FEED_PAIR's answer depends on nothing but what it reads of the two tables and of the text. -/
theorem feedPair_congr {p : Params} {c : CaptionLineState} {d : Nat} {b0 b1 : Byte} {t : Time}
    {deparity' : Vector Code 256} {rows : Vector RowEntry 15} {text : List Code}
    (hd : AgreeOn (feedPairReads p c b0 b1).deparity p.deparity.toList deparity'.toList)
    (hr : AgreeOn (feedPairReads p c b0 b1).rowTable p.rowTable.toList rows.toList)
    (ht : AgreeOn (feedPairReads p c b0 b1).text c.accumulatedText text) :
    (feedPair p c d b0 b1 t).result =
      (feedPair { p with deparity := deparity', rowTable := rows } { c with accumulatedText := text } d b0 b1 t).result := by
  have hl := ht.1
  by_cases ho : c.overflow = true
  · rw [feedPair_overflow ho, feedPair_overflow (by exact ho)]
  have ho : c.overflow = false := by simpa using ho
  by_cases hn : b0 = 0x80 ∧ b1 = 0x80
  · rw [feedPair_null ho hn, feedPair_null (by exact ho) hn]
    rfl
  unfold feedPairReads at hd hr ht
  rw [if_neg (by simp [ho]), if_neg hn] at hd hr ht
  simp only at hd hr ht
  have e0 : deparity { p with deparity := deparity', rowTable := rows } b0 = deparity p b0 :=
    (deparity_congr (p' := { p with deparity := deparity', rowTable := rows }) hd (by simp)).symm
  have e1 : deparity { p with deparity := deparity', rowTable := rows } b1 = deparity p b1 :=
    (deparity_congr (p' := { p with deparity := deparity', rowTable := rows }) hd (by simp)).symm
  rw [feedPair_live ho hn, feedPair_live (by exact ho) hn, e0, e1]
  generalize deparity p b0 = c0 at hr ht ⊢
  generalize deparity p b1 = c1 at hr ht ⊢
  have hcap : ∀ n, withinCap { p with deparity := deparity', rowTable := rows } n = withinCap p n := fun _ => rfl
  cases hc : pairClass c0 <;> simp only [hc] at hr ht ⊢
  · unfold feedPrintable
    cases c.activeChannel
    · simp only [append_result, hcap, hl]
    · rfl
  · unfold feedControl1Reads at hr ht
    by_cases hdup : c.lastControlPair = (c0, c1)
    · rw [feedControl1_duplicate hdup, feedControl1_duplicate (by exact hdup)]
      rfl
    rw [if_neg (Ne.symm hdup)] at hr ht
    cases hs : isSpacing c0 c1
    swap
    · rw [feedControl1_spacing hdup hs, feedControl1_spacing (by exact hdup) hs]
      simp only [append_result, hcap, hl]
    rw [if_neg (by simp [hs])] at hr ht
    cases hf : isFlushCode c0 c1
    swap
    · rw [if_pos hf] at ht
      obtain rfl := ht.eq_of_range
      rw [feedControl1_flush hdup hs hf, feedControl1_flush (by exact hdup) hs hf]
    rw [if_neg (by simp [hf])] at hr ht
    have hrow := rowLookup_congr (p' := { p with deparity := deparity', rowTable := rows }) hr
    cases hk : rowLookup p c0 c1 with
    | none =>
      have hk' := hrow.symm.trans hk
      rw [feedControl1_other hdup hs hf (.inl hk), feedControl1_other (by exact hdup) hs hf (.inl hk')]
      rfl
    | some k =>
      have hk' := hrow.symm.trans hk
      simp only [hk] at ht
      by_cases heq : (k.val : Int) = c.trackedRow
      · rw [feedControl1_other hdup hs hf (.inr ⟨k, hk, heq⟩),
          feedControl1_other (by exact hdup) hs hf (.inr ⟨k, hk', by exact heq⟩)]
        rfl
      · rw [if_neg heq] at ht
        obtain rfl := ht.eq_of_range
        rw [feedControl1_row hdup hs hf hk heq, feedControl1_row (by exact hdup) hs hf hk' heq]
  · rfl
  · rfl

/-! ## The pipeline -/

/-- The legacy counter depends on nothing but the words it reads. -/
theorem legacyCounter_congr {p : Params} {x y : List Word} {a : Nat} (h : AgreeOn (legacyReads p x a) x y) :
    legacyCounter p x a = legacyCounter p y a := by
  have hl := h.1
  unfold legacyReads at h
  unfold legacyCounter
  revert h
  cases p.legacySeqIdx with
  | none => exact fun _ => rfl
  | some idx =>
    intro h
    by_cases hi : a + idx.1 < x.length ∧ a + idx.2 < x.length
    · simp only [if_pos hi] at h
      simp only [dif_pos hi, dif_pos (hl ▸ hi), wordAt_congr h (by simp) hi.1, wordAt_congr h (by simp) hi.2]
    · simp only [dif_neg hi, dif_neg (hl ▸ hi)]

theorem legacyReads_bound (p : Params) (words : List Word) (a : Nat) :
    (legacyReads p words a).length ≤ 2 ∧ ∀ j ∈ legacyReads p words a, j < words.length := by
  unfold legacyReads
  split
  · simp
  · split
    · exact ⟨by simp, fun j hj => by simp at hj; omega⟩
    · simp

/-- PROCESS_LINE's answer depends on nothing but what it reads of its line, of the two tables and of the text. -/
theorem processLine_congr {p : Params} {c : CaptionLineState} {d : Nat} {x y : List Word} {t : Time} {wt : PacketType}
    {deparity' : Vector Code 256} {rows : Vector RowEntry 15} {text : List Code}
    (hw : AgreeOn (processLineReads p c x wt).words x y)
    (hd : AgreeOn (processLineReads p c x wt).feed.deparity p.deparity.toList deparity'.toList)
    (hr : AgreeOn (processLineReads p c x wt).feed.rowTable p.rowTable.toList rows.toList)
    (ht : AgreeOn (processLineReads p c x wt).feed.text c.accumulatedText text) :
    (processLine p c d x t wt).status =
        (processLine { p with deparity := deparity', rowTable := rows } { c with accumulatedText := text } d y t wt).status ∧
      (processLine p c d x t wt).result =
        (processLine { p with deparity := deparity', rowTable := rows } { c with accumulatedText := text } d y t wt).result := by
  have hf : findCcIndex p x = findCcIndex { p with deparity := deparity', rowTable := rows } y :=
    findCcIndex_congr (p := p) (hw.mono fun j hj => by
      unfold processLineReads PipelineReads.words
      split <;> (try split) <;> (try split) <;> (try split) <;> simp [hj])
  unfold processLineReads at hw hd hr ht
  unfold processLine
  rw [← hf]
  cases ha : findCcIndex p x with
  | none => exact ⟨rfl, rfl⟩
  | some a =>
    simp only [ha] at hw hd hr ht ⊢
    have hv : decodeVanc p x a = decodeVanc { p with deparity := deparity', rowTable := rows } y a :=
      decodeVanc_congr (p := p) (hw.mono fun j hj => by
        unfold PipelineReads.words
        split <;> (try split) <;> (try split) <;> simp [hj])
    rw [← hv]
    cases he : decodeVanc p x a with
    | error e => exact ⟨rfl, rfl⟩
    | ok v =>
      simp only [he] at hw hd hr ht ⊢
      rw [show decodeCdp { p with deparity := deparity', rowTable := rows } v.payload = decodeCdp p v.payload from rfl]
      cases hc : decodeCdp p v.payload with
      | error e => exact ⟨rfl, rfl⟩
      | ok k =>
        simp only [hc] at hw hd hr ht ⊢
        have hg : legacyCounter p x a = legacyCounter { p with deparity := deparity', rowTable := rows } y a :=
          legacyCounter_congr (p := p) (hw.mono fun j hj => by
            unfold PipelineReads.words
            split <;> simp [hj])
        rw [← hg]
        unfold selectAndFeed
        rw [show selectPair { k with sequenceCounterLegacy := legacyCounter p x a } wt = selectPair k wt from rfl]
        cases hs : selectPair k wt with
        | none => exact ⟨rfl, rfl⟩
        | some u =>
          simp only [hs] at hd hr ht ⊢
          rw [← feedPair_congr hd hr ht]
          cases (feedPair p c d u.1 u.2 t).result <;> exact ⟨rfl, rfl⟩

end Sys2Proof.Machine
end

