-- ==== Sys2Proof/Tests/Slice0.lean ====
section
/-! SUPPORT. Sys2Proof/Tests/Slice0.lean: the model's own tests. Expected values are those of 95_test_vectors.md, named by
the vector. The second half shows, for each statement with hypotheses, a state and operands that meet them. -/

namespace Sys2Proof.Tests

open Sys2Proof.Machine Sys2Proof.Claims

/-! ## Ill-formed terms, one for each check of WellFormed.lean -/

/-- A well-formed VANC record, unit, service record, block and CDP record, to spoil one field at a time. -/
def vanc : VancPacket := ⟨0x61, 0x01, 1, [0x96], 0x275⟩

def unit : CcDataUnit := ⟨0xF8, true, .cc1, 0x94, 0x20⟩

def sized : ServiceRecord := ⟨true, true, some false, 2, #v[0x73, 0x70, 0x61, 0x7E, 0x3F, 0xFF]⟩

def block : ServiceInfoBlock := ⟨0x73, true, true, true, true, 1, [sized]⟩

def cdp : CdpPacket :=
  { CdpPacket.blank with ccCount := 1, ccPackets := [unit], ccBound := by decide, serviceInfo := some block
                         flags := ⟨false, true, true, false, false, false, true, true⟩ }

theorem test_wf_accepts :
    vanc.wf = true ∧ unit.wf = true ∧ sized.wf = true ∧ block.wf = true ∧ cdp.wf = true ∧
      (Instr.feedPair 0xFF 0x00).WellFormed = true := by decide

theorem test_wf_refuses_payload_length : { vanc with dataCount := 2 }.wf = false := by decide
theorem test_wf_refuses_wide_checksum : { vanc with checksum := 0x400 }.wf = false := by decide
theorem test_wf_refuses_unit_marker : { unit with marker := 0xFC }.wf = false := by decide
theorem test_wf_refuses_reserved2 : { sized with reserved2 := none }.wf = false := by decide
theorem test_wf_refuses_service_number : { sized with serviceNumber := 0x20 }.wf = false := by decide
theorem test_wf_refuses_service_count : { block with serviceCount := 2 }.wf = false := by decide
theorem test_wf_refuses_block_record :
    { block with records := [{ sized with reserved2 := none }] }.wf = false := by decide
theorem test_wf_refuses_cc_count : { cdp with ccCount := 2 }.wf = false := by decide
theorem test_wf_refuses_cdp_unit : { cdp with ccPackets := [{ unit with marker := 0xFC }], ccBound := by decide }.wf = false := by decide
theorem test_wf_refuses_absent_block : { cdp with serviceInfo := none }.wf = false := by decide
theorem test_wf_refuses_cdp_block : { cdp with serviceInfo := some { block with serviceCount := 2 } }.wf = false := by decide

/-! ## Decoding: words written out bit by bit from rules R60 and R62 -/

/-- Fields from bit 31 down: reserved 8, b1 8, b0 8, reserved 2, wt 2, op 4. -/
theorem test_decode_no_operand_words :
    decode 0b00000000_00000000_00000000_00_00_0000#32 = .ok .nop ∧
      decode 0b00000000_00000000_00000000_00_00_0001#32 = .ok .findAdf ∧
      decode 0b00000000_00000000_00000000_00_00_0010#32 = .ok .findCc ∧
      decode 0b00000000_00000000_00000000_00_00_0011#32 = .ok .decodeVanc ∧
      decode 0b00000000_00000000_00000000_00_00_0100#32 = .ok .decodeCdp := by decide

theorem test_decode_field_words :
    decode 0b00000000_00000000_00000000_00_10_0101#32 = .ok (.selectPair .dtvcc) ∧
      decode 0b00000000_00100000_10010100_00_00_0110#32 = .ok (.feedPair 0x94 0x20) ∧
      decode 0b00000000_00000000_00010010_00_00_0110#32 = .ok (.feedPair 0x12 0x00) ∧
      decode 0b00000000_00000000_00000000_00_11_0111#32 = .ok (.processLine .dtvccStart) := by decide

/-- The illegal words of vector table ENC. -/
theorem test_decode_refuses :
    [0x08, 0x0F, 0x41, 0x01000001, 0x1205, 0x16, 0x13, 0x10].all (fun n => (decodeTableWord 32 n).isNone) = true := by
  decide

/-- The kernel decodes a table word of each opcode. -/
theorem test_table_words_decode :
    (List.range 8).map (decodeTableWord 32) =
      [some .nop, some .findAdf, some .findCc, some .decodeVanc, some .decodeCdp, some (.selectPair .cc1),
        some (.feedPair 0 0), some (.processLine .cc1)] := by decide

/-! ## One step per command, from the vectors -/

/-- The state a step goes to, if it does. -/
def after (s : State) : Option State :=
  match step s with
  | .next t => some t
  | .fault _ => none
  | .refused _ => none

/-- The newest response after the command `word` with these operands, from `s`. -/
def answer (s : State) (word : CmdWord) (o : Operands) : Option Response :=
  (after (s.issue word o)).bind fun t => t.responses.head?

/-- The registers after it. -/
def registers (s : State) (word : CmdWord) (o : Operands) : Option CaptionLineState :=
  (after (s.issue word o)).map State.capt

def onLine (words : List Word) (adf : Nat := 0) : Operands := { Operands.blank with line := words, adf := adf }

def onPay (pay : List Byte) : Operands := { Operands.blank with pay := pay }

/-- `n` seconds. -/
def seconds (n : Nat) : Time := ⟨n, 1, by decide, by simp⟩

def atTime (n : Nat) : Operands := { Operands.blank with time := seconds n }

/-- The line V1. -/
def v1 : List Word :=
  [0x040, 0x040, 0x000, 0x3FF, 0x3FF, 0x161, 0x101, 0x113, 0x296, 0x269] ++
    [0x113, 0x14F, 0x143, 0x212, 0x134, 0x272, 0x2E2, 0x2FC, 0x194, 0x120] ++
    [0x2F9, 0x180, 0x180, 0x274, 0x212, 0x134, 0x25F, 0x275, 0x040, 0x040]

/-- The line V5. -/
def v5 : List Word :=
  [0x040, 0x000, 0x3FF, 0x3FF, 0x241, 0x205, 0x108, 0x200, 0x200, 0x200] ++
    [0x200, 0x110, 0x200, 0x200, 0x200, 0x25E, 0x000, 0x3FF, 0x3FF, 0x161] ++
    [0x101, 0x110, 0x296, 0x269, 0x110, 0x14F, 0x143, 0x200, 0x102, 0x272] ++
    [0x2E1, 0x2FC, 0x194, 0x120, 0x274, 0x200, 0x102, 0x2E4, 0x272, 0x040]

/-- The line of SRC-5. -/
def src5 : List Word := [0x000, 0x3FF, 0x3FF, 0x161, 0x101, 0x205, 0x200, 0x200, 0x200]

/-- The payload of CDP-1. -/
def c1 : List Byte :=
  [0x96, 0x69, 0x13, 0x4F, 0x43, 0x12, 0x34, 0x72, 0xE2, 0xFC, 0x94, 0x20, 0xF9, 0x80, 0x80, 0x74, 0x12, 0x34, 0x5F]

/-- The payload P4 of SRC-6. -/
def p4 : List Byte :=
  [0x96, 0x69, 0x27, 0x4F, 0x63, 0x00, 0x01, 0x72, 0xE1, 0xFC, 0x94, 0x20, 0x73] ++
    [0xF3, 0x81, 0x65, 0x6E, 0x67, 0xFE, 0x3F, 0xFF, 0xC2, 0x73, 0x70, 0x61, 0x7E, 0x3F, 0xFF] ++
    [0xE3, 0x66, 0x72, 0x61, 0x01, 0x02, 0x03, 0x74, 0x00, 0x01, 0x6E]

/-- Parameters that verify checksums. -/
def verifying : State := .create { defaultParams with verifyChecksum := true }

theorem test_nop : answer .reset 0 .blank = some ⟨.ok, .empty⟩ := by decide +kernel

/-- LOC-3 and LOC-8. -/
theorem test_find_adf :
    answer .reset 1 (onLine [0, 0, 0x3FF, 0x3FF]) = some ⟨.ok, .adf (some 1)⟩ ∧
      answer .reset 1 (onLine [0x3FF, 0x3FF, 0, 0x3FF]) = some ⟨.noPacketFound, .adf none⟩ := by decide +kernel

/-- LOC-4 and LOC-7: a packet that is no caption packet is not skipped. -/
theorem test_find_cc :
    answer .reset 2 (onLine v5) = some ⟨.ok, .adf (some 16)⟩ ∧
      answer .reset 2 (onLine [0, 0x3FF, 0x3FF, 0x241, 0x205, 0x105, 0, 0x3FF, 0x3FF, 0x161, 0x101, 0x1AB]) =
        some ⟨.ok, .adf (some 6)⟩ := by decide +kernel

/-- VANC-1 with verification, VANC-4. -/
theorem test_decode_vanc :
    answer verifying 3 (onLine v1 2) = some ⟨.ok, .vanc ⟨0x61, 0x01, 19, c1, 0x275⟩⟩ ∧
      answer verifying 3 (onLine (v1.set 27 0x274) 2) = some ⟨.checksumMismatch 0x275 0x274, .empty⟩ := by
  decide +kernel

/-- VANC-3 and SRC-5. -/
theorem test_decode_vanc_truncated :
    answer .reset 3 (onLine (v1.take 27) 2) = some ⟨.truncatedPacket 28 27, .empty⟩ ∧
      answer .reset 3 (onLine src5) = some ⟨.truncatedPacket 12 9, .empty⟩ := by decide +kernel

/-- The record CDP-1 returns. -/
def c1Packet : CdpPacket where
  marker1 := 0x96
  marker2 := 0x69
  length := 0x13
  frameRate := 4
  flags := ⟨false, true, false, false, false, false, true, true⟩
  sequenceCounter := 0x1234
  sequenceCounterLegacy := none
  sectionId := 0x72
  ccMarker := 7
  ccCount := 2
  ccPackets := [⟨0xF8, true, .cc1, 0x94, 0x20⟩, ⟨0xF8, false, .cc2, 0x80, 0x80⟩]
  ccBound := by decide
  footerId := 0x74
  footerSequenceCounter := 0x1234
  serviceInfo := none

/-- CDP-1, CDP-5. -/
theorem test_decode_cdp :
    answer .reset 4 (onPay c1) = some ⟨.ok, .cdp c1Packet⟩ ∧
      answer .reset 4 (onPay (c1.set 15 0x75)) = some ⟨.malformedCdp .footer, .empty⟩ := by decide +kernel

/-- SRC-6: the three service records. -/
theorem test_decode_service_records :
    ((decodeCdp defaultParams p4).toOption.bind CdpPacket.serviceInfo).map ServiceInfoBlock.records =
      some [⟨true, false, none, 1, #v[0x65, 0x6E, 0x67, 0xFE, 0x3F, 0xFF]⟩,
        ⟨true, true, some false, 2, #v[0x73, 0x70, 0x61, 0x7E, 0x3F, 0xFF]⟩,
        ⟨true, true, some true, 3, #v[0x66, 0x72, 0x61, 0x01, 0x02, 0x03]⟩] := by decide +kernel

/-- SEL-1 and SEL-2. -/
theorem test_select_pair :
    answer .reset 0x05 { Operands.blank with cdp := c1Packet } = some ⟨.ok, .pair (some (0x94, 0x20))⟩ ∧
      answer .reset 0x15 { Operands.blank with cdp := c1Packet } = some ⟨.ok, .pair none⟩ := by decide +kernel

/-- A state of the default instance with these registers. -/
def withCapt (c : CaptionLineState) : State := { State.reset with capt := c }

/-- PROG-1 before its ENM, with `lst` = 1 s: "HELLO" on channel 1. -/
def hello : CaptionLineState := ⟨.ch1, -1, (0x14, 0x20), [0x48, 0x45, 0x4C, 0x4C, 0x4F], seconds 1, false⟩

/-- SRC-4: ENM emits the line, stamped with RCL's time. -/
theorem test_feed_pair :
    answer (withCapt hello) 0x00AE9406 (atTime 2) =
        some ⟨.ok, .feed ⟨true, some ⟨[0x48, 0x45, 0x4C, 0x4C, 0x4F], 1000⟩⟩⟩ ∧
      registers (withCapt hello) 0x00AE9406 (atTime 2) = some ⟨.ch1, -1, (0x14, 0x2E), [], seconds 2, false⟩ := by
  decide +kernel

/-- SRC-3, row 3 then row 1: one flush, and the row is 1. -/
theorem test_feed_pair_row :
    (registers (withCapt ⟨.ch1, 3, (0x12, 0x62), [], seconds 3, false⟩) 0x00E09106 (atTime 4)).map
      (fun c => (c.trackedRow, c.lineStartTime)) = some (1, seconds 4) := by decide +kernel

/-- PROCESS_LINE of V1 for CC1 feeds RCL; of SRC-5 it ends with the decoder's error. -/
theorem test_process_line :
    registers .reset 0x07 { onLine v1 with time := seconds 10 } = some ⟨.ch1, -1, (0x14, 0x20), [], seconds 10, false⟩ ∧
      (answer .reset 0x07 (onLine src5)).map Response.status = some (.truncatedPacket 12 9) := by decide +kernel

/-- What the commands read (R299), counted by hand: of V1 7 words to find the packet, 3 + 19 + 1 to decode it, and 19 + 3 more
to verify it; of CDP-1 each byte but the checksum, the marker-and-count byte twice; of its two units both for CC2; and PROCESS_LINE
the sum. -/
theorem test_reads :
    (findCcReads defaultParams v1).length = 7 ∧ (decodeVancReads verifying.params v1 2).length = 45 ∧
      (decodeCdpOffsets defaultParams c1).length = 19 ∧ selectPairReads c1Packet .cc2 = [0, 1] ∧
      (feedPairReads defaultParams hello 0x94 0xAE).text = [0, 1, 2, 3, 4] ∧
      (processLineReads defaultParams State.reset.capt v1 .cc1).count = 7 + 23 + 19 + 0 + 1 + 2 := by
  decide +kernel

/-- Any opcode word placed at reset is run by the next step. -/
theorem test_step_runs_placed_words :
    (List.range 8).all (fun w => (after (State.reset.withFetchWord 32 w)).any fun t => t.responses.length == 1) = true := by
  decide +kernel

/-- SRC-8. -/
theorem test_trim :
    trim [0x20, 0x20, 0x50, 0x20] = [0x50] ∧ trim [0x41, 0x20, 0x43] = [0x41, 0x20, 0x43] ∧ trim [0x20, 0x20] = [] := by
  decide

/-- MS_OF of 0.0005 s is 1: halves away from zero (SM-CORNER, step 5). -/
theorem test_ms_of : msOf ⟨1, 2000, by decide, by decide⟩ = 1 ∧ msOf ⟨4999, 10000000, by decide, by decide⟩ = 0 := by
  decide

/-- One line of assembler text and a pseudo-instruction (R65, R66). -/
theorem test_assembler :
    parseLine ['E', 'N', 'M', ' ', '2'] = some (.feed 0x94 0xAE (seconds 2)) ∧
      parseLine ['F', 'E', 'E', 'D', ' ', '0', 'x', '9', '4', ',', ' ', '0', 'x', '2', '0', ',', ' ', '1'] =
        some (.feed 0x94 0x20 (seconds 1)) := by decide +kernel

/-! ## The hypotheses of the statements are met: a state and operands for each, clause by clause -/

/-- A state that no reset leaves: text, a row, the second channel, a command issued. -/
def busy : State where
  capt := ⟨.ch2, 14, (0x14, 0x70), [0x41, 0x7F], seconds 3, false⟩
  params := defaultParams
  operands := onLine v1 2
  pending := [.command 0x07 { onLine v1 with time := seconds 10 }, .reset]
  responses := [⟨.ok, .empty⟩]
  draws := 1

/-- The same registers, full up to a finite TEXT_CAP, on channel 1. -/
def full : State :=
  { busy with capt := { busy.capt with activeChannel := .ch1 }, params := { defaultParams with textCap := some 2 } }

/-- The same with room for one code. -/
def roomForOne : State := { full with params := { defaultParams with textCap := some 3 } }

theorem meets_decode_of_encode : (Instr.feedPair 0xFF 0x00).WellFormed = true := rfl

theorem meets_decoded_word : decode 0x00FFFF06 = .ok (.feedPair 0xFF 0xFF) := by decide

theorem meets_opcode_table :
    (∃ i, decode 0x35 = .ok i ∧ mnemonic i = "SELECT_PAIR") ∧ ¬ ∃ i, decode 0x45 = .ok i ∧ mnemonic i = "SELECT_PAIR" := by
  refine ⟨⟨.selectPair .dtvccStart, by decide, rfl⟩, ?_⟩
  rintro ⟨i, h, -⟩
  rw [show decode 0x45 = .error .reservedBits by decide] at h
  cases h

/-- Each clause alone, at the edge of its field; FEED_PAIR's own bytes meet none. -/
theorem meets_illegal_words :
    (∀ w ∈ [0x08, 0x0F, 0x41, 0x81, 0x01000001, 0x80000001, 0x16, 0x34, 0x107, 0x00800000], IllegalWord w) ∧
      ∀ w ∈ [0x00FFFF06, 0x35, 0x37, 0x00], ¬ IllegalWord w := by
  simp [IllegalWord]

theorem meets_issued : ∃ w ops rest i, busy.pending = .command w ops :: rest ∧ decode w = .ok i :=
  ⟨_, _, _, .processLine .cc1, rfl, by decide⟩

/-- An illegal word issued, and one that is none. -/
theorem meets_words_issued :
    (∃ w ops rest, { busy with pending := [.command 0x41 .blank] }.pending = .command w ops :: rest ∧ IllegalWord w) ∧
      ∃ w ops rest, busy.pending = .command w ops :: rest ∧ ¬ IllegalWord w :=
  ⟨⟨0x41, _, _, rfl, by simp [IllegalWord]⟩, 0x07, _, _, rfl, by simp [IllegalWord]⟩

theorem meets_reset_input : ∃ rest, { busy with pending := [.reset, .reset] }.pending = .reset :: rest := ⟨_, rfl⟩

theorem meets_nothing_issued : { busy with pending := [] }.pending = [] := rfl

theorem meets_breach : ∃ d rest, { busy with pending := [.breach .serialise] }.pending = .breach d :: rest := ⟨_, _, rfl⟩

/-- A step of each kind that goes on: a command, an illegal word, a reset, none. -/
theorem meets_step_goes_on :
    (∃ t, step busy = .next t) ∧ (∃ t, step { busy with pending := [.command 0x41 .blank] } = .next t) ∧
      (∃ t, step { busy with pending := [.reset] } = .next t) ∧ ∃ t, step { busy with pending := [] } = .next t :=
  ⟨⟨_, rfl⟩, ⟨_, rfl⟩, ⟨_, rfl⟩, _, rfl⟩

/-- An error that is not TextOverflow, and TextOverflow. -/
theorem meets_errors :
    (∃ t r, exec .findAdf { busy with operands := .blank } = .next t ∧
      t.responses = r :: busy.responses ∧ r.status ≠ .ok ∧ r.status ≠ .textOverflow) ∧
    ∃ t r, exec (.feedPair 0x15 0x15) { full with capt := { full.capt with overflow := true } } = .next t ∧
      t.responses = r :: full.responses ∧ r.status = .textOverflow :=
  ⟨⟨_, ⟨.noPacketFound, .adf none⟩, rfl, by decide +kernel⟩, _, ⟨.textOverflow, .empty⟩, rfl, by decide +kernel⟩

theorem meets_same_operands :
    let other := { busy with capt := hello }
    busy.params = other.params ∧ busy.operands = other.operands ∧ busy.capt.trackedRow ≠ other.capt.trackedRow :=
  ⟨rfl, rfl, by decide⟩

/-- A flag that ends the line, one word more than none; the first of two overlapping candidates. -/
theorem meets_flag :
    FlagAt [0x3FF, 0, 0x3FF, 0x3FF] 1 ∧ (∀ j, j < 1 → ¬ FlagAt [0x3FF, 0, 0x3FF, 0x3FF] j) ∧
      ∀ i, ¬ FlagAt [0, 0x3FF] i := by
  refine ⟨by unfold FlagAt; decide, by unfold FlagAt; decide, ?_⟩
  intro i h
  have hi := lt_of_getElem?_word h.2.2
  simp at hi

/-- A caption header that ends the line; a line one word too short. -/
theorem meets_caption_header :
    CaptionHeaderAt defaultParams [0, 0, 0x3FF, 0x3FF, 0x161, 0x101] 1 ∧
      (∀ j, j < 1 → ¬ CaptionHeaderAt defaultParams [0, 0, 0x3FF, 0x3FF, 0x161, 0x101] j) ∧
      ∀ i, ¬ CaptionHeaderAt defaultParams [0, 0x3FF, 0x3FF, 0x161] i := by
  refine ⟨by unfold CaptionHeaderAt FlagAt; decide, by unfold CaptionHeaderAt FlagAt; decide, ?_⟩
  intro i h
  have hi := lt_of_getElem?_word h.2.2
  simp at hi

/-- VANC-11, whose checksum word ends the line, unverified; VANC-1 with its right checksum; data_count 255. -/
theorem meets_packet :
    PacketAt [0, 0x3FF, 0x3FF, 0x161, 0x101, 0x200, 0x18C] 0 0x161 0x101 0x200 0x18C ∧
      PacketAt v1 2 0x161 0x101 0x113 0x275 ∧ (0x275 : Word).toNat = checksumNumber v1 2 19 ∧
      PacketAt ([0, 0x3FF, 0x3FF, 0x161, 0x101, 0x2FF] ++ List.replicate 256 0x200) 0 0x161 0x101 0x2FF 0x200 := by
  unfold PacketAt
  decide +kernel

/-- A line one word too short for a header; a packet one word too short, with data_count 0 and 255. -/
theorem meets_truncated :
    (onLine [0, 0x3FF, 0x3FF, 0x161, 0x101]).line.length < 0 + 6 ∧
      (∃ dc : Word, [0, 0x3FF, 0x3FF, 0x161, 0x101, (0x200 : Word)][0 + 5]? = some dc ∧ 6 < 0 + 7 + dc.toNat % 256) ∧
      ∃ dc : Word, ([0, 0x3FF, 0x3FF, 0x161, 0x101, 0x2FF] ++ List.replicate 255 (0x200 : Word))[0 + 5]? = some dc ∧
        261 < 0 + 7 + dc.toNat % 256 :=
  ⟨by decide, ⟨0x200, by decide⟩, 0x2FF, by decide⟩

/-- VANC-11 verified: the right word is 0x262. -/
theorem meets_checksum_mismatch :
    let words : List Word := [0, 0x3FF, 0x3FF, 0x161, 0x101, 0x200, 0x18C]
    PacketAt words 0 0x161 0x101 0x200 0x18C ∧ verifying.params.verifyChecksum = true ∧
      (0x18C : Word).toNat ≠ checksumNumber words 0 (0x200 % 256) ∧ checksumNumber words 0 (0x200 % 256) = 0x262 := by
  unfold PacketAt
  decide +kernel

/-- VANC-6: the same low bits, other upper bits, in the payload alone. -/
theorem meets_upper_bits :
    let words : List Word := [0, 0x3FF, 0x3FF, 0x161, 0x101, 0x201, 0x296, 0x18C]
    let words' : List Word := [0, 0x3FF, 0x3FF, 0x161, 0x101, 0x201, 0x096, 0x18C]
    PacketAt words 0 0x161 0x101 0x201 0x18C ∧ defaultParams.verifyChecksum = false ∧ words'.length = words.length ∧
      (∀ j, (j < 0 + 6 ∨ 0 + 6 + 0x201 % 256 ≤ j) → words'[j]? = words[j]?) ∧
      ∀ (j : Nat) (w w' : Word), words[j]? = some w → words'[j]? = some w' → w'.toNat % 256 = w.toNat % 256 := by
  refine ⟨by unfold PacketAt; decide, rfl, rfl, ?_, ?_⟩
  · intro j hj
    by_cases h : j < 8
    · interval_cases j <;> first | rfl | omega
    · rw [List.getElem?_eq_none (by simp; omega), List.getElem?_eq_none (by simp; omega)]
  · intro j w w' h h'
    have hj := lt_of_getElem?_word h
    simp only [List.length_cons, List.length_nil] at hj
    interval_cases j <;> (cases h; cases h'; rfl)

/-- Lines that hold the same where a scan reads, and not after it: the packet found, and its tail spoilt; and where DECODE_VANC
reads, all but what stands around the packet. -/
theorem meets_same_words :
    (AgreeOn (findAdfReads v1) v1 (v1.take 5 ++ List.replicate 25 0) ∧
        AgreeOn (findCcReads defaultParams v1) v1 (v1.take 7 ++ List.replicate 23 0)) ∧
      AgreeOn (decodeVancReads verifying.params v1 2) v1 (List.replicate 5 0 ++ (v1.drop 5).take 23 ++ [1, 2]) ∧
      v1.take 7 ++ List.replicate 23 0 ≠ v1 ∧ List.replicate 5 0 ++ (v1.drop 5).take 23 ++ [1, 2] ≠ v1 := by
  unfold AgreeOn
  decide +kernel

theorem meets_header_word : ∃ dc, v1[2 + 5]? = some dc := ⟨0x113, rfl⟩

/-- The shortest decodable payload, nine bytes whose footer id is a byte of the sequence counter; and CDP-1. -/
theorem meets_cdp_fields :
    let pay : List Byte := [0x96, 0x69, 0x09, 0x4F, 0x43, 0x74, 0x34, 0x72, 0xE0]
    HeaderIs pay 0x96 0x69 0x09 0x4F 0x43 0x74 0x34 0x72 0xE0 ∧ pay.length ≤ 255 ∧
      9 + 3 * ((0xE0 : Byte).toNat % 32) ≤ pay.length ∧ pay[pay.length - 4]? = some defaultParams.cdpFooterId ∧
      (0x43 : Byte).toNat / 32 % 2 = 0 ∧ HeaderIs c1 0x96 0x69 0x13 0x4F 0x43 0x12 0x34 0x72 0xE2 :=
  ⟨⟨[], rfl⟩, by decide, by decide, by decide, by decide, _, rfl⟩

/-- CDP-1 decodes: it answers a record, which is well formed, and FIND_CC of V1 answers the packet that holds it. -/
theorem meets_answers :
    Answers .decodeCdp { busy with operands := onPay c1 } ⟨.ok, .cdp c1Packet⟩ ∧
      Answers .decodeVanc busy ⟨.ok, .vanc ⟨0x61, 0x01, 19, c1, 0x275⟩⟩ ∧
      Answers .findCc busy ⟨.ok, .adf (some 2)⟩ ∧
      Answers (.selectPair .cc1) { busy with operands := { Operands.blank with cdp := c1Packet } }
        ⟨.ok, .pair (some (0x94, 0x20))⟩ ∧
      Answers (.selectPair .cc2) { busy with operands := { Operands.blank with cdp := c1Packet } } ⟨.ok, .pair none⟩ :=
  ⟨⟨_, rfl, by decide +kernel⟩, ⟨_, rfl, by decide +kernel⟩, ⟨_, rfl, by decide +kernel⟩, ⟨_, rfl, by decide +kernel⟩,
    _, rfl, by decide +kernel⟩

/-- Operands that hold the same where each command reads and differ elsewhere: a payload in its checksum byte, a record in all
but its first unit, the tables and the text where a printable pair reads none of them, and PROCESS_LINE's line around its
packet. -/
theorem meets_same_operand_parts :
    AgreeOn (decodeCdpOffsets defaultParams c1) c1 (c1.set 18 0x00) ∧
      (AgreeOn (selectPairReads c1Packet .cc1) c1Packet.ccPackets [unit, unit] ∧ c1Packet.ccPackets ≠ [unit, unit]) ∧
      (AgreeOn (feedPairReads defaultParams hello 0x20 0x80).deparity defaultParams.deparity.toList
          (defaultParams.deparity.set 0x41 0x00).toList ∧
        AgreeOn (feedPairReads defaultParams hello 0x20 0x80).rowTable defaultParams.rowTable.toList
          (Vector.replicate 15 ⟨0, 0, 0, 0⟩).toList ∧
        AgreeOn (feedPairReads defaultParams hello 0x20 0x80).text hello.accumulatedText [1, 2, 3, 4, 5]) ∧
      AgreeOn (processLineReads defaultParams hello v1 .cc1).words v1 (v1.set 28 0x000) := by
  unfold AgreeOn
  decide +kernel

theorem meets_triplets : ∃ t, exec .decodeCdp { busy with operands := onPay c1 } = .next t ∧
    t.responses = ⟨.ok, .cdp c1Packet⟩ :: busy.responses := ⟨_, rfl, by decide +kernel⟩

/-- The length of 256 and of 8; CDP-3; CDP-4 at one byte short of its triplets; CDP-5. -/
theorem meets_cdp_failures :
    255 < (List.replicate 256 (0x96 : Byte)).length ∧ (c1.take 8).length < 9 ∧
      (HeaderIs (c1.set 1 0x6A) 0x96 0x6A 0x13 0x4F 0x43 0x12 0x34 0x72 0xE2 ∧ (0x6A : Byte) ≠ defaultParams.cdpMarker2) ∧
      (HeaderIs (c1.take 14) 0x96 0x69 0x13 0x4F 0x43 0x12 0x34 0x72 0xE2 ∧
        (c1.take 14).length < 9 + 3 * ((0xE2 : Byte).toNat % 32)) ∧
      HeaderIs (c1.set 15 0x75) 0x96 0x69 0x13 0x4F 0x43 0x12 0x34 0x72 0xE2 ∧
        9 + 3 * ((0xE2 : Byte).toNat % 32) ≤ (c1.set 15 0x75).length ∧
        (c1.set 15 0x75)[(c1.set 15 0x75).length - 4]? ≠ some defaultParams.cdpFooterId :=
  ⟨by decide +kernel, by decide, ⟨⟨_, rfl⟩, by decide⟩, ⟨⟨_, rfl⟩, by decide⟩, ⟨_, rfl⟩, by decide, by decide⟩

/-- A payload that ends before its block, CDP-7 whose record does not fit, CDP-8 and P4 whose block fits. -/
theorem meets_service_info :
    let none' : List Byte := [0x96, 0x69, 0x09, 0x4F, 0x63, 0x74, 0x34, 0x72, 0xE0]
    let cdp7 : List Byte := [0x96, 0x69, 0x0D, 0x4F, 0x63, 0x12, 0x34, 0x72, 0xE0, 0x73, 0xF1, 0x74, 0x12, 0x34, 0x00]
    let fits := fun pay : List Byte =>
      HeaderIs pay 0x96 0x69 (pay.getD 2 0) 0x4F 0x63 (pay.getD 5 0) (pay.getD 6 0) 0x72 (pay.getD 8 0) ∧
        pay.length ≤ 255 ∧ 9 + 3 * ((pay.getD 8 0).toNat % 32) ≤ pay.length ∧
        pay[pay.length - 4]? = some defaultParams.cdpFooterId ∧ (0x63 : Byte).toNat / 32 % 2 = 1
    (fits none' ∧ none'.length < 9 + 2) ∧
      (fits cdp7 ∧ ∃ f, cdp7[9 + 1]? = some f ∧ cdp7.length < 9 + 2 + 7 * (f.toNat % 16)) ∧
      (fits (cdp7.set 10 0xF0) ∧ ∃ f, (cdp7.set 10 0xF0)[9 + 1]? = some f ∧
        9 + 2 + 7 * (f.toNat % 16) ≤ (cdp7.set 10 0xF0).length) ∧
      fits p4 ∧ ∃ f, p4[12 + 1]? = some f ∧ 12 + 2 + 7 * (f.toNat % 16) ≤ p4.length :=
  ⟨⟨⟨⟨_, rfl⟩, by decide, by decide, by decide, by decide⟩, by decide⟩,
    ⟨⟨⟨_, rfl⟩, by decide, by decide, by decide, by decide⟩, _, rfl, by decide⟩,
    ⟨⟨⟨_, rfl⟩, by decide, by decide, by decide, by decide⟩, _, rfl, by decide⟩,
    ⟨⟨_, rfl⟩, by decide, by decide, by decide, by decide⟩, _, rfl, by decide⟩

/-- SRC-7: the two units of CDP-1, laid out, are CDP-1's bytes; and no unit at all. -/
theorem meets_round_trip :
    let lay := fun u : CcDataUnit =>
      [BitVec.ofNat 8 (u.marker.toNat + (if u.valid then 4 else 0) + (packetTypeCode u.packetType).toNat), u.data1, u.data2]
    let units := c1Packet.ccPackets
    let tail : List Byte := [0x74, 0x12, 0x34, 0x5F]
    (∀ u ∈ units, u.marker.toNat % 8 = 0) ∧ (0xE2 : Byte).toNat % 32 = units.length ∧ (0x43 : Byte).toNat / 32 % 2 = 0 ∧
      4 ≤ tail.length ∧ tail[tail.length - 4]? = some defaultParams.cdpFooterId ∧
      c1 = [0x96, 0x69, 0x13, 0x4F, 0x43, 0x12, 0x34, 0x72, 0xE2] ++ units.flatMap lay ++ tail ∧ c1.length ≤ 255 ∧
      (0xE0 : Byte).toNat % 32 = ([] : List CcDataUnit).length := by decide

/-- The first unit that may be selected stands second; none may be. -/
theorem meets_selection :
    let skipped : CcDataUnit := ⟨0xF8, false, .cc1, 1, 2⟩
    (∀ v ∈ [skipped], ¬ Selectable .cc1 v) ∧ Selectable .cc1 unit ∧ ∀ v ∈ [skipped, unit], ¬ Selectable .cc2 v := by
  simp [Selectable, unit]

/-! FEED_PAIR: raw bytes whose codes are at the edges of each clause. -/

theorem meets_null : busy.capt.overflow = false ∧ (deparity busy.params 0x00 = 0 ∧ deparity busy.params 0x41 = 0) := by
  decide +kernel

/-- Codes 0x20 and 0x7F, with a printable second code and without; full but for one code. -/
theorem meets_printable :
    Live roomForOne 0x20 0x80 ∧ 0x20 ≤ (deparity roomForOne.params 0x20).toNat ∧
      ¬ 0x20 ≤ (deparity roomForOne.params 0x80).toNat ∧ roomForOne.capt.activeChannel = .ch1 ∧
      withinCap roomForOne.params (roomForOne.capt.accumulatedText.length + 1) = true ∧
      (deparity defaultParams 0x7F).toNat = 0x7F ∧ withinCap defaultParams 1000 = true := by
  unfold Live
  decide +kernel

/-- Printable on channel 2; codes 0x0F, 0x15 and 0x17. -/
theorem meets_ignored :
    Live busy 0x20 0x20 ∧ (0x20 ≤ (deparity busy.params 0x20).toNat ∧ busy.capt.activeChannel = .ch2) ∧
      (deparity busy.params 0x8F).toNat = 0x0F ∧ (deparity busy.params 0x15).toNat = 0x15 ∧
      (deparity busy.params 0x97).toNat = 0x17 ∧ Live busy 0x8F 0x20 ∧ Live busy 0x15 0x20 ∧ Live busy 0x97 0x20 := by
  unfold Live
  decide +kernel

/-- Codes 0x18 and 0x1F. -/
theorem meets_channel2 :
    Live full 0x98 0x20 ∧ (deparity full.params 0x98).toNat = 0x18 ∧ Live full 0x1F 0x20 ∧
      (deparity full.params 0x1F).toNat = 0x1F := by
  unfold Live
  decide +kernel

/-- `busy` holds the pair (14, 70) as its last control pair. -/
theorem meets_duplicate :
    Live busy 0x94 0x70 ∧ IsControl1 (deparity busy.params 0x94) ∧
      busy.capt.lastControlPair = (deparity busy.params 0x94, deparity busy.params 0x70) := by
  unfold Live IsControl1
  decide +kernel

/-- Mid-row codes (11, 20) and (11, 2F), and Flash-On, with room for one code. -/
theorem meets_spacing :
    (Live roomForOne 0x91 0x20 ∧ IsSpacingPair (deparity roomForOne.params 0x91) (deparity roomForOne.params 0x20)) ∧
      (Live roomForOne 0x91 0x2F ∧ IsSpacingPair (deparity roomForOne.params 0x91) (deparity roomForOne.params 0x2F)) ∧
      (Live roomForOne 0x94 0xA8 ∧ IsSpacingPair (deparity roomForOne.params 0x94) (deparity roomForOne.params 0xA8)) ∧
      roomForOne.capt.lastControlPair ≠ (0x11, 0x20) ∧
      roomForOne.capt.lastControlPair ≠ (deparity roomForOne.params 0x91, deparity roomForOne.params 0x2F) ∧
      roomForOne.capt.lastControlPair ≠ (deparity roomForOne.params 0x94, deparity roomForOne.params 0xA8) ∧
      withinCap roomForOne.params (roomForOne.capt.accumulatedText.length + 1) = true := by
  unfold Live IsSpacingPair
  decide +kernel

/-- RCL and ENM, with a text to emit and with none; a time that fits 32 bits of milliseconds and one that does not. -/
theorem meets_flush :
    (Live busy 0x94 0x20 ∧ IsFlushPair (deparity busy.params 0x94) (deparity busy.params 0x20)) ∧
      (Live busy 0x94 0xAE ∧ IsFlushPair (deparity busy.params 0x94) (deparity busy.params 0xAE)) ∧
      busy.capt.lastControlPair ≠ (deparity busy.params 0x94, deparity busy.params 0x20) ∧
      trim busy.capt.accumulatedText ≠ [] ∧ trim [0x20, 0x20] = [] ∧ msOf busy.capt.lineStartTime < 2 ^ 32 ∧
      ¬ msOf (seconds 4294968) < 2 ^ 32 := by
  unfold Live IsFlushPair
  decide +kernel

/-- The raw bytes of (12, 60), (14, 21) and (14, 7F). -/
theorem codes_of_raw_bytes :
    deparity defaultParams 0x92 = 0x12 ∧ deparity defaultParams 0xE0 = 0x60 ∧ deparity defaultParams 0x94 = 0x14 ∧
      deparity defaultParams 0xA1 = 0x21 ∧ deparity defaultParams 0x7F = 0x7F := by decide +kernel

/-- The pair (12, 60) is of row 3. -/
theorem row_3 : RowIs defaultParams 0x12 0x60 3 :=
  ⟨defaultRowTable.toList.take 3, ⟨0x12, 0x60, 0x7F, 3⟩, defaultRowTable.toList.drop 4, by decide, by unfold Covers; decide,
    rfl, by unfold Covers; decide⟩

/-- The pair (12, 60), from row 14. -/
theorem meets_row :
    let c0 := deparity busy.params 0x92
    let c1 := deparity busy.params 0xE0
    Live busy 0x92 0xE0 ∧ IsControl1 c0 ∧ busy.capt.lastControlPair ≠ (c0, c1) ∧ ¬ IsSpacingPair c0 c1 ∧
      ¬ IsFlushPair c0 c1 ∧ RowIs busy.params c0 c1 3 ∧ ((3 : Fin 15).val : Int) ≠ busy.capt.trackedRow := by
  obtain ⟨h0, h1, -⟩ := codes_of_raw_bytes
  simp only [show busy.params = defaultParams from rfl, h0, h1]
  exact ⟨⟨rfl, by decide⟩, by unfold IsControl1; decide, by decide, by unfold IsSpacingPair; decide,
    by unfold IsFlushPair; decide, row_3, by decide⟩

/-- The pair (14, 21), of no row. -/
theorem meets_no_row :
    let c0 := deparity busy.params 0x94
    let c1 := deparity busy.params 0xA1
    Live busy 0x94 0xA1 ∧ IsControl1 c0 ∧ busy.capt.lastControlPair ≠ (c0, c1) ∧ ¬ IsSpacingPair c0 c1 ∧
      ¬ IsFlushPair c0 c1 ∧ ∀ e ∈ busy.params.rowTable.toList, ¬ Covers e c0 c1 := by
  obtain ⟨-, -, h0, h1, -⟩ := codes_of_raw_bytes
  simp only [show busy.params = defaultParams from rfl, h0, h1]
  exact ⟨⟨rfl, by decide⟩, by unfold IsControl1; decide, by decide, by unfold IsSpacingPair; decide,
    by unfold IsFlushPair; decide, by unfold Covers; decide⟩

/-- The pair (14, 7F), of the tracked row 14. -/
theorem meets_tracked_row :
    let c0 := deparity busy.params 0x94
    let c1 := deparity busy.params 0x7F
    Live busy 0x94 0x7F ∧ IsControl1 c0 ∧ busy.capt.lastControlPair ≠ (c0, c1) ∧ ¬ IsSpacingPair c0 c1 ∧
      ¬ IsFlushPair c0 c1 ∧ RowIs busy.params c0 c1 14 ∧ ((14 : Fin 15).val : Int) = busy.capt.trackedRow := by
  obtain ⟨-, -, h0, -, h1⟩ := codes_of_raw_bytes
  simp only [show busy.params = defaultParams from rfl, h0, h1]
  exact ⟨⟨rfl, by decide⟩, by unfold IsControl1; decide, by decide, by unfold IsSpacingPair; decide,
    by unfold IsFlushPair; decide,
    ⟨defaultRowTable.toList.take 14, ⟨0x14, 0x60, 0x7F, 14⟩, [], by decide, by unfold Covers; decide, rfl,
      by unfold Covers; decide⟩, by decide⟩

/-- No room for one code, for the second of two, and for a spacing code's space. -/
theorem meets_overflow :
    (Live full 0x20 0x80 ∧ withinCap full.params (full.capt.accumulatedText.length + 1) = false) ∧
      (Live roomForOne 0x20 0x20 ∧ withinCap roomForOne.params (roomForOne.capt.accumulatedText.length + 2) = false) ∧
      (Live full 0x91 0x20 ∧ IsSpacingPair (deparity full.params 0x91) (deparity full.params 0x20) ∧
        full.capt.lastControlPair ≠ (deparity full.params 0x91, deparity full.params 0x20)) ∧
      full.capt.activeChannel = .ch1 ∧ { full.capt with overflow := true }.overflow = true := by
  unfold Live IsSpacingPair
  decide +kernel

/-- A FEED_PAIR and a PROCESS_LINE that write the last control pair, and one of each that leaves a longer text. -/
theorem meets_register_writes :
    (∃ t, exec (.feedPair 0x94 0x20) busy = .next t ∧ t.capt.lastControlPair ≠ busy.capt.lastControlPair ∧
      t.responses = ⟨.ok, .feed ⟨true, some ⟨[0x41, 0x7F], 3000⟩⟩⟩ :: busy.responses) ∧
      (∃ t, exec (.processLine .cc1) busy = .next t ∧ t.capt.lastControlPair ≠ busy.capt.lastControlPair) ∧
      (∃ t, exec (.feedPair 0x20 0x20) { full with params := defaultParams } = .next t ∧
        full.capt.accumulatedText.length < t.capt.accumulatedText.length) ∧
      ∃ t, exec (.processLine .cc1) { full with params := defaultParams, operands := onLine (v1.set 18 0x1C1) } = .next t ∧
        full.capt.accumulatedText.length < t.capt.accumulatedText.length :=
  ⟨⟨_, rfl, by decide +kernel⟩, ⟨_, rfl, by decide +kernel⟩, ⟨_, rfl, by decide +kernel⟩, _, rfl, by decide +kernel⟩

/-- Right after reset: the row code (12, 60), and it answers OK. -/
theorem meets_after_reset :
    let c0 := deparity State.reset.params 0x92
    let c1 := deparity State.reset.params 0xE0
    State.reset.capt = .afterReset State.reset.params ∧ Live .reset 0x92 0xE0 ∧ IsControl1 c0 ∧
      RowIs State.reset.params c0 c1 3 ∧ ¬ IsSpacingPair c0 c1 ∧ ¬ IsFlushPair c0 c1 ∧
      Answers (.feedPair 0x92 0xE0) .reset ⟨.ok, .feed ⟨true, none⟩⟩ := by
  obtain ⟨h0, h1, -⟩ := codes_of_raw_bytes
  simp only [show State.reset.params = defaultParams from rfl, h0, h1]
  exact ⟨rfl, ⟨rfl, by decide⟩, by unfold IsControl1; decide, row_3, by unfold IsSpacingPair; decide,
    by unfold IsFlushPair; decide, _, rfl, by decide +kernel⟩

/-! The pipeline, and what every step keeps. -/

/-- No caption packet; SRC-5's truncated packet; V1 with a marker of its CDP spoilt. -/
theorem meets_pipeline_failures :
    Answers .findCc .reset ⟨.noPacketFound, .adf none⟩ ∧
      (Answers .findCc { busy with operands := onLine src5 } ⟨.ok, .adf (some 0)⟩ ∧
        Answers .decodeVanc { busy with operands := onLine src5 0 } ⟨.truncatedPacket 12 9, .empty⟩) ∧
      Answers .findCc { busy with operands := onLine (v1.set 9 0x26A) } ⟨.ok, .adf (some 2)⟩ ∧
        Answers .decodeVanc { busy with operands := onLine (v1.set 9 0x26A) 2 }
          ⟨.ok, .vanc ⟨0x61, 0x01, 19, c1.set 1 0x6A, 0x275⟩⟩ ∧
        Answers .decodeCdp { busy with operands := { onLine (v1.set 9 0x26A) 2 with pay := c1.set 1 0x6A } }
          ⟨.malformedCdp .marker, .empty⟩ :=
  ⟨⟨_, rfl, by decide +kernel⟩, ⟨⟨_, rfl, by decide +kernel⟩, _, rfl, by decide +kernel⟩, ⟨_, rfl, by decide +kernel⟩,
    ⟨_, rfl, by decide +kernel⟩, _, rfl, by decide +kernel⟩

/-- A response that ends at each stage that can raise. -/
theorem meets_failing_responses :
    (∃ t r, exec (.processLine .cc1) .reset = .next t ∧
      t.responses = ⟨.noPacketFound, .pipeline r⟩ :: State.reset.responses) ∧
    (∃ t r, exec (.processLine .cc1) { busy with operands := onLine (v1.set 9 0x26A) } = .next t ∧
      t.responses = ⟨.malformedCdp .marker, .pipeline r⟩ :: busy.responses) ∧
    (∃ t r, exec (.processLine .cc1) { busy with operands := onLine src5 } = .next t ∧
      t.responses = ⟨.truncatedPacket 12 9, .pipeline r⟩ :: busy.responses) ∧
      ∃ t r, exec (.processLine .cc1) { full with capt := { full.capt with overflow := true } } = .next t ∧
        t.responses = ⟨.textOverflow, .pipeline r⟩ :: full.responses :=
  ⟨⟨_, _, rfl, rfl⟩, ⟨_, _, rfl, rfl⟩, ⟨_, _, rfl, rfl⟩, _, _, rfl, rfl⟩

/-- V1: every stage answers OK, with a pair to feed for CC1 and none for CC2; and FEED_PAIR of that pair answers OK in
`busy`, and TextOverflow where the overflow bit is set. -/
theorem meets_pipeline :
    findCcIndex busy.params v1 = some 2 ∧
      (decodeVanc busy.params v1 2).toOption = some ⟨0x61, 0x01, 19, c1, 0x275⟩ ∧
      (decodeCdp busy.params c1).toOption = some c1Packet ∧
      (selectPair c1Packet .cc1 = some (0x94, 0x20) ∧ selectPair c1Packet .cc2 = none) ∧
      busy.capt.overflow = false ∧ busy.params.textCap = none ∧
      Answers (.feedPair 0x94 0x20) busy ⟨.ok, .feed ⟨true, some ⟨[0x41, 0x7F], 3000⟩⟩⟩ ∧
      Answers (.feedPair 0x94 0x20) { full with capt := { full.capt with overflow := true } } ⟨.textOverflow, .empty⟩ :=
  ⟨by decide +kernel, by decide +kernel, by decide +kernel, by decide +kernel, rfl, rfl, ⟨_, rfl, by decide +kernel⟩,
    _, rfl, by decide +kernel⟩

/-- The default de-parity table meets R26: the odd-parity encoding of a code inverts it. -/
theorem defaultParams_legal : ParamsLegal defaultParams := by
  have left : ∀ b, oddParity b = true → parityEncode (deparity defaultParams b) = b := by decide +kernel
  have right : ∀ c, oddParity (parityEncode c) = true ∧ deparity defaultParams (parityEncode c) = c := by decide +kernel
  exact ⟨by decide +kernel, fun c => ⟨_, right c⟩, fun b b' h h' e => by rw [← left b h, ← left b' h', e]⟩

/-- `busy` is legal, and `full`, with its finite TEXT_CAP and the overflow bit set, is legal too. -/
theorem meets_legal :
    busy.Inv ∧ { full with capt := { full.capt with overflow := true } }.Inv :=
  ⟨⟨defaultParams_legal, by decide, by decide, by decide, .inr (by decide), by decide⟩,
    ⟨defaultParams_legal.others_to_zero, defaultParams_legal.onto, defaultParams_legal.one_to_one⟩,
    by decide, by decide, by decide, .inr (by decide), by decide⟩

/-- Rows just outside 4..9 under the default table. -/
theorem meets_rows_4_to_9 :
    busy.params.rowTable = defaultRowTable ∧ ¬ (4 ≤ (3 : Int) ∧ (3 : Int) ≤ 9) ∧ ¬ (4 ≤ (10 : Int) ∧ (10 : Int) ≤ 9) ∧
      ¬ (4 ≤ busy.capt.trackedRow ∧ busy.capt.trackedRow ≤ 9) := by decide +kernel

/-- A step of the second of two instances, and of one that is not there. -/
theorem meets_instances :
    (∃ after, stepInstance [State.reset, busy] 1 = .next after) ∧ ∃ after, stepInstance [busy] 1 = .next after :=
  ⟨⟨_, rfl⟩, _, rfl⟩

/-- Three candidates of which the last two hold a caption header, and none; a remembered line that still validates, and one
that does not. -/
theorem meets_probe :
    let frame := fun n => if n = 9 then [] else v1
    let found := fun candidates : List Nat =>
      candidates.find? fun n => (findCcIndex State.reset.params (frame n)).isSome
    (probe frame [9, 10, 11] .reset).1 = some 10 ∧ found [9, 10, 11] = some 10 ∧ found [9] = none ∧
      (sendLine (frame 11) (seconds 1) .cc1 .reset).lastOk = true ∧
      (sendLine (frame 9) (seconds 1) .cc1 .reset).lastOk = false := by decide +kernel

end Sys2Proof.Tests
end

