-- ==== Sys2Proof/Proofs/Locator.lean ====
section
/-! PROOF. The statements about the locator's scans (40_locator.md). -/

namespace Sys2Proof.Proofs.Locator

open Sys2Proof Sys2Proof.Machine Sys2Proof.Claims

/-- The model's test and the statements' flag agree at every index (R100). -/
theorem isAdf_iff_flagAt (words : List Word) (i : Nat) : isAdf words i = true ↔ FlagAt words i :=
  isAdf_iff words i

theorem isAdf_eq_false_iff (words : List Word) (i : Nat) : isAdf words i = false ↔ ¬ FlagAt words i := by
  rw [← isAdf_iff_flagAt, Bool.not_eq_true]

/-- A flag's first word is a word of the line, so the scan reaches it. -/
theorem lt_length_of_flagAt {words : List Word} {i : Nat} (h : FlagAt words i) : i < words.length :=
  lt_of_getElem?_word h.1

theorem findAdfIndex_eq_some {words : List Word} {i : Nat} (hflag : FlagAt words i)
    (hfirst : ∀ j < i, ¬ FlagAt words j) : findAdfIndex words = some i :=
  (firstIndex_eq_some_iff words _ i).mpr
    ⟨lt_length_of_flagAt hflag, (isAdf_iff_flagAt words i).mpr hflag,
      fun j hj => (isAdf_eq_false_iff words j).mpr (hfirst j hj)⟩

theorem findAdfIndex_eq_none {words : List Word} (hnone : ∀ i, ¬ FlagAt words i) : findAdfIndex words = none :=
  (firstIndex_eq_none_iff words _).mpr fun i _ => (isAdf_eq_false_iff words i).mpr (hnone i)

/-- A scan that found an index answers OK with it and writes the response alone (R101, R103). -/
theorem answerScan_some (s : State) (i : Nat) : answerScan s (some i) = s.answer .ok (.adf (some i)) := rfl

/-- A scan that found none answers NoPacketFound and writes the response alone (R101, R103). -/
theorem answerScan_none (s : State) : answerScan s none = s.answer .noPacketFound (.adf none) := rfl

/-- Settles O16: the scan's index is the first flag's, and a scan writes nothing but its response. -/
theorem findAdfReturnsTheFirstFlag : Obligations.FindAdfReturnsTheFirstFlag := by
  unfold Obligations.FindAdfReturnsTheFirstFlag
  refine ⟨by decide, fun s => ⟨fun i hflag hfirst => ?found, fun hnone => ?absent⟩⟩
  case found =>
    rw [exec_findAdf, findAdfIndex_eq_some hflag hfirst, answerScan_some, State.answer]
  case absent =>
    rw [exec_findAdf, findAdfIndex_eq_none hnone, answerScan_none, State.answer]

end Sys2Proof.Proofs.Locator
end

