-- ==== Sys2Proof/Proofs/CdpDecoder.lean ====
section
/-! PROOF. The statements about the CDP decoder (42_cdp_decoder.md). -/

namespace Sys2Proof.Proofs.CdpDecoder

open Sys2Proof Sys2Proof.Machine Sys2Proof.Claims

/-- Masking with 0xF8 clears the three low bits (R76). -/
theorem and_0xF8_eq_shift (x : Byte) : x &&& (0xF8 : Byte) = x >>> 3 <<< 3 := by
  ext i hi
  interval_cases i <;> simp

theorem and_0xF8_toNat (x : Byte) : (x &&& 0xF8).toNat = x.toNat / 8 * 8 := by
  have hx := x.isLt
  rw [and_0xF8_eq_shift, BitVec.toNat_shiftLeft, BitVec.toNat_ushiftRight, Nat.shiftRight_eq_div_pow, Nat.shiftLeft_eq]
  omega

/-- The decoder's unit of three bytes is the statements' unit of them (R76, R77, R150). -/
theorem isUnitOf_ccUnit (x0 x1 x2 : Byte) : IsUnitOf x0 x1 x2 (ccUnit x0 x1 x2) := by
  refine ⟨and_0xF8_toNat x0, bit_eq x0 2, ?packetType, rfl, rfl⟩
  case packetType => simp [ccUnit]

/-- DECODE_CDP's newest response is an OK record only where its payload decodes to that record (R141). -/
theorem decodeCdp_ok_of_exec {s t : State} {c : CdpPacket} (ht : exec .decodeCdp s = .next t)
    (hr : t.responses = ⟨.ok, .cdp c⟩ :: s.responses) : decodeCdp s.params s.operands.pay = .ok c := by
  cases hd : decodeCdp s.params s.operands.pay with
  | error e =>
    rw [exec_decodeCdp_error s hd] at ht
    cases ht
    simp at hr
  | ok c' =>
    rw [exec_decodeCdp_ok s hd] at ht
    cases ht
    simpa using hr

/-- The triplets of a decoded payload lie within it, and the record's units are theirs (R149, R150). -/
theorem ccPackets_of_decodeCdp {p : Params} {pay : List Byte} {c : CdpPacket} (hc : decodeCdp p pay = .ok c) :
    ∃ h : 9 + 3 * c.ccCount.toNat ≤ pay.length, c.ccPackets = ccUnits pay c.ccCount.toNat h := by
  obtain ⟨_, _, _, _, _, _, _, _, hunits, _, -, -, -, -, rfl⟩ := decodeCdp_ok hc
  exact ⟨hunits, rfl⟩

/-- Settles O25: the record's units are the units of the triplets at 9, 12, 15, ..., one for each. -/
theorem decodeCdpKeepsEveryTriplet : Obligations.DecodeCdpKeepsEveryTriplet := by
  unfold Obligations.DecodeCdpKeepsEveryTriplet
  intro s t c ht hr
  obtain ⟨hfits, hunits⟩ := ccPackets_of_decodeCdp (decodeCdp_ok_of_exec ht hr)
  refine ⟨by rw [hunits, ccUnits_length], fun i hi => ?unit⟩
  case unit =>
    exact ⟨_, _, _, _, getElem?_byteAt (by omega), getElem?_byteAt (by omega), getElem?_byteAt (by omega),
      by rw [hunits, ccUnits_getElem? _ hfits i hi], isUnitOf_ccUnit _ _ _⟩

end Sys2Proof.Proofs.CdpDecoder
end

