-- ==== Sys2Proof/Proofs/Eia608.lean ====
section
/-! PROOF. The statements about the 608 state machine (44_eia608.md). -/

namespace Sys2Proof.Proofs.Eia608

open Sys2Proof Sys2Proof.Machine Sys2Proof.Claims

/-- FEED_PAIR writes the registers and draws of its step and answers its result, and nothing else (R200). -/
theorem exec_feedPair_of_eq {s : State} {b0 b1 : Byte} {c : CaptionLineState} {d : Nat} {f : FeedResult}
    (h : feedPair s.params s.capt s.draws b0 b1 s.operands.time = ⟨c, d, .ok f⟩) :
    exec (.feedPair b0 b1) s = .next { s with capt := c, draws := d, responses := ⟨.ok, .feed f⟩ :: s.responses } := by
  rw [exec_feedPair_ok s (f := f) (by rw [h]), h, State.setCapt, State.answer]

section Classes

variable {s : State} {b0 b1 : Byte}

theorem feedPair_of_printable (h : Live s b0 b1) (hp : 0x20 ≤ (deparity s.params b0).toNat) :
    feedPair s.params s.capt s.draws b0 b1 s.operands.time =
      feedPrintable s.params s.capt s.draws (deparity s.params b0) (deparity s.params b1) := by
  simp only [feedPair_live h.1 h.2, pairClass_printable hp]

theorem feedPair_of_control1 (h : Live s b0 b1) (hc : IsControl1 (deparity s.params b0)) :
    feedPair s.params s.capt s.draws b0 b1 s.operands.time =
      feedControl1 s.params s.capt s.draws (deparity s.params b0) (deparity s.params b1) s.operands.time := by
  simp only [feedPair_live h.1 h.2, pairClass_control1 hc.1 hc.2]

theorem feedPair_of_other (h : Live s b0 b1)
    (ho : (deparity s.params b0).toNat < 0x10 ∨
      (0x15 ≤ (deparity s.params b0).toNat ∧ (deparity s.params b0).toNat ≤ 0x17)) :
    feedPair s.params s.capt s.draws b0 b1 s.operands.time = .quiet s.capt s.draws := by
  simp only [feedPair_live h.1 h.2, pairClass_other ho]

end Classes

/-- On channel 1 a printable pair appends its printable codes (R204). -/
theorem feedPrintable_ch1 {p : Params} {c : CaptionLineState} {d : Nat} {c0 c1 : Code} (h : c.activeChannel = .ch1) :
    feedPrintable p c d c0 c1 = append p c c d (if 0x20 ≤ c1.toNat then [c0, c1] else [c0]) := by
  simp only [feedPrintable, h, isPrintable_iff]

theorem isSpacing_eq_false {c0 c1 : Code} (h : ¬ IsSpacingPair c0 c1) : isSpacing c0 c1 = false := by
  rwa [← Bool.not_eq_true, isSpacing_iff]

theorem isFlushCode_eq_false {c0 c1 : Code} (h : ¬ IsFlushPair c0 c1) : isFlushCode c0 c1 = false := by
  rwa [← Bool.not_eq_true, isFlushCode_iff]

/-- The explicit flush codes are control pairs of channel 1 (R203, R209). -/
theorem isControl1_of_isFlushPair {c0 c1 : Code} (h : IsFlushPair c0 c1) : IsControl1 c0 := by
  unfold IsControl1
  have h0 : c0.toNat = 0x14 := h.1
  omega

/-- No explicit flush code is a mid-row code or Flash-On (R208, R209). -/
theorem not_isSpacingPair_of_isFlushPair {c0 c1 : Code} (h : IsFlushPair c0 c1) : ¬ IsSpacingPair c0 c1 := by
  unfold IsFlushPair IsSpacingPair at *
  omega

/-- ENM by the number of its second code (R210). -/
theorem eq_enm_iff (c1 : Code) : c1 = 0x2E ↔ c1.toNat = 0x2E := BitVec.toNat_eq

theorem rowCovers_iff (e : RowEntry) (c0 c1 : Code) : rowCovers e c0 c1 = true ↔ Covers e c0 c1 := by
  simp [rowCovers, Covers, and_assoc]

/-- The model's lookup gives the statements' row (R27). -/
theorem rowLookup_eq_some_of_rowIs {p : Params} {c0 c1 : Code} {k : Fin 15} (h : RowIs p c0 c1 k) :
    rowLookup p c0 c1 = some k := by
  simpa only [RowIs, rowLookup_eq_some_iff, ← Bool.not_eq_true, rowCovers_iff] using h

/-- Settles O32: the pair's step is an append, and the append has room. -/
theorem printablePairIsAppended : Obligations.PrintablePairIsAppended := by
  unfold Obligations.PrintablePairIsAppended
  intro s b0 b1 c0 c1 codes hlive hprintable hch1 hroom
  have hstep : feedPair s.params s.capt s.draws b0 b1 s.operands.time =
      .quiet { s.capt with accumulatedText := s.capt.accumulatedText ++ codes } s.draws := by
    rw [feedPair_of_printable hlive hprintable, feedPrintable_ch1 hch1, append_fits hroom]
  exact exec_feedPair_of_eq hstep

/-- Settles O33: the pair's step is quiet and keeps the registers. -/
theorem otherPairsChangeNothing : Obligations.OtherPairsChangeNothing := by
  unfold Obligations.OtherPairsChangeNothing
  intro s b0 b1 c0 hlive hother
  exact exec_feedPair_of_eq (feedPair_of_other hlive hother)

/-- Settles O38: a flush code is no spacing code, so its step is the flush's. -/
theorem flushCodeFlushes : Obligations.FlushCodeFlushes := by
  unfold Obligations.FlushCodeFlushes
  intro s b0 b1 c0 c1 hlive hflush hnew
  have hstep := feedPair_of_control1 hlive (isControl1_of_isFlushPair hflush)
  rw [feedControl1_flush hnew (isSpacing_eq_false (not_isSpacingPair_of_isFlushPair hflush))
    ((isFlushCode_iff c0 c1).2 hflush)] at hstep
  simp only [eq_enm_iff] at hstep
  exact ⟨_, _, exec_feedPair_of_eq hstep⟩

/-- Settles O39: the lookup finds the row, and the step goes by whether it is the tracked one. -/
theorem rowChangeFlushes : Obligations.RowChangeFlushes := by
  unfold Obligations.RowChangeFlushes
  intro s b0 b1 k c0 c1 hlive hcontrol hnew hspacing hflush hrow
  have hstep := feedPair_of_control1 hlive hcontrol
  have hs := isSpacing_eq_false hspacing
  have hf := isFlushCode_eq_false hflush
  have hk := rowLookup_eq_some_of_rowIs hrow
  refine ⟨fun hother => ?otherRow, fun htracked => ?trackedRow⟩
  case otherRow =>
    rw [feedControl1_row hnew hs hf hk hother] at hstep
    exact ⟨_, _, exec_feedPair_of_eq hstep⟩
  case trackedRow =>
    rw [feedControl1_other hnew hs hf (.inr ⟨k, hk, htracked⟩)] at hstep
    exact exec_feedPair_of_eq hstep

end Sys2Proof.Proofs.Eia608
end

