-- ==== Sys2Proof/Proofs/Pipeline.lean ====
section
/-! PROOF. The statements about PROCESS_LINE (45_pipeline.md). -/

namespace Sys2Proof.Proofs.Pipeline

open Sys2Proof Sys2Proof.Machine Sys2Proof.Claims

section Answered

variable {s : State} {e : Status}

/-- A command that writes one response alone answers that response and no other (R61). -/
theorem answers_iff_of_exec {i : Instr} {f : ResultFields} {r : Response} (h : exec i s = .next (s.answer e f)) :
    Answers i s r ↔ r = ⟨e, f⟩ := by
  simp [Answers, h, eq_comm]

/-- The index FIND_CC answers is its scan's (R103). -/
theorem findCcIndex_of_answers {found : Option Nat} (h : Answers .findCc s ⟨e, .adf found⟩) :
    findCcIndex s.params s.operands.line = found := by
  obtain ⟨st, hscan, -⟩ := answerScan_eq s (findCcIndex s.params s.operands.line)
  cases (answers_iff_of_exec ((exec_findCc s).trans (congrArg _ hscan))).mp h
  rfl

/-- The packet DECODE_VANC answers is the one its operands decode to (R121). -/
theorem decodeVanc_ok_of_answers {v : VancPacket} (h : Answers .decodeVanc s ⟨e, .vanc v⟩) :
    decodeVanc s.params s.operands.line s.operands.adf = .ok v := by
  cases hd : decodeVanc s.params s.operands.line s.operands.adf with
  | error e' => cases (answers_iff_of_exec (exec_decodeVanc_error s hd)).mp h
  | ok v' => cases (answers_iff_of_exec (exec_decodeVanc_ok s hd)).mp h; rfl

/-- DECODE_VANC answers with no field only where its operands do not decode, and with that error (R122, R126). -/
theorem decodeVanc_error_of_answers (h : Answers .decodeVanc s ⟨e, .empty⟩) :
    decodeVanc s.params s.operands.line s.operands.adf = .error e := by
  cases hd : decodeVanc s.params s.operands.line s.operands.adf with
  | error e' => cases (answers_iff_of_exec (exec_decodeVanc_error s hd)).mp h; rfl
  | ok v => cases (answers_iff_of_exec (exec_decodeVanc_ok s hd)).mp h

/-- DECODE_CDP answers with no field only where its payload does not decode, and with that error (R157). -/
theorem decodeCdp_error_of_answers (h : Answers .decodeCdp s ⟨e, .empty⟩) :
    decodeCdp s.params s.operands.pay = .error e := by
  cases hd : decodeCdp s.params s.operands.pay with
  | error e' => cases (answers_iff_of_exec (exec_decodeCdp_error s hd)).mp h; rfl
  | ok c => cases (answers_iff_of_exec (exec_decodeCdp_ok s hd)).mp h

end Answered

/-! Where each stage before the selector fails, `processLine` ends: it keeps the registers and the draws, and the stages
completed before (R240, R241). -/

section Stages

variable {p : Params} {words : List Word} (c : CaptionLineState) (d : Nat) (t : Time) (wt : PacketType)

theorem processLine_of_findCc_none (h : findCcIndex p words = none) :
    processLine p c d words t wt = ⟨c, d, .noPacketFound, .start⟩ := by
  simp only [processLine, h]

theorem processLine_of_decodeVanc_error {a : Nat} {e : Status} (ha : findCcIndex p words = some a)
    (h : decodeVanc p words a = .error e) :
    processLine p c d words t wt = ⟨c, d, e, { PipelineResult.start with adf := some a }⟩ := by
  simp only [processLine, ha, h]

theorem processLine_of_decodeCdp_error {a : Nat} {v : VancPacket} {e : Status} (ha : findCcIndex p words = some a)
    (hv : decodeVanc p words a = .ok v) (h : decodeCdp p v.payload = .error e) :
    processLine p c d words t wt = ⟨c, d, e, { PipelineResult.start with adf := some a, vanc := some v }⟩ := by
  simp only [processLine, ha, hv, h]

end Stages

/-- A PROCESS_LINE whose stages keep the registers and the draws writes its response alone (R241). -/
theorem exec_processLine_of_eq {s : State} {wt : PacketType} {e : Status} {r : PipelineResult}
    (h : processLine s.params s.capt s.draws s.operands.line s.operands.time wt = ⟨s.capt, s.draws, e, r⟩) :
    exec (.processLine wt) s = .next { s with responses := ⟨e, .pipeline r⟩ :: s.responses } := by
  rw [exec_processLine, h, State.setCapt_same, State.answer]

/-- Settles O50: each command's answer names its stage's result, and `processLine` ends at the stage that fails. -/
theorem failingPipelineHasNoEffect : Obligations.FailingPipelineHasNoEffect := by
  unfold Obligations.FailingPipelineHasNoEffect
  intro s wt
  refine ⟨fun hnone => ?locate, fun a ha => ⟨fun e he => ?unpack, fun v hv e he => ?cdp⟩⟩
  case locate =>
    exact ⟨_, exec_processLine_of_eq (processLine_of_findCc_none _ _ _ _ (findCcIndex_of_answers hnone)), rfl⟩
  case unpack =>
    exact ⟨_, exec_processLine_of_eq (processLine_of_decodeVanc_error _ _ _ _ (findCcIndex_of_answers ha)
      (decodeVanc_error_of_answers he)), rfl⟩
  case cdp =>
    exact ⟨_, exec_processLine_of_eq (processLine_of_decodeCdp_error _ _ _ _ (findCcIndex_of_answers ha)
      (decodeVanc_ok_of_answers hv) (decodeCdp_error_of_answers he)), rfl⟩

end Sys2Proof.Proofs.Pipeline
end

/-! PROOF. The statements about the command word (30_encoding.md). -/

namespace Sys2Proof.Proofs.CommandWord

open Sys2Proof Sys2Proof.Machine Sys2Proof.Claims

theorem whenUnused_eq_ok_iff (z : Bool) (i j : Instr) : whenUnused z i = .ok j ↔ z = true ∧ i = j := by
  cases z <;> simp [whenUnused]

theorem whenUnused_isOk (z : Bool) (i : Instr) : (∃ j, whenUnused z i = .ok j) ↔ z = true := by
  simp [whenUnused_eq_ok_iff]

theorem decode_encode (i : Instr) : decode (encode i) = .ok i := by
  cases i with
  | nop => rfl
  | findAdf => rfl
  | findCc => rfl
  | decodeVanc => rfl
  | decodeCdp => rfl
  | selectPair wt => simp [encode, decode, whenUnused]
  | feedPair b0 b1 => simp [encode, decode, whenUnused]
  | processLine wt => simp [encode, decode, whenUnused]

/-- Settles O1: packing the fields loses none of them, so the decoder reads each back. -/
theorem decodeOfEncodeIsTheCommand : Obligations.DecodeOfEncodeIsTheCommand := by
  unfold Obligations.DecodeOfEncodeIsTheCommand
  exact fun i _ => decode_encode i

/-- The reserved bits of a word that is a command's are 0 (R63). -/
theorem reserved_eq_zero_of_decode {w : CmdWord} {i : Instr} (h : decode w = .ok i) :
    reservedLow w = 0 ∧ reservedHigh w = 0 := by
  by_contra hn
  rw [decode, if_pos (by rwa [← not_and_or])] at h
  cases h

theorem opField_eq_ofNat {w : CmdWord} {n : Nat} (h : (opField w).toNat = n) : opField w = BitVec.ofNat 4 n := by
  rw [← h, BitVec.ofNat_toNat, BitVec.setWidth_eq]

/-- A command's word is packed from the fields of the word it was decoded from (R60, R62). -/
theorem encode_eq_pack_of_decode {w : CmdWord} {i : Instr} (h : decode w = .ok i) :
    encode i = pack (opField w) (wtField w) (b0Field w) (b1Field w) := by
  obtain ⟨hl, hh⟩ := reserved_eq_zero_of_decode h
  rw [decode, if_neg (by simp [hl, hh])] at h
  simp only at h
  split at h
  case h_9 => cases h
  all_goals
    rename_i hop
    obtain ⟨hunused, rfl⟩ := (whenUnused_eq_ok_iff _ _ _).mp h
    simp only [Bool.and_eq_true, beq_iff_eq] at hunused
    simp [encode, opField_eq_ofNat hop, hunused]

/-- Settles O2: every field of the word is the command's or is 0, and a word is its fields. -/
theorem decodedWordIsTheEncoding : Obligations.DecodedWordIsTheEncoding := by
  unfold Obligations.DecodedWordIsTheEncoding
  intro w i h
  obtain ⟨hl, hh⟩ := reserved_eq_zero_of_decode h
  rw [encode_eq_pack_of_decode h, pack_fields w hl hh]

/-- Every command's word has the fixed bits of its row of the opcode table. -/
theorem tableRow_statement (i : Instr) : Laws.TableRow.Statement i := by
  cases i with
  | nop => exact Laws.TableRow.nop
  | findAdf => exact Laws.TableRow.findAdf
  | findCc => exact Laws.TableRow.findCc
  | decodeVanc => exact Laws.TableRow.decodeVanc
  | decodeCdp => exact Laws.TableRow.decodeCdp
  | selectPair wt => exact Laws.TableRow.selectPair wt
  | feedPair b0 b1 => exact Laws.TableRow.feedPair b0 b1
  | processLine wt => exact Laws.TableRow.processLine wt

/-- The fields of a word under a mask (R60). -/
theorem fields_of_masked {w m v : CmdWord} (h : w &&& m = v) :
    opField w &&& opField m = opField v ∧ wtField w &&& wtField m = wtField v ∧
      reservedLow w &&& reservedLow m = reservedLow v ∧ b0Field w &&& b0Field m = b0Field v ∧
      b1Field w &&& b1Field m = b1Field v ∧ reservedHigh w &&& reservedHigh m = reservedHigh v := by
  subst h
  simp only [opField_and, wtField_and, reservedLow_and, b0Field_and, b1Field_and, reservedHigh_and, and_self]

/-- A mask of all ones fixes the field. -/
theorem eq_of_and_allOnes {n : Nat} {x v : BitVec n} (h : x &&& BitVec.allOnes n = v) : x = v :=
  BitVec.and_allOnes.symm.trans h

/-- A word with the fixed bits of a row that leaves `wt` open is packed from the row's opcode and its own `wt` (R62). -/
theorem eq_pack_of_masked_wt {w : CmdWord} {op : BitVec 4} (h : w &&& 0xFFFFFFCF = pack op 0 0 0) :
    w = pack op (wtField w) 0 0 := by
  obtain ⟨hop, -, hlow, hb0, hb1, hhigh⟩ := fields_of_masked h
  simp only [opField_pack, reservedLow_pack, b0Field_pack, b1Field_pack, reservedHigh_pack] at hop hlow hb0 hb1 hhigh
  have hw := pack_fields w (eq_of_and_allOnes hlow) (eq_of_and_allOnes hhigh)
  rw [eq_of_and_allOnes hop, eq_of_and_allOnes hb0, eq_of_and_allOnes hb1] at hw
  exact hw.symm

/-- The words of the row of FEED_PAIR are its words (R62). -/
theorem eq_encode_feedPair {w : CmdWord} (h : w &&& 0xFF0000FF = 0x00000006) :
    w = encode (.feedPair (b0Field w) (b1Field w)) := by
  obtain ⟨hop, hwt, hlow, -, -, hhigh⟩ := fields_of_masked h
  have hw := pack_fields w (eq_of_and_allOnes hlow) (eq_of_and_allOnes hhigh)
  rw [eq_of_and_allOnes hop, eq_of_and_allOnes hwt] at hw
  exact hw.symm

/-- A word with the fixed bits of a row of the opcode table is the word of a command of the row's mnemonic. -/
theorem exists_encode_of_row {w : CmdWord} {row : OpcodeRow} (hrow : row ∈ opcodeRows) (h : w &&& row.mask = row.value) :
    ∃ i, w = encode i ∧ mnemonic i = row.mnemonic := by
  simp only [opcodeRows, List.mem_cons, List.not_mem_nil, or_false] at hrow
  obtain rfl | rfl | rfl | rfl | rfl | rfl | rfl | rfl := hrow
  · exact ⟨.nop, eq_of_and_allOnes h, rfl⟩
  · exact ⟨.findAdf, eq_of_and_allOnes h, rfl⟩
  · exact ⟨.findCc, eq_of_and_allOnes h, rfl⟩
  · exact ⟨.decodeVanc, eq_of_and_allOnes h, rfl⟩
  · exact ⟨.decodeCdp, eq_of_and_allOnes h, rfl⟩
  · refine ⟨.selectPair (packetTypeOf (wtField w)), ?_, rfl⟩
    rw [encode, packetTypeCode_of]
    exact eq_pack_of_masked_wt h
  · exact ⟨_, eq_encode_feedPair h, rfl⟩
  · refine ⟨.processLine (packetTypeOf (wtField w)), ?_, rfl⟩
    rw [encode, packetTypeCode_of]
    exact eq_pack_of_masked_wt h

/-- Settles O3: a command's word has the bits of its row, and a word with a row's bits is a word of the row's command. -/
theorem decodeAgreesWithOpcodeTable : Obligations.DecodeAgreesWithOpcodeTable := by
  unfold Obligations.DecodeAgreesWithOpcodeTable
  intro w m
  constructor
  · rintro ⟨i, hi, rfl⟩
    obtain ⟨row, hmem, hmnemonic, hbits⟩ := tableRow_statement i
    rw [decodedWordIsTheEncoding w i hi] at hbits
    exact ⟨row, hmem, hmnemonic, hbits⟩
  · rintro ⟨row, hmem, rfl, hbits⟩
    obtain ⟨i, rfl, hmnemonic⟩ := exists_encode_of_row hmem hbits
    exact ⟨i, decode_encode i, hmnemonic⟩

/-- Settles O4: the eight words evaluate to their commands. -/
theorem writtenWordsDecode : Obligations.WrittenWordsDecode := by
  unfold Obligations.WrittenWordsDecode
  decide

/-- The words of the illegal list are those that are no command's (R63). -/
theorem exists_decode_iff (w : CmdWord) : (∃ i, decode w = .ok i) ↔ ¬ IllegalWord w := by
  have hw := w.isLt
  have hop : (opField w).toNat = w.toNat % 16 := by simp [opField, BitVec.extractLsb'_toNat]
  have hwt : wtField w = 0 ↔ w.toNat / 16 % 4 = 0 := by
    simp [wtField, BitVec.toNat_eq, BitVec.extractLsb'_toNat, Nat.shiftRight_eq_div_pow]
  have hlow : reservedLow w = 0 ↔ w.toNat / 64 % 4 = 0 := by
    simp [reservedLow, BitVec.toNat_eq, BitVec.extractLsb'_toNat, Nat.shiftRight_eq_div_pow]
  have hhigh : reservedHigh w = 0 ↔ w.toNat / 16777216 = 0 := by
    simp [reservedHigh, BitVec.toNat_eq, BitVec.extractLsb'_toNat, Nat.shiftRight_eq_div_pow]; omega
  have hbytes : b0Field w = 0 ∧ b1Field w = 0 ↔ w.toNat / 256 % 65536 = 0 := by
    simp [b0Field, b1Field, BitVec.toNat_eq, BitVec.extractLsb'_toNat, Nat.shiftRight_eq_div_pow]; omega
  by_cases hres : reservedLow w ≠ 0 ∨ reservedHigh w ≠ 0
  · rw [decode, if_pos hres]
    rw [Ne, Ne, hlow, hhigh] at hres
    simp only [IllegalWord, reduceCtorEq, exists_false, false_iff, not_not]
    omega
  rw [decode, if_neg hres]
  rw [Ne, Ne, hlow, hhigh] at hres
  simp only [IllegalWord]
  split
  case h_9 =>
    simp only [reduceCtorEq, exists_false, false_iff, not_not]
    simp only [imp_false] at *
    omega
  all_goals
    rename_i h
    simp only [whenUnused_isOk, Bool.and_eq_true, beq_iff_eq, hwt, hbytes]
    omega

end Sys2Proof.Proofs.CommandWord

/-! PROOF. What one pair does to the registers and answers, said once (44_eia608.md). -/

namespace Sys2Proof.Proofs.PairEffect

open Sys2Proof Sys2Proof.Machine Sys2Proof.Claims Sys2Proof.Proofs.Eia608

/-- A pair of raw bytes whose step keeps every register: null filler, a first code below 0x10 or in 0x15..0x17, or text
while channel 2 is active (R201, R205, R214). -/
def Ignored (p : Params) (c : CaptionLineState) (b0 b1 : Byte) : Prop :=
  (b0 = 0x80 ∧ b1 = 0x80) ∨ (deparity p b0).toNat < 0x10 ∨
    (0x15 ≤ (deparity p b0).toNat ∧ (deparity p b0).toNat ≤ 0x17) ∨
    (0x20 ≤ (deparity p b0).toNat ∧ c.activeChannel = .ch2)

/-- The tracked row after a flush: as it was, -1 after ENM, or the row the table gives the pair (R210, R211). -/
def RowAfterFlush (p : Params) (c : CaptionLineState) (c0 c1 : Code) (row : Int) : Prop :=
  row = c.trackedRow ∨ row = -1 ∨ ∃ k : Fin 15, rowLookup p c0 c1 = some k ∧ row = (k.val : Int)

/-- The registers and the answer that FEED_PAIR of `b0 b1` at time `t` can give from the registers `c`, a constructor for
each thing a pair can do (R200 to R215, R272). -/
inductive Effect (p : Params) (c : CaptionLineState) (b0 b1 : Byte) (t : Time) :
    CaptionLineState → Except Status FeedResult → Prop
  | turnedAway (ho : c.overflow = true) : Effect p c b0 b1 t c (.error .textOverflow)
  | overflows (ho : c.overflow = false) (hcap : p.textCap ≠ none) :
    Effect p c b0 b1 t { c with overflow := true } (.error .textOverflow)
  | ignored (h : Ignored p c b0 b1) : Effect p c b0 b1 t c (.ok ⟨false, none⟩)
  | channel2 (h : 0x18 ≤ (deparity p b0).toNat ∧ (deparity p b0).toNat ≤ 0x1F) :
    Effect p c b0 b1 t { c with activeChannel := .ch2 } (.ok ⟨false, none⟩)
  | text (codes : List Code) (h : 0x20 ≤ (deparity p b0).toNat) (hch : c.activeChannel = .ch1)
    (hlen : codes.length ≤ 2) (hcodes : ∀ x ∈ codes, 0x20 ≤ x.toNat)
    (hroom : withinCap p (c.accumulatedText ++ codes).length = true) :
    Effect p c b0 b1 t { c with accumulatedText := c.accumulatedText ++ codes } (.ok ⟨false, none⟩)
  | duplicate (h : IsControl1 (deparity p b0)) (hdup : c.lastControlPair = (deparity p b0, deparity p b1)) :
    Effect p c b0 b1 t { c with activeChannel := .ch1 } (.ok ⟨false, none⟩)
  | control (h : IsControl1 (deparity p b0)) :
    Effect p c b0 b1 t { c with activeChannel := .ch1, lastControlPair := (deparity p b0, deparity p b1) }
      (.ok ⟨false, none⟩)
  | space (h : IsControl1 (deparity p b0)) (hroom : withinCap p (c.accumulatedText ++ [0x20]).length = true) :
    Effect p c b0 b1 t
      { c with activeChannel := .ch1, lastControlPair := (deparity p b0, deparity p b1)
               accumulatedText := c.accumulatedText ++ [0x20] }
      (.ok ⟨false, none⟩)
  | flush (row : Int) (line : Option CompletedCaptionLine) (h : IsControl1 (deparity p b0))
    (hrow : RowAfterFlush p c (deparity p b0) (deparity p b1) row)
    (hline : Emits c.accumulatedText c.lineStartTime line) :
    Effect p c b0 b1 t
      { c with activeChannel := .ch1, lastControlPair := (deparity p b0, deparity p b1), accumulatedText := []
               lineStartTime := t, trackedRow := row }
      (.ok ⟨true, line⟩)

/-- What a flush emits is the trimmed old text with the old start time (R216, R218). -/
theorem emits_flush (c : CaptionLineState) (d : Nat) (t : Time) :
    Emits c.accumulatedText c.lineStartTime (flush c d t).2.2 := by
  refine ⟨fun h => by rw [flush_empty h], fun h => ?_⟩
  rw [flush_emits h]
  refine ⟨_, rfl, fun hms => ?_⟩
  obtain ⟨-, h, -⟩ | ⟨hover, -⟩ := stamp_cases c.lineStartTime d
  · exact h
  · omega

/-- Only a finite TEXT_CAP leaves a text no room (R28, R215). -/
theorem textCap_ne_none_of_withinCap {p : Params} {n : Nat} (h : withinCap p n = false) : p.textCap ≠ none := by
  intro hnone
  simp [withinCap, hnone] at h

section

variable {p : Params} {c : CaptionLineState} {b0 b1 : Byte} {t : Time}

/-- An append that has no room is the overflow, whatever it would have written (R215). -/
theorem effect_append {c' : CaptionLineState} {codes : List Code} (d : Nat) (ho : c.overflow = false)
    (hfits : withinCap p (c'.accumulatedText ++ codes).length = true →
      Effect p c b0 b1 t { c' with accumulatedText := c'.accumulatedText ++ codes } (.ok ⟨false, none⟩)) :
    Effect p c b0 b1 t (append p c c' d codes).capt (append p c c' d codes).result := by
  rw [List.length_append] at hfits
  cases hcap : withinCap p (c'.accumulatedText.length + codes.length) with
  | true =>
    rw [append_fits hcap]
    exact hfits hcap
  | false =>
    rw [append_overflows hcap]
    exact .overflows ho (textCap_ne_none_of_withinCap hcap)

theorem effect_feedPrintable (d : Nat) (ho : c.overflow = false) (hp : 0x20 ≤ (deparity p b0).toNat) :
    Effect p c b0 b1 t (feedPrintable p c d (deparity p b0) (deparity p b1)).capt
      (feedPrintable p c d (deparity p b0) (deparity p b1)).result := by
  cases hch : c.activeChannel with
  | ch1 =>
    rw [feedPrintable_ch1 hch]
    refine effect_append d ho fun hroom => .text _ hp hch ?_ ?_ hroom
    · split <;> simp
    · split <;> simp [*]
  | ch2 =>
    simp only [feedPrintable, hch]
    exact .ignored (.inr (.inr (.inr ⟨hp, hch⟩)))

theorem effect_feedControl1 (d : Nat) (ho : c.overflow = false) (hc : IsControl1 (deparity p b0)) :
    Effect p c b0 b1 t (feedControl1 p c d (deparity p b0) (deparity p b1) t).capt
      (feedControl1 p c d (deparity p b0) (deparity p b1) t).result := by
  by_cases hdup : c.lastControlPair = (deparity p b0, deparity p b1)
  · rw [feedControl1_duplicate hdup]
    exact .duplicate hc hdup
  cases hs : isSpacing (deparity p b0) (deparity p b1) with
  | true =>
    rw [feedControl1_spacing hdup hs]
    exact effect_append d ho fun hroom => .space hc hroom
  | false =>
    cases hf : isFlushCode (deparity p b0) (deparity p b1) with
    | true =>
      rw [feedControl1_flush hdup hs hf]
      refine .flush _ _ hc ?_ (emits_flush c d t)
      split
      · exact .inr (.inl rfl)
      · exact .inl rfl
    | false =>
      cases hrow : rowLookup p (deparity p b0) (deparity p b1) with
      | none =>
        rw [feedControl1_other hdup hs hf (.inl hrow)]
        exact .control hc
      | some k =>
        by_cases hk : (k.val : Int) = c.trackedRow
        · rw [feedControl1_other hdup hs hf (.inr ⟨k, hrow, hk⟩)]
          exact .control hc
        · rw [feedControl1_row hdup hs hf hrow hk]
          exact .flush _ _ hc (.inr (.inr ⟨k, hrow, rfl⟩)) (emits_flush c d t)

/-- FEED_PAIR has one of the effects (R200). -/
theorem effect_feedPair (p : Params) (c : CaptionLineState) (d : Nat) (b0 b1 : Byte) (t : Time) :
    Effect p c b0 b1 t (feedPair p c d b0 b1 t).capt (feedPair p c d b0 b1 t).result := by
  cases ho : c.overflow with
  | true =>
    rw [feedPair_overflow ho]
    exact .turnedAway ho
  | false =>
    by_cases hn : b0 = 0x80 ∧ b1 = 0x80
    · rw [feedPair_null ho hn]
      exact .ignored (.inl hn)
    rw [feedPair_live ho hn]
    obtain ⟨hprintable, hcontrol1, hcontrol2, hother⟩ := pairClass_iff (deparity p b0)
    cases hclass : pairClass (deparity p b0) with
    | printable => exact effect_feedPrintable d ho (hprintable.mp hclass)
    | control1 => exact effect_feedControl1 d ho (hcontrol1.mp hclass)
    | control2 => exact .channel2 (hcontrol2.mp hclass)
    | other => exact .ignored (.inr ((hother.mp hclass).imp_right .inl))

end

end Sys2Proof.Proofs.PairEffect

/-! PROOF. What any command does to the registers and answers, said once. -/

namespace Sys2Proof.Proofs.Commands

open Sys2Proof Sys2Proof.Machine Sys2Proof.Claims Sys2Proof.Proofs.Pipeline

/-! ## The stages of PROCESS_LINE from the selector on (R240) -/

section Stages

variable {p : Params} {words : List Word} {a : Nat} {v : VancPacket} {k : CdpPacket} {wt : PacketType} {d1 d2 : Byte}
  (c : CaptionLineState) (d : Nat) (t : Time)

/-- The record of a line's packet: as DECODE_CDP returns it, with the counter of the outer packet (R147). -/
def withLegacy (p : Params) (words : List Word) (a : Nat) (k : CdpPacket) : CdpPacket :=
  { k with sequenceCounterLegacy := legacyCounter p words a }

/-- The results of the stages up to the decoder, all completed (R240). -/
def decodedResult (a : Nat) (v : VancPacket) (k : CdpPacket) : PipelineResult :=
  ⟨some a, some v, some k, some (seqDiscrepancyOf k), none, none, none, none⟩

theorem processLine_of_select_none (ha : findCcIndex p words = some a) (hv : decodeVanc p words a = .ok v)
    (hk : decodeCdp p v.payload = .ok k) (hs : selectPair k wt = none) :
    processLine p c d words t wt =
      ⟨c, d, .ok, { decodedResult a v (withLegacy p words a k) with
                      pair := some none, fed := some false, flushed := some false }⟩ := by
  have hs' : selectPair (withLegacy p words a k) wt = none := hs
  unfold withLegacy at hs'
  simp only [processLine, ha, hv, hk, selectAndFeed, hs']
  rfl

theorem processLine_of_feed_ok {f : FeedResult} (ha : findCcIndex p words = some a) (hv : decodeVanc p words a = .ok v)
    (hk : decodeCdp p v.payload = .ok k) (hs : selectPair k wt = some (d1, d2))
    (hf : (feedPair p c d d1 d2 t).result = .ok f) :
    processLine p c d words t wt =
      ⟨(feedPair p c d d1 d2 t).capt, (feedPair p c d d1 d2 t).draws, .ok,
        { decodedResult a v (withLegacy p words a k) with
            pair := some (some (d1, d2)), fed := some true, flushed := some f.flushed, line := f.line }⟩ := by
  have hs' : selectPair (withLegacy p words a k) wt = some (d1, d2) := hs
  unfold withLegacy at hs'
  simp only [processLine, ha, hv, hk, selectAndFeed, hs', hf]
  rfl

theorem processLine_of_feed_error {e : Status} (ha : findCcIndex p words = some a) (hv : decodeVanc p words a = .ok v)
    (hk : decodeCdp p v.payload = .ok k) (hs : selectPair k wt = some (d1, d2))
    (hf : (feedPair p c d d1 d2 t).result = .error e) :
    processLine p c d words t wt =
      ⟨(feedPair p c d d1 d2 t).capt, (feedPair p c d d1 d2 t).draws, e,
        { decodedResult a v (withLegacy p words a k) with pair := some (some (d1, d2)) }⟩ := by
  have hs' : selectPair (withLegacy p words a k) wt = some (d1, d2) := hs
  unfold withLegacy at hs'
  simp only [processLine, ha, hv, hk, selectAndFeed, hs', hf]
  rfl

end Stages

/-- How far a line gets through the stages of PROCESS_LINE, a constructor for each place it can end (R240, R241). -/
inductive Reaches (p : Params) (c : CaptionLineState) (d : Nat) (words : List Word) (t : Time) (wt : PacketType) :
    PipelineStep → Prop
  | locateFails (ha : findCcIndex p words = none) : Reaches p c d words t wt ⟨c, d, .noPacketFound, .start⟩
  | unpackFails (a : Nat) (e : Status) (ha : findCcIndex p words = some a) (hv : decodeVanc p words a = .error e) :
    Reaches p c d words t wt ⟨c, d, e, { PipelineResult.start with adf := some a }⟩
  | decodeFails (a : Nat) (v : VancPacket) (e : Status) (ha : findCcIndex p words = some a)
    (hv : decodeVanc p words a = .ok v) (hk : decodeCdp p v.payload = .error e) :
    Reaches p c d words t wt ⟨c, d, e, { PipelineResult.start with adf := some a, vanc := some v }⟩
  | selectsNone (a : Nat) (v : VancPacket) (k : CdpPacket) (ha : findCcIndex p words = some a)
    (hv : decodeVanc p words a = .ok v) (hk : decodeCdp p v.payload = .ok k) (hs : selectPair k wt = none) :
    Reaches p c d words t wt
      ⟨c, d, .ok, { decodedResult a v (withLegacy p words a k) with
                      pair := some none, fed := some false, flushed := some false }⟩
  | feeds (a : Nat) (v : VancPacket) (k : CdpPacket) (d1 d2 : Byte) (f : FeedResult)
    (ha : findCcIndex p words = some a) (hv : decodeVanc p words a = .ok v) (hk : decodeCdp p v.payload = .ok k)
    (hs : selectPair k wt = some (d1, d2)) (hf : (feedPair p c d d1 d2 t).result = .ok f) :
    Reaches p c d words t wt
      ⟨(feedPair p c d d1 d2 t).capt, (feedPair p c d d1 d2 t).draws, .ok,
        { decodedResult a v (withLegacy p words a k) with
            pair := some (some (d1, d2)), fed := some true, flushed := some f.flushed, line := f.line }⟩
  | feedFails (a : Nat) (v : VancPacket) (k : CdpPacket) (d1 d2 : Byte) (e : Status)
    (ha : findCcIndex p words = some a) (hv : decodeVanc p words a = .ok v) (hk : decodeCdp p v.payload = .ok k)
    (hs : selectPair k wt = some (d1, d2)) (hf : (feedPair p c d d1 d2 t).result = .error e) :
    Reaches p c d words t wt
      ⟨(feedPair p c d d1 d2 t).capt, (feedPair p c d d1 d2 t).draws, e,
        { decodedResult a v (withLegacy p words a k) with pair := some (some (d1, d2)) }⟩

theorem reaches_processLine (p : Params) (c : CaptionLineState) (d : Nat) (words : List Word) (t : Time)
    (wt : PacketType) : Reaches p c d words t wt (processLine p c d words t wt) := by
  cases ha : findCcIndex p words with
  | none =>
    rw [processLine_of_findCc_none _ _ _ _ ha]
    exact .locateFails ha
  | some a =>
    cases hv : decodeVanc p words a with
    | error e =>
      rw [processLine_of_decodeVanc_error _ _ _ _ ha hv]
      exact .unpackFails a e ha hv
    | ok v =>
      cases hk : decodeCdp p v.payload with
      | error e =>
        rw [processLine_of_decodeCdp_error _ _ _ _ ha hv hk]
        exact .decodeFails a v e ha hv hk
      | ok k =>
        cases hs : selectPair k wt with
        | none =>
          rw [processLine_of_select_none _ _ _ ha hv hk hs]
          exact .selectsNone a v k ha hv hk hs
        | some pair =>
          obtain ⟨d1, d2⟩ := pair
          cases hf : (feedPair p c d d1 d2 t).result with
          | ok f =>
            rw [processLine_of_feed_ok _ _ _ ha hv hk hs hf]
            exact .feeds a v k d1 d2 f ha hv hk hs hf
          | error e =>
            rw [processLine_of_feed_error _ _ _ ha hv hk hs hf]
            exact .feedFails a v k d1 d2 e ha hv hk hs hf

/-! ## Any command -/

/-- The fields of an answer that report the result of the pair the command fed (R220, R240). -/
inductive Reports (f : FeedResult) : Instr → ResultFields → Prop
  | feedPair (b0 b1 : Byte) : Reports f (.feedPair b0 b1) (.feed f)
  | processLine (wt : PacketType) (r : PipelineResult) (hflushed : r.flushed = some f.flushed) (hline : r.line = f.line) :
    Reports f (.processLine wt) (.pipeline r)

/-- Whether a command feeds this pair: FEED_PAIR feeds its own, PROCESS_LINE the one it selects (R200, R240). -/
def Feeds (b0 b1 : Byte) (i : Instr) : Prop := i = .feedPair b0 b1 ∨ ∃ wt, i = .processLine wt

/-- The registers and draws a command leaves and the response it gives: it feeds no pair and keeps them, or it feeds one,
whose step gives them (R10, R61). -/
inductive Outcome (i : Instr) (s : State) : CaptionLineState → Nat → Response → Prop
  | keeps (st : Status) (f : ResultFields) (hst : st ≠ .textOverflow) (hw : ∀ w, st ≠ .illegalCommand w none) :
    Outcome i s s.capt s.draws ⟨st, f⟩
  | feeds (b0 b1 : Byte) (g : FeedResult) (f : ResultFields) (hi : Feeds b0 b1 i)
    (hg : (feedPair s.params s.capt s.draws b0 b1 s.operands.time).result = .ok g) (hf : Reports g i f) :
    Outcome i s (feedPair s.params s.capt s.draws b0 b1 s.operands.time).capt
      (feedPair s.params s.capt s.draws b0 b1 s.operands.time).draws ⟨.ok, f⟩
  | overflows (b0 b1 : Byte) (f : ResultFields) (hi : Feeds b0 b1 i)
    (hg : (feedPair s.params s.capt s.draws b0 b1 s.operands.time).result = .error .textOverflow) :
    Outcome i s (feedPair s.params s.capt s.draws b0 b1 s.operands.time).capt
      (feedPair s.params s.capt s.draws b0 b1 s.operands.time).draws ⟨.textOverflow, f⟩

/-- An error of DECODE_VANC does not stand for a word that is no command's. -/
theorem decodeVanc_error_ne_illegal {p : Params} {words : List Word} {a : Nat} {e : Status}
    (h : decodeVanc p words a = .error e) (w : CmdWord) : e ≠ .illegalCommand w none := by
  obtain ⟨-, h'⟩ | ⟨dc, -, ⟨-, h'⟩ | ⟨_, _, cs, -, -, -, ⟨-, -, h'⟩ | ⟨-, h'⟩⟩⟩ := decodeVanc_cases p words a
  all_goals
    rw [h'] at h
    cases h
  all_goals simp

/-- An error of DECODE_CDP does not stand for a word that is no command's: where it is IllegalCommand it names an operand. -/
theorem decodeCdp_error_ne_illegal {p : Params} {pay : List Byte} {e : Status} (h : decodeCdp p pay = .error e)
    (w : CmdWord) : e ≠ .illegalCommand w none := by
  obtain ⟨-, rfl⟩ | ⟨r, rfl⟩ := decodeCdp_error h <;> simp

/-- A command that writes its response alone keeps the registers. -/
theorem outcome_of_answer {i : Instr} {s : State} {st : Status} {f : ResultFields} (h : exec i s = .next (s.answer st f))
    (hst : st ≠ .textOverflow) (hw : ∀ w, st ≠ .illegalCommand w none) :
    ∃ c d r, exec i s = .next { s with capt := c, draws := d, responses := r :: s.responses } ∧ Outcome i s c d r :=
  ⟨_, _, _, h, .keeps st f hst hw⟩

theorem exec_outcome_feedPair (b0 b1 : Byte) (s : State) :
    ∃ c d r, exec (.feedPair b0 b1) s = .next { s with capt := c, draws := d, responses := r :: s.responses } ∧
      Outcome (.feedPair b0 b1) s c d r := by
  cases hg : (feedPair s.params s.capt s.draws b0 b1 s.operands.time).result with
  | ok g => exact ⟨_, _, _, exec_feedPair_ok s hg, .feeds b0 b1 g _ (.inl rfl) hg (.feedPair b0 b1)⟩
  | error e =>
    obtain ⟨rfl, -⟩ := feedPair_error hg
    exact ⟨_, _, _, exec_feedPair_error s hg, .overflows b0 b1 _ (.inl rfl) hg⟩

theorem exec_outcome_processLine (wt : PacketType) (s : State) :
    ∃ c d r, exec (.processLine wt) s = .next { s with capt := c, draws := d, responses := r :: s.responses } ∧
      Outcome (.processLine wt) s c d r := by
  refine ⟨_, _, _, exec_processLine s wt, ?_⟩
  have hreach := reaches_processLine s.params s.capt s.draws s.operands.line s.operands.time wt
  generalize processLine s.params s.capt s.draws s.operands.line s.operands.time wt = after at hreach ⊢
  cases hreach with
  | locateFails => exact .keeps _ _ (by simp) (by simp)
  | unpackFails a e _ hv => exact .keeps _ _ (decodeVanc_error_ne hv).2 (decodeVanc_error_ne_illegal hv)
  | decodeFails a v e _ _ hk => exact .keeps _ _ (decodeCdp_error_ne hk).2 (decodeCdp_error_ne_illegal hk)
  | selectsNone => exact .keeps _ _ (by simp) (by simp)
  | feeds a v k d1 d2 f _ _ _ _ hf => exact .feeds d1 d2 f _ (.inr ⟨wt, rfl⟩) hf (.processLine wt _ rfl rfl)
  | feedFails a v k d1 d2 e _ _ _ _ hf =>
    obtain ⟨rfl, -⟩ := feedPair_error hf
    exact .overflows d1 d2 _ (.inr ⟨wt, rfl⟩) hf

/-- A scan keeps the registers, whether it finds an index or not. -/
theorem outcome_of_scan {i : Instr} {s : State} {found : Option Nat} (h : exec i s = .next (answerScan s found)) :
    ∃ c d r, exec i s = .next { s with capt := c, draws := d, responses := r :: s.responses } ∧ Outcome i s c d r := by
  cases found with
  | none => exact outcome_of_answer h (by simp) (by simp)
  | some a => exact outcome_of_answer h (by simp) (by simp)

/-- Everything a command can do: it goes on, and has one of the outcomes. -/
theorem exec_outcome (i : Instr) (s : State) :
    ∃ c d r, exec i s = .next { s with capt := c, draws := d, responses := r :: s.responses } ∧ Outcome i s c d r := by
  cases i with
  | nop => exact outcome_of_answer rfl (by simp) (by simp)
  | findAdf => exact outcome_of_scan (exec_findAdf s)
  | findCc => exact outcome_of_scan (exec_findCc s)
  | decodeVanc =>
    cases hd : decodeVanc s.params s.operands.line s.operands.adf with
    | ok v => exact outcome_of_answer (exec_decodeVanc_ok s hd) (by simp) (by simp)
    | error e =>
      exact outcome_of_answer (exec_decodeVanc_error s hd) (decodeVanc_error_ne hd).2 (decodeVanc_error_ne_illegal hd)
  | decodeCdp =>
    cases hd : decodeCdp s.params s.operands.pay with
    | ok c => exact outcome_of_answer (exec_decodeCdp_ok s hd) (by simp) (by simp)
    | error e =>
      exact outcome_of_answer (exec_decodeCdp_error s hd) (decodeCdp_error_ne hd).2 (decodeCdp_error_ne_illegal hd)
  | selectPair wt => exact outcome_of_answer (exec_selectPair s wt) (by simp) (by simp)
  | feedPair b0 b1 => exact exec_outcome_feedPair b0 b1 s
  | processLine wt => exact exec_outcome_processLine wt s

/-! ## FEED_PAIR, from its answer -/

section

variable {s u : State} {b0 b1 : Byte}

/-- A FEED_PAIR that answers a result did what its step did, and the step gave that result. -/
theorem feedPair_of_exec_ok {f : FeedResult} (h : exec (.feedPair b0 b1) s = .next u)
    (hr : u.responses = ⟨.ok, .feed f⟩ :: s.responses) :
    (feedPair s.params s.capt s.draws b0 b1 s.operands.time).result = .ok f ∧
      u = (s.setCapt (feedPair s.params s.capt s.draws b0 b1 s.operands.time).capt
        (feedPair s.params s.capt s.draws b0 b1 s.operands.time).draws).answer .ok (.feed f) := by
  cases hg : (feedPair s.params s.capt s.draws b0 b1 s.operands.time).result with
  | ok g =>
    rw [exec_feedPair_ok s hg] at h
    cases h
    obtain rfl : g = f := by simpa using hr
    exact ⟨rfl, rfl⟩
  | error e =>
    rw [exec_feedPair_error s hg] at h
    cases h
    simp at hr

/-- A FEED_PAIR that answers with no field did what its step did, and the step gave that error. -/
theorem feedPair_of_exec_error {e : Status} (h : exec (.feedPair b0 b1) s = .next u)
    (hr : u.responses = ⟨e, .empty⟩ :: s.responses) :
    (feedPair s.params s.capt s.draws b0 b1 s.operands.time).result = .error e ∧
      u = (s.setCapt (feedPair s.params s.capt s.draws b0 b1 s.operands.time).capt
        (feedPair s.params s.capt s.draws b0 b1 s.operands.time).draws).answer e .empty := by
  cases hg : (feedPair s.params s.capt s.draws b0 b1 s.operands.time).result with
  | ok g =>
    rw [exec_feedPair_ok s hg] at h
    cases h
    simp at hr
  | error e' =>
    rw [exec_feedPair_error s hg] at h
    cases h
    obtain rfl : e' = e := by simpa using hr
    exact ⟨rfl, rfl⟩

end

end Sys2Proof.Proofs.Commands

/-! PROOF. The default de-parity table (10_state.md rule R26, 30_encoding.md section 3). -/

namespace Sys2Proof.Proofs.Parity

open Sys2Proof Sys2Proof.Machine

/-- The default table's entry of a byte (R26). -/
theorem deparity_defaultParams (b : Byte) : deparity defaultParams b = stripParity b := by
  simp [deparity, defaultParams, defaultDeparity]

theorem stripParity_parityEncode (c : Code) :
    oddParity (parityEncode c) = true ∧ stripParity (parityEncode c) = c := by
  revert c
  decide

theorem parityEncode_stripParity {b : Byte} (h : oddParity b = true) : parityEncode (stripParity b) = b := by
  revert b
  decide

/-- Settles O60: the default table strips the parity bit that the encoding adds. -/
theorem parityEncodingInvertsDeparity : Obligations.ParityEncodingInvertsDeparity := by
  unfold Obligations.ParityEncodingInvertsDeparity
  intro c
  rw [deparity_defaultParams]
  exact stripParity_parityEncode c

/-- The default table meets R26: on the bytes of odd parity the encoding inverts it. -/
theorem paramsLegal_defaultParams : ParamsLegal defaultParams where
  others_to_zero b hb := by simp [deparity_defaultParams, stripParity, hb]
  onto c := ⟨parityEncode c, parityEncodingInvertsDeparity c⟩
  one_to_one b b' hb hb' h := by
    rw [deparity_defaultParams, deparity_defaultParams] at h
    rw [← parityEncode_stripParity hb, h, parityEncode_stripParity hb']

end Sys2Proof.Proofs.Parity

/-! PROOF. The statements about FIND_CC and about what both scans read (40_locator.md section 2). -/

namespace Sys2Proof.Proofs.Scans

open Sys2Proof Sys2Proof.Machine Sys2Proof.Claims Sys2Proof.Proofs.Locator Sys2Proof.Proofs.Pipeline

/-- The model's test and the statements' caption header agree at every index (R102). -/
theorem isCcHeader_iff_captionHeaderAt (p : Params) (words : List Word) (i : Nat) :
    isCcHeader p words i = true ↔ CaptionHeaderAt p words i := by
  rw [isCcHeader_iff, isAdf_iff_flagAt, CaptionHeaderAt]

theorem isCcHeader_eq_false_iff (p : Params) (words : List Word) (i : Nat) :
    isCcHeader p words i = false ↔ ¬ CaptionHeaderAt p words i := by
  rw [← isCcHeader_iff_captionHeaderAt, Bool.not_eq_true]

/-- Settles O17: the scan's index is the first caption header's, and a scan writes nothing but its response. -/
theorem findCcReturnsTheFirstCaptionHeader : Obligations.FindCcReturnsTheFirstCaptionHeader := by
  unfold Obligations.FindCcReturnsTheFirstCaptionHeader
  refine fun s => ⟨fun i hheader hfirst => ?found, fun hnone => ?absent⟩
  case found =>
    have hindex : findCcIndex s.params s.operands.line = some i :=
      (firstIndex_eq_some_iff _ _ i).mpr
        ⟨lt_length_of_flagAt hheader.1, (isCcHeader_iff_captionHeaderAt _ _ i).mpr hheader,
          fun j hj => (isCcHeader_eq_false_iff _ _ j).mpr (hfirst j hj)⟩
    rw [exec_findCc, hindex, answerScan_some, State.answer]
  case absent =>
    have hindex : findCcIndex s.params s.operands.line = none :=
      (firstIndex_eq_none_iff _ _).mpr fun i _ => (isCcHeader_eq_false_iff _ _ i).mpr (hnone i)
    rw [exec_findCc, hindex, answerScan_none, State.answer]

/-- A scan reads for a first part of the line's indices, so with at most `b` reads for each it makes at most `b * L`. -/
theorem scanReads_bound {test : Nat → Bool} {reads : Nat → List Nat} {b m : Nat} (hb : ∀ k, (reads k).length ≤ b) :
    (∃ n, n ≤ m ∧ scanReads test reads (List.range m) = (List.range n).flatMap reads) ∧
      (scanReads test reads (List.range m)).length ≤ b * m := by
  obtain ⟨n, hn, he⟩ := exists_scanReads_range test reads m
  refine ⟨⟨n, hn, he⟩, ?_⟩
  rw [he, List.length_flatMap]
  calc ((List.range n).map fun k => (reads k).length).sum ≤ ((List.range n).map fun _ => b).sum :=
        List.sum_le_sum fun k _ => hb k
    _ = b * n := by simp [Nat.mul_comm]
    _ ≤ b * m := Nat.mul_le_mul_left b hn

/-- The response of a scan that found this. -/
def scanResponse : Option Nat → Response
  | some a => ⟨.ok, .adf (some a)⟩
  | none => ⟨.noPacketFound, .adf none⟩

theorem scanResponse_status (found : Option Nat) :
    (scanResponse found).status = .ok ∨ (scanResponse found).status = .noPacketFound := by
  cases found with
  | some a => exact .inl rfl
  | none => exact .inr rfl

theorem answerScan_eq_scanResponse (s : State) (found : Option Nat) :
    answerScan s found = { s with responses := scanResponse found :: s.responses } := by
  cases found with
  | some a => rfl
  | none => rfl

theorem answers_of_scan {i : Instr} {s : State} {found : Option Nat} (h : exec i s = .next (answerScan s found)) :
    Answers i s (scanResponse found) :=
  ⟨_, h, by rw [answerScan_eq_scanResponse]⟩

/-- Settles O18: each scan reads for a first part of the range, within the bounds of its test, and its index depends on
nothing else. -/
theorem locatorScansAreBounded : Obligations.LocatorScansAreBounded := by
  unfold Obligations.LocatorScansAreBounded
  rintro s i perIndex reads words (⟨rfl, rfl, rfl⟩ | ⟨rfl, rfl, rfl⟩)
  case inl =>
    have hbound : ∀ k, (isAdfReads words k).length ≤ 5 := fun k => (isAdfReads_bound words k).1.trans (by omega)
    obtain ⟨hfirst, htotal⟩ := scanReads_bound (test := isAdf words) (m := words.length) hbound
    refine ⟨hfirst, fun k => ⟨hbound k, (isAdfReads_bound words k).2⟩, htotal, scanResponse (findAdfIndex words),
      scanResponse_status _, answers_of_scan (exec_findAdf s), fun words' hagree => ?_⟩
    rw [findAdfIndex_congr hagree]
    exact answers_of_scan (exec_findAdf _)
  case inr =>
    have hbound : ∀ k, (isCcHeaderReads s.params words k).length ≤ 5 := fun k => (isCcHeaderReads_bound s.params words k).1
    obtain ⟨hfirst, htotal⟩ := scanReads_bound (test := isCcHeader s.params words) (m := words.length) hbound
    refine ⟨hfirst, fun k => ⟨hbound k, (isCcHeaderReads_bound s.params words k).2⟩, htotal,
      scanResponse (findCcIndex s.params words), scanResponse_status _, answers_of_scan (exec_findCc s),
      fun words' hagree => ?_⟩
    rw [findCcIndex_congr hagree]
    exact answers_of_scan (exec_findCc _)

end Sys2Proof.Proofs.Scans

/-! PROOF. The statements about DECODE_VANC (41_vanc_decoder.md). -/

namespace Sys2Proof.Proofs.VancDecoder

open Sys2Proof Sys2Proof.Machine Sys2Proof.Claims Sys2Proof.Proofs.Pipeline

/-- The payload's `k`-th byte is its word narrowed to bits 7..0 (R45). -/
theorem payload_getElem? {words : List Word} {i n k : Nat} (hk : k < n) {w : Word} (hw : words[i + k]? = some w) :
    ((wordsFrom words i n).map lowByte)[k]? = some (BitVec.ofNat 8 (w.toNat % 256)) := by
  rw [List.getElem?_map, wordsFrom_getElem? _ _ _ _ hk, hw, Option.map_some, Option.some_inj, ← lowByte_toNat,
    BitVec.ofNat_toNat, BitVec.setWidth_eq]

/-- The words from `i` on, `n` of them, as the statements count them. -/
theorem wordsFrom_eq_map_getD {words : List Word} {i n : Nat} (h : i + n ≤ words.length) :
    wordsFrom words i n = (List.range n).map fun k => words.getD (i + k) 0 := by
  apply List.ext_getElem?
  intro k
  by_cases hk : k < n
  · have hlt : i + k < words.length := by omega
    simp [wordsFrom_getElem? _ _ _ _ hk, hk, hlt]
  · simp [wordsFrom, hk]

/-- Nine bits with the inverse of bit 8 put before them, as a number (R125). -/
theorem inverse_bit8_append_toNat (x : BitVec 9) :
    (~~~ x.extractLsb' 8 1 ++ x).toNat = if x.toNat < 256 then x.toNat + 512 else x.toNat := by
  have hx := x.isLt
  rw [BitVec.toNat_append, ← Nat.shiftLeft_add_eq_or_of_lt hx, Nat.shiftLeft_eq, BitVec.toNat_not,
    BitVec.extractLsb'_toNat, Nat.shiftRight_eq_div_pow]
  split <;> omega

/-- The checksum word is the statements' number (R125). -/
theorem ancChecksum_toNat {words : List Word} {a dc : Nat} (h : a + 3 + (dc + 3) ≤ words.length) :
    (ancChecksum words a dc).toNat = checksumNumber words a dc := by
  have hsum : (BitVec.ofNat 9 ((wordsFrom words (a + 3) (dc + 3)).map fun w => w.toNat % 512).sum).toNat =
      sumFrom words (a + 3) (dc + 3) := by
    rw [BitVec.toNat_ofNat, wordsFrom_eq_map_getD h, List.map_map]
    rfl
  rw [ancChecksum, inverse_bit8_append_toNat, hsum]
  rfl

/-- The record of a packet that fits (R120). -/
theorem isPacketOf_record {words : List Word} {a : Nat} {did sdid dc cs : Word}
    (h : PacketAt words a did sdid dc cs) :
    IsPacketOf words a did sdid dc cs
      ⟨lowByte did, lowByte sdid, lowByte dc, (wordsFrom words (a + 6) (dc.toNat % 256)).map lowByte, cs.zeroExtend 16⟩ := by
  obtain ⟨-, -, -, hcs⟩ := h
  have hlt := lt_of_getElem?_word hcs
  have hcs10 := cs.isLt
  refine ⟨lowByte_toNat did, lowByte_toNat sdid, lowByte_toNat dc, ?checksum, ?length, fun k hk => ?byte⟩
  case checksum => exact (BitVec.toNat_setWidth 16 cs).trans (Nat.mod_eq_of_lt (by omega))
  case length => rw [List.length_map, wordsFrom_length (by omega)]
  case byte =>
    have hw := getElem?_wordAt (by omega : a + 6 + k < words.length)
    exact ⟨_, hw, payload_getElem? hk hw⟩

/-- Settles O19: the packet fits and its checksum is not in the way, so the answer is the record. -/
theorem decodeVancReturnsThePacket : Obligations.DecodeVancReturnsThePacket := by
  unfold Obligations.DecodeVancReturnsThePacket
  intro s did sdid dc cs hpacket hverified
  have ⟨h3, h4, h5, h6⟩ := hpacket
  have hlt := lt_of_getElem?_word h6
  have hpasses : ¬ (s.params.verifyChecksum = true ∧
      cs ≠ ancChecksum s.operands.line s.operands.adf (dc.toNat % 256)) := by
    rintro ⟨hverify, hne⟩
    obtain hoff | hright := hverified
    · simp [hoff] at hverify
    · exact hne (BitVec.eq_of_toNat_eq (by rw [hright, ancChecksum_toNat (by omega)]))
  have hdecode := decodeVanc_fits (p := s.params) h3 h4 h5 h6
  rw [if_neg hpasses] at hdecode
  exact ⟨_, exec_decodeVanc_ok s hdecode, isPacketOf_record hpacket⟩

/-- Settles O20: the two checks of R122 come first. -/
theorem decodeVancReportsTruncation : Obligations.DecodeVancReportsTruncation := by
  unfold Obligations.DecodeVancReportsTruncation
  intro s words a
  exact ⟨fun hheader => exec_decodeVanc_error s (decodeVanc_header_short hheader),
    fun dc hdc hpacket => exec_decodeVanc_error s (decodeVanc_packet_short hdc hpacket)⟩

/-- Settles O21: the packet fits, so the answer is the checksum's. -/
theorem decodeVancReportsChecksumMismatch : Obligations.DecodeVancReportsChecksumMismatch := by
  unfold Obligations.DecodeVancReportsChecksumMismatch
  rintro s did sdid dc cs ⟨h3, h4, h5, h6⟩ hverify hwrong
  have hlt := lt_of_getElem?_word h6
  have hsum := ancChecksum_toNat (words := s.operands.line) (a := s.operands.adf) (dc := dc.toNat % 256) (by omega)
  have hdecode := decodeVanc_fits (p := s.params) h3 h4 h5 h6
  rw [if_pos ⟨hverify, fun he => hwrong (by rw [← hsum, ← he])⟩] at hdecode
  exact ⟨_, hsum, exec_decodeVanc_error s hdecode⟩

/-- Words that agree in bits 7..0 narrow to the same bytes (R45). -/
theorem map_lowByte_congr {x y : List Word} {i n : Nat} (hlen : y.length = x.length)
    (hlow : ∀ (j : Nat) (w w' : Word), x[j]? = some w → y[j]? = some w' → w'.toNat % 256 = w.toNat % 256) :
    (wordsFrom x i n).map lowByte = (wordsFrom y i n).map lowByte := by
  apply List.ext_getElem?
  intro k
  by_cases hk : k < n
  · rw [List.getElem?_map, List.getElem?_map, wordsFrom_getElem? _ _ _ _ hk, wordsFrom_getElem? _ _ _ _ hk]
    by_cases hlt : i + k < x.length
    · have hx := getElem?_wordAt hlt
      have hy := getElem?_wordAt (hlen ▸ hlt)
      rw [hx, hy, Option.map_some, Option.map_some, Option.some_inj]
      exact BitVec.eq_of_toNat_eq (by rw [lowByte_toNat, lowByte_toNat, hlow _ _ _ hx hy])
    · rw [List.getElem?_eq_none (by omega), List.getElem?_eq_none (by omega)]
  · simp [wordsFrom, hk]

/-- Settles O22: the header and the checksum word are the same, and the payload narrows to the same bytes. -/
theorem payloadUpperBitsAreIgnored : Obligations.PayloadUpperBitsAreIgnored := by
  unfold Obligations.PayloadUpperBitsAreIgnored
  rintro s did sdid dc cs words' ⟨h3, h4, h5, h6⟩ hoff hlen hsame hlow
  have hfits := decodeVanc_fits (p := s.params) h3 h4 h5 h6
  have hfits' := decodeVanc_fits (p := s.params) ((hsame _ (by omega)).trans h3) ((hsame _ (by omega)).trans h4)
    ((hsame _ (by omega)).trans h5) ((hsame _ (by omega)).trans h6)
  rw [if_neg (by simp [hoff])] at hfits hfits'
  rw [← map_lowByte_congr hlen hlow] at hfits'
  exact ⟨_, (answers_iff_of_exec (exec_decodeVanc_ok s hfits)).mpr rfl,
    (answers_iff_of_exec (exec_decodeVanc_ok { s with operands := { s.operands with line := words' } } hfits')).mpr rfl⟩

end Sys2Proof.Proofs.VancDecoder

/-! PROOF. The statements about every command and every step, and the invariants (10_state.md, 70_reset_and_hazards.md). -/

namespace Sys2Proof.Proofs.Steps

open Sys2Proof Sys2Proof.Machine Sys2Proof.Claims Sys2Proof.Proofs.CommandWord Sys2Proof.Proofs.PairEffect
  Sys2Proof.Proofs.Commands Sys2Proof.Proofs.Scans

/-! ## Every command -/

/-- Settles O12: the effects of a command are an outcome's, and an outcome is registers, draws and one response. -/
theorem execAnswersOnceAndFrames : Obligations.ExecAnswersOnceAndFrames := by
  unfold Obligations.ExecAnswersOnceAndFrames
  intro i s
  obtain ⟨c, d, r, he, -⟩ := exec_outcome i s
  exact ⟨c, d, r, he⟩

/-- A command's answer, with the outcome that gave it. -/
theorem outcome_of_exec {i : Instr} {s t : State} (h : exec i s = .next t) :
    ∃ r, t.responses = r :: s.responses ∧ t.params = s.params ∧ Outcome i s t.capt t.draws r := by
  obtain ⟨c, d, r, he, ho⟩ := exec_outcome i s
  rw [he] at h
  cases h
  exact ⟨r, rfl, rfl, ho⟩

/-- Settles O13: an error is the answer of a command that keeps the registers, or TextOverflow. -/
theorem errorLeavesTheRegisters : Obligations.ErrorLeavesTheRegisters := by
  unfold Obligations.ErrorLeavesTheRegisters
  intro i s t r h hr hne
  obtain ⟨r', hr', -, ho⟩ := outcome_of_exec h
  obtain rfl : r' = r := by simpa [hr'] using hr
  generalize t.capt = c, t.draws = d at ho ⊢
  cases ho with
  | keeps st f hst => exact ⟨fun _ => rfl, fun h => absurd h hst⟩
  | feeds => exact absurd rfl hne
  | overflows b0 b1 f _ hg => exact ⟨fun h => absurd rfl h, fun _ => (feedPair_error hg).2.1⟩

/-- The commands of the stateless units (70_reset_and_hazards.md, serialization). -/
def Stateless (i : Instr) : Prop :=
  i = .nop ∨ i = .findAdf ∨ i = .findCc ∨ i = .decodeVanc ∨ i = .decodeCdp ∨ ∃ wt, i = .selectPair wt

/-- A stateless command's answer is given by the parameters and the operands. -/
theorem exec_of_stateless {i : Instr} (hi : Stateless i) (p : Params) (o : Operands) :
    ∃ r : Response, ∀ s : State, s.params = p → s.operands = o →
      exec i s = .next { s with responses := r :: s.responses } := by
  obtain rfl | rfl | rfl | rfl | rfl | ⟨wt, rfl⟩ := hi
  case inl => exact ⟨_, fun _ _ _ => rfl⟩
  case inr.inl =>
    exact ⟨scanResponse (findAdfIndex o.line), by rintro s rfl rfl; rw [exec_findAdf, answerScan_eq_scanResponse]⟩
  case inr.inr.inl =>
    exact ⟨scanResponse (findCcIndex p o.line), by rintro s rfl rfl; rw [exec_findCc, answerScan_eq_scanResponse]⟩
  case inr.inr.inr.inl =>
    cases h : decodeVanc p o.line o.adf with
    | error e => exact ⟨_, by rintro s rfl rfl; exact exec_decodeVanc_error s h⟩
    | ok v => exact ⟨_, by rintro s rfl rfl; exact exec_decodeVanc_ok s h⟩
  case inr.inr.inr.inr.inl =>
    cases h : decodeCdp p o.pay with
    | error e => exact ⟨_, by rintro s rfl rfl; exact exec_decodeCdp_error s h⟩
    | ok c => exact ⟨_, by rintro s rfl rfl; exact exec_decodeCdp_ok s h⟩
  case inr.inr.inr.inr.inr =>
    exact ⟨⟨.ok, .pair (selectPair o.cdp wt)⟩, by rintro s rfl rfl; exact exec_selectPair s wt⟩

/-- Settles O14: parameters and operands give the answer, so states that agree on them give the same. -/
theorem decodeCommandsReadAndWriteNoState : Obligations.DecodeCommandsReadAndWriteNoState := by
  unfold Obligations.DecodeCommandsReadAndWriteNoState
  intro i hi s s' hp ho
  obtain ⟨r, hr⟩ := exec_of_stateless hi s'.params s'.operands
  exact ⟨r, hr s hp ho, hr s' rfl rfl⟩

/-- Settles O15: NOP's arm answers and does nothing else. -/
theorem nopAnswersOk : Obligations.NopAnswersOk := by
  unfold Obligations.NopAnswersOk
  exact fun _ => rfl

/-! ## The step -/

/-- Settles O6: the step takes the operands and runs the command. -/
theorem stepRunsTheIssuedCommand : Obligations.StepRunsTheIssuedCommand := by
  unfold Obligations.StepRunsTheIssuedCommand
  intro s w ops rest i hpending hdecode
  simp only [step, hpending, hdecode, State.take]

theorem step_of_illegal {s : State} {w : CmdWord} {ops : Operands} {rest : List HostInput} {e : Illegal}
    (hpending : s.pending = .command w ops :: rest) (hdecode : decode w = .error e) :
    step s = .next { s with pending := rest, operands := ops
                            responses := ⟨.illegalCommand w none, .empty⟩ :: s.responses } := by
  simp only [step, hpending, hdecode, State.take, illegalWord_eq, State.answer]

/-- No command answers that a word is illegal (R244). -/
theorem status_ne_illegalCommand_of_answers {i : Instr} {s : State} {r : Response} (h : Answers i s r) (w : CmdWord) :
    r.status ≠ .illegalCommand w none := by
  obtain ⟨t, ht, hr⟩ := h
  obtain ⟨r', hr', -, ho⟩ := outcome_of_exec ht
  obtain rfl : r' = r := by simpa [hr'] using hr
  generalize t.capt = c, t.draws = d at ho
  cases ho with
  | keeps st f _ hw => exact hw w
  | feeds => simp
  | overflows => simp

/-- Settles O5: the listed words are those that decode to no command, and a command never answers IllegalCommand of a
word. -/
theorem illegalWordsAreAnsweredAndChangeNothing : Obligations.IllegalWordsAreAnsweredAndChangeNothing := by
  unfold Obligations.IllegalWordsAreAnsweredAndChangeNothing
  intro s w ops rest hpending
  refine ⟨fun hillegal => ?illegal, fun hlegal => ?legal⟩
  case illegal =>
    cases hdecode : decode w with
    | ok i => exact absurd hillegal ((exists_decode_iff w).mp ⟨i, hdecode⟩)
    | error e => exact step_of_illegal hpending hdecode
  case legal =>
    obtain ⟨i, hdecode⟩ := (exists_decode_iff w).mpr hlegal
    exact ⟨i, hdecode, stepRunsTheIssuedCommand s w ops rest i hpending hdecode,
      fun r hr => status_ne_illegalCommand_of_answers hr w⟩

/-- Settles O7: the reset values are those of a newly built core. -/
theorem resetSetsEveryField : Obligations.ResetSetsEveryField := by
  unfold Obligations.ResetSetsEveryField
  intro s rest hpending
  simp only [step, hpending, State.resetInstance, CaptionLineState.afterReset]

/-- Settles O8: a new core is built from the reset values. -/
theorem stateAfterReset : Obligations.StateAfterReset := by
  unfold Obligations.StateAfterReset
  exact ⟨fun _ => ⟨rfl, rfl, rfl, rfl⟩, rfl⟩

/-- Settles O9: the step has nothing to take. -/
theorem idleWithoutACommand : Obligations.IdleWithoutACommand := by
  unfold Obligations.IdleWithoutACommand
  intro s hpending
  simp only [step, hpending]

theorem step_of_breach {s : State} {d : HostDuty} {rest : List HostInput} (hpending : s.pending = .breach d :: rest) :
    step s = .fault (.hostDuty d) := by
  simp only [step, hpending]

/-- What a step does when the host's next input breaks no duty: it goes on, keeps the parameters, and either keeps the
registers, resets them, or feeds a pair. -/
theorem step_of_no_breach {s : State} (h : ∀ d rest, s.pending ≠ .breach d :: rest) :
    ∃ t, step s = .next t ∧ t.params = s.params ∧
      (t.capt = s.capt ∨ t.capt = .afterReset s.params ∨
        ∃ b0 b1 time result, Effect s.params s.capt b0 b1 time t.capt result) := by
  match hpending : s.pending with
  | [] => exact ⟨s, idleWithoutACommand s hpending, rfl, .inl rfl⟩
  | .reset :: rest => exact ⟨_, resetSetsEveryField s rest hpending, rfl, .inr (.inl rfl)⟩
  | .breach d :: rest => exact absurd hpending (h d rest)
  | .command w ops :: rest =>
    cases hdecode : decode w with
    | error e => exact ⟨_, step_of_illegal hpending hdecode, rfl, .inl rfl⟩
    | ok i =>
      obtain ⟨c, d, r, he, ho⟩ := exec_outcome i { s with pending := rest, operands := ops }
      refine ⟨_, (stepRunsTheIssuedCommand s w ops rest i hpending hdecode).trans he, rfl, ?_⟩
      cases ho with
      | keeps => exact .inl rfl
      | feeds b0 b1 => exact .inr (.inr ⟨b0, b1, _, _, effect_feedPair ..⟩)
      | overflows b0 b1 => exact .inr (.inr ⟨b0, b1, _, _, effect_feedPair ..⟩)

/-- Settles O10: a step without a breach goes on, and a breach is a fault. -/
theorem stepStopsOnlyOnHostBreach : Obligations.StepStopsOnlyOnHostBreach := by
  unfold Obligations.StepStopsOnlyOnHostBreach
  intro s
  by_cases hbreach : ∃ d rest, s.pending = .breach d :: rest
  · obtain ⟨d, rest, hpending⟩ := hbreach
    simp [step_of_breach hpending, hpending, eq_comm]
  · have hbreach : ∀ d rest, s.pending ≠ .breach d :: rest := fun d rest h => hbreach ⟨d, rest, h⟩
    obtain ⟨t, ht, -⟩ := step_of_no_breach hbreach
    simp [ht, hbreach]

/-- What a step that goes on did. -/
theorem step_cases {s t : State} (h : step s = .next t) :
    t.params = s.params ∧
      (t.capt = s.capt ∨ t.capt = .afterReset s.params ∨
        ∃ b0 b1 time result, Effect s.params s.capt b0 b1 time t.capt result) := by
  have hbreach : ∀ d rest, s.pending ≠ .breach d :: rest := by
    intro d rest hpending
    rw [step_of_breach hpending] at h
    cases h
  obtain ⟨t', ht', heffect⟩ := step_of_no_breach hbreach
  rw [ht'] at h
  cases h
  exact heffect

/-- Settles O11: neither a command nor a reset writes them. -/
theorem stepKeepsTheParameters : Obligations.StepKeepsTheParameters := by
  unfold Obligations.StepKeepsTheParameters
  exact fun s t h => (step_cases h).1

/-! ## The invariants -/

theorem withinCap_zero (p : Params) : withinCap p 0 = true := by
  unfold withinCap
  split <;> simp

theorem legal_afterReset (p : Params) : (CaptionLineState.afterReset p).Legal p where
  row := by simp [CaptionLineState.afterReset]
  text := by simp [CaptionLineState.afterReset]
  cap := withinCap_zero p
  pair := .inl rfl
  overflow := by simp [CaptionLineState.afterReset]

/-- A channel-1 control pair is a legal last control pair (R25). -/
theorem legal_pair_of_isControl1 {c0 c1 : Code} (h : IsControl1 c0) :
    (c0, c1) = (0, 0) ∨ (0x10 ≤ (c0, c1).1 ∧ (c0, c1).1 ≤ 0x14) :=
  .inr (by simp only [BitVec.le_def]; exact h)

theorem legal_row_of_rowAfterFlush {p : Params} {c : CaptionLineState} {c0 c1 : Code} {row : Int} (hc : c.Legal p)
    (h : RowAfterFlush p c c0 c1 row) : -1 ≤ row ∧ row ≤ 14 := by
  obtain rfl | rfl | ⟨k, -, rfl⟩ := h
  · exact hc.row
  · omega
  · omega

theorem isPrintable_append {x codes : List Code} (hx : ∀ y ∈ x, isPrintable y = true)
    (hcodes : ∀ y ∈ codes, 0x20 ≤ y.toNat) : ∀ y ∈ x ++ codes, isPrintable y = true := by
  simp only [List.mem_append]
  rintro y (hy | hy)
  · exact hx y hy
  · exact (isPrintable_iff y).mpr (hcodes y hy)

/-- No pair makes the registers illegal (10_state.md section 2). -/
theorem legal_of_effect {p : Params} {c c' : CaptionLineState} {b0 b1 : Byte} {t : Time} {result : Except Status FeedResult}
    (hc : c.Legal p) (h : Effect p c b0 b1 t c' result) : c'.Legal p := by
  have ⟨hrow, htext, hcap, hpair, hoverflow⟩ := hc
  cases h with
  | turnedAway => exact hc
  | overflows _ hfinite => exact ⟨hrow, htext, hcap, hpair, fun _ => hfinite⟩
  | ignored => exact hc
  | channel2 => exact ⟨hrow, htext, hcap, hpair, hoverflow⟩
  | text codes _ _ _ hcodes hroom => exact ⟨hrow, isPrintable_append htext hcodes, hroom, hpair, hoverflow⟩
  | duplicate => exact ⟨hrow, htext, hcap, hpair, hoverflow⟩
  | control hcontrol => exact ⟨hrow, htext, hcap, legal_pair_of_isControl1 hcontrol, hoverflow⟩
  | space hcontrol hroom =>
    exact ⟨hrow, isPrintable_append htext (by simp), hroom, legal_pair_of_isControl1 hcontrol, hoverflow⟩
  | flush row line hcontrol hafter =>
    exact ⟨legal_row_of_rowAfterFlush hc hafter, by simp, withinCap_zero p, legal_pair_of_isControl1 hcontrol, hoverflow⟩

/-- Settles O54: a step keeps the registers, resets them or feeds a pair, and each keeps them legal. -/
theorem stepKeepsTheMachineLegal : Obligations.StepKeepsTheMachineLegal := by
  unfold Obligations.StepKeepsTheMachineLegal
  rintro s t ⟨hparams, hcapt⟩ h
  obtain ⟨hp, hc⟩ := step_cases h
  refine ⟨by rwa [hp], ?_⟩
  rw [hp]
  obtain hc | hc | ⟨b0, b1, time, result, heffect⟩ := hc
  · rwa [hc]
  · rw [hc]
    exact legal_afterReset s.params
  · exact legal_of_effect hcapt heffect

/-- Settles O55: the default de-parity table meets its constraint, and the reset values are legal under any parameters. -/
theorem machineIsLegalAtReset : Obligations.MachineIsLegalAtReset := by
  unfold Obligations.MachineIsLegalAtReset
  exact ⟨Parity.paramsLegal_defaultParams, legal_afterReset defaultParams⟩

/-- The default table's rows 4 to 9 have control bytes above 0x14 (R27). -/
theorem ctrl_of_default_rows_4_to_9 :
    ∀ e ∈ defaultRowTable.toList, 4 ≤ e.row.val ∧ e.row.val ≤ 9 → 0x15 ≤ e.ctrl.toNat := by decide

/-- The default table gives a channel-1 control pair none of the rows 4 to 9 (90_conflicts.md C6). -/
theorem default_row_of_isControl1 {p : Params} {c0 c1 : Code} {k : Fin 15} (hp : p.rowTable = defaultRowTable)
    (hcontrol : IsControl1 c0) (h : rowLookup p c0 c1 = some k) : ¬ (4 ≤ k.val ∧ k.val ≤ 9) := by
  intro hk
  obtain ⟨before, e, after, htable, hcovers, rfl, -⟩ := (rowLookup_eq_some_iff p c0 c1 k).mp h
  have hctrl := ctrl_of_default_rows_4_to_9 e (by rw [← hp, htable]; simp) hk
  have hcode : e.ctrl.toNat = c0.toNat := ((Eia608.rowCovers_iff e c0 c1).mp hcovers).1
  have hle : c0.toNat ≤ 0x14 := hcontrol.2
  omega

/-- Settles O56: only a flush writes the row, and a flush's pair is a channel-1 control pair. -/
theorem defaultTableNeverTracksRows4To9 : Obligations.DefaultTableNeverTracksRows4To9 := by
  unfold Obligations.DefaultTableNeverTracksRows4To9
  intro s t htable hrow h
  obtain hc | hc | ⟨b0, b1, time, result, heffect⟩ := (step_cases h).2
  · rwa [hc]
  · rw [hc]
    simp [CaptionLineState.afterReset]
  · generalize t.capt = c at heffect ⊢
    cases heffect with
    | flush row line hcontrol hafter =>
      obtain rfl | rfl | ⟨k, hk, rfl⟩ := hafter
      · exact hrow
      · simp
      · have := default_row_of_isControl1 htable hcontrol hk
        simp only
        omega
    | _ => exact hrow

/-- What a command does to the registers: nothing, or the effect of a pair it feeds. -/
theorem effect_of_exec {i : Instr} {s t : State} (h : exec i s = .next t) :
    t.capt = s.capt ∨
      ∃ b0 b1 result, Feeds b0 b1 i ∧ Effect s.params s.capt b0 b1 s.operands.time t.capt result := by
  obtain ⟨-, ⟨hc, -⟩ | ⟨b0, b1, hi, hc, -⟩⟩ := exec_registers s h
  · exact .inl hc
  · exact .inr ⟨b0, b1, _, hi, hc ▸ effect_feedPair ..⟩

/-- Settles O57: a set overflow bit turns every pair away, and only a finite TEXT_CAP overflows. -/
theorem overflowIsClearedByResetOnly : Obligations.OverflowIsClearedByResetOnly := by
  unfold Obligations.OverflowIsClearedByResetOnly
  intro i s t h
  refine ⟨fun hset => ?sticky, fun hinfinite => ?infinite⟩
  case sticky =>
    obtain ⟨-, ⟨hc, -⟩ | ⟨b0, b1, -, hc, -⟩⟩ := exec_registers s h
    · exact hc
    · rw [hc, feedPair_overflow hset]
  case infinite =>
    obtain hc | ⟨b0, b1, result, -, heffect⟩ := effect_of_exec h
    · rw [hc]
    generalize t.capt = c at heffect ⊢
    cases heffect with
    | overflows _ hfinite => exact absurd hinfinite hfinite
    | _ => rfl

/-- Settles O44: of the effects of a pair, those that write the last control pair are a channel-1 control pair's. -/
theorem lastControlPairIsWrittenByControlOnly : Obligations.LastControlPairIsWrittenByControlOnly := by
  unfold Obligations.LastControlPairIsWrittenByControlOnly
  intro i s t h hne
  obtain hc | ⟨b0, b1, result, hi, heffect⟩ := effect_of_exec h
  · simp [hc] at hne
  suffices hwrites : IsControl1 (deparity s.params b0) ∧ t.capt.activeChannel = .ch1 ∧
      t.capt.lastControlPair = (deparity s.params b0, deparity s.params b1) by
    obtain ⟨hcontrol, hch, hpair⟩ := hwrites
    exact ⟨by rwa [hpair], hch, hi.imp_left fun hi => ⟨b0, b1, hi, hpair⟩⟩
  generalize t.capt = c at heffect hne ⊢
  cases heffect with
  | control hcontrol => exact ⟨hcontrol, rfl, rfl⟩
  | space hcontrol => exact ⟨hcontrol, rfl, rfl⟩
  | flush row line hcontrol => exact ⟨hcontrol, rfl, rfl⟩
  | _ => exact absurd rfl hne

/-- A pair after which the text is longer appended to it, on channel 1, and flushed nothing (R204, R208). -/
theorem appends_of_longer {p : Params} {c c' : CaptionLineState} {b0 b1 : Byte} {t : Time}
    {result : Except Status FeedResult} (h : Effect p c b0 b1 t c' result)
    (hlonger : c.accumulatedText.length < c'.accumulatedText.length) :
    c'.activeChannel = .ch1 ∧ c'.lineStartTime = c.lineStartTime ∧ c'.trackedRow = c.trackedRow ∧
      (∃ codes, c'.accumulatedText = c.accumulatedText ++ codes ∧ codes.length ≤ 2 ∧ ∀ x ∈ codes, 0x20 ≤ x.toNat) ∧
      result = .ok ⟨false, none⟩ := by
  cases h with
  | text codes _ hch hlen hcodes => exact ⟨hch, rfl, rfl, ⟨codes, rfl, hlen, hcodes⟩, rfl⟩
  | space => exact ⟨rfl, rfl, rfl, ⟨[0x20], rfl, by simp, by simp⟩, rfl⟩
  | flush => simp at hlonger
  | _ => exact absurd hlonger (lt_irrefl _)

/-- Settles O46: the command feeds a pair whose effect is an append, and its answer reports that pair's result. -/
theorem textGrowsOnChannel1Only : Obligations.TextGrowsOnChannel1Only := by
  unfold Obligations.TextGrowsOnChannel1Only
  intro i s t h hlonger
  obtain ⟨r, hr, -, ho⟩ := outcome_of_exec h
  generalize t.capt = c, t.draws = d at ho hlonger ⊢
  cases ho with
  | keeps => exact absurd hlonger (lt_irrefl _)
  | overflows b0 b1 f hi hg =>
    have heffect := effect_feedPair s.params s.capt s.draws b0 b1 s.operands.time
    obtain ⟨-, -, -, -, hresult⟩ := appends_of_longer heffect hlonger
    rw [hg] at hresult
    cases hresult
  | feeds b0 b1 g f hi hg hf =>
    have heffect := effect_feedPair s.params s.capt s.draws b0 b1 s.operands.time
    obtain ⟨hch, htime, hrow, htext, hresult⟩ := appends_of_longer heffect hlonger
    obtain rfl : g = ⟨false, none⟩ := Except.ok.inj (hg.symm.trans hresult)
    refine ⟨hch, htime, hrow, htext, ?_⟩
    cases hf with
    | feedPair b0 b1 => exact .inl ⟨⟨b0, b1, rfl⟩, hr⟩
    | processLine wt r hflushed hline => exact .inr ⟨⟨wt, rfl⟩, r, hr, hflushed, hline⟩

end Sys2Proof.Proofs.Steps

/-! PROOF. The remaining statements about the 608 state machine (44_eia608.md). -/

namespace Sys2Proof.Proofs.Pairs

open Sys2Proof Sys2Proof.Machine Sys2Proof.Claims Sys2Proof.Proofs.Eia608 Sys2Proof.Proofs.PairEffect
  Sys2Proof.Proofs.Commands

/-! ## One pair, its step written out -/

section Cases

variable {s : State} {b0 b1 : Byte}

/-- A pair that is answered OK with nothing flushed, from its step. -/
theorem exec_feedPair_of_quiet {c : CaptionLineState}
    (h : feedPair s.params s.capt s.draws b0 b1 s.operands.time = .quiet c s.draws) :
    exec (.feedPair b0 b1) s =
      .next { s with capt := c, responses := ⟨.ok, .feed ⟨false, none⟩⟩ :: s.responses } :=
  exec_feedPair_of_eq h

/-- A pair that overflows, from its step: the answer is TextOverflow alone (R215, R272). -/
theorem exec_feedPair_of_overflow {c : CaptionLineState}
    (h : feedPair s.params s.capt s.draws b0 b1 s.operands.time = ⟨c, s.draws, .error .textOverflow⟩) :
    exec (.feedPair b0 b1) s =
      .next { s with capt := c, responses := ⟨.textOverflow, .empty⟩ :: s.responses } := by
  rw [exec_feedPair_error s (e := .textOverflow) (by rw [h]), h, State.setCapt, State.answer]

theorem feedPair_of_control2 (h : Live s b0 b1)
    (hc : 0x18 ≤ (deparity s.params b0).toNat ∧ (deparity s.params b0).toNat ≤ 0x1F) :
    feedPair s.params s.capt s.draws b0 b1 s.operands.time = .quiet { s.capt with activeChannel := .ch2 } s.draws := by
  simp only [feedPair_live h.1 h.2, pairClass_control2 hc.1 hc.2]

end Cases

/-- A mid-row code and Flash-On are control pairs of channel 1 (R203, R208). -/
theorem isControl1_of_isSpacingPair {c0 c1 : Code} (h : IsSpacingPair c0 c1) : IsControl1 c0 := by
  unfold IsSpacingPair at h
  unfold IsControl1
  omega

/-- Settles O31: a code 0 is in the class that changes nothing, and null filler is turned to nothing before it. -/
theorem nullFillerChangesNothing : Obligations.NullFillerChangesNothing := by
  unfold Obligations.NullFillerChangesNothing
  rintro s b0 b1 hclear hnull
  by_cases hfiller : b0 = 0x80 ∧ b1 = 0x80
  · exact exec_feedPair_of_quiet (feedPair_null hclear hfiller)
  · obtain ⟨hzero, -⟩ := hnull.resolve_left hfiller
    exact exec_feedPair_of_quiet (feedPair_of_other ⟨hclear, hfiller⟩ (.inl (by simp [hzero])))

/-- Settles O34: on channel 2 the step of text is quiet and keeps the registers. -/
theorem channel2TextIsIgnored : Obligations.Channel2TextIsIgnored := by
  unfold Obligations.Channel2TextIsIgnored
  intro s b0 b1 hlive hprintable hch2
  refine exec_feedPair_of_quiet (c := s.capt) ?_
  rw [feedPair_of_printable hlive hprintable]
  simp only [feedPrintable, hch2]

/-- Settles O35: the step writes the channel alone. -/
theorem channel2ControlSetsTheChannelOnly : Obligations.Channel2ControlSetsTheChannelOnly := by
  unfold Obligations.Channel2ControlSetsTheChannelOnly
  intro s b0 b1 c0 hlive hlo hhi
  exact exec_feedPair_of_quiet (feedPair_of_control2 hlive ⟨hlo, hhi⟩)

/-- Settles O36: a duplicate's step writes the channel alone. -/
theorem duplicateControlSetsTheChannelOnly : Obligations.DuplicateControlSetsTheChannelOnly := by
  unfold Obligations.DuplicateControlSetsTheChannelOnly
  intro s b0 b1 c0 c1 hlive hcontrol hdup
  exact exec_feedPair_of_quiet ((feedPair_of_control1 hlive hcontrol).trans (feedControl1_duplicate hdup))

/-- The step of a spacing pair that is no duplicate is an append of one space (R208). -/
theorem feedPair_of_spacing {s : State} {b0 b1 : Byte} (hlive : Live s b0 b1)
    (hspacing : IsSpacingPair (deparity s.params b0) (deparity s.params b1))
    (hnew : s.capt.lastControlPair ≠ (deparity s.params b0, deparity s.params b1)) :
    feedPair s.params s.capt s.draws b0 b1 s.operands.time =
      append s.params s.capt
        { s.capt with activeChannel := .ch1, lastControlPair := (deparity s.params b0, deparity s.params b1) }
        s.draws [0x20] := by
  rw [feedPair_of_control1 hlive (isControl1_of_isSpacingPair hspacing),
    feedControl1_spacing hnew ((isSpacing_iff _ _).mpr hspacing)]

/-- Settles O37: the append of the space has room. -/
theorem spacingCodeAppendsASpace : Obligations.SpacingCodeAppendsASpace := by
  unfold Obligations.SpacingCodeAppendsASpace
  intro s b0 b1 c0 c1 hlive hspacing hnew hroom
  exact exec_feedPair_of_quiet ((feedPair_of_spacing hlive hspacing hnew).trans (append_fits hroom))

/-- Settles O41: the lookup finds no row, so the step writes the channel and the pair. -/
theorem otherControlSetsChannelAndPairOnly : Obligations.OtherControlSetsChannelAndPairOnly := by
  unfold Obligations.OtherControlSetsChannelAndPairOnly
  intro s b0 b1 c0 c1 hlive hcontrol hnew hspacing hflush hnone
  have hrow : rowLookup s.params c0 c1 = none := by
    simpa only [rowLookup_eq_none_iff, ← Bool.not_eq_true, rowCovers_iff] using hnone
  exact exec_feedPair_of_quiet ((feedPair_of_control1 hlive hcontrol).trans
    (feedControl1_other hnew (isSpacing_eq_false hspacing) (isFlushCode_eq_false hflush) (.inl hrow)))

/-- Settles O42: both kinds of append have no room, and such an append writes the overflow bit alone. -/
theorem overflowingAppendSetsOverflowOnly : Obligations.OverflowingAppendSetsOverflowOnly := by
  unfold Obligations.OverflowingAppendSetsOverflowOnly
  rintro s b0 b1 c0 c1 room hlive (⟨hprintable, hch1, hfull⟩ | ⟨hspacing, hnew, hfull⟩)
  · refine exec_feedPair_of_overflow ?_
    rw [feedPair_of_printable hlive hprintable, feedPrintable_ch1 hch1]
    exact append_overflows (by rw [← hfull]; split <;> rfl)
  · exact exec_feedPair_of_overflow ((feedPair_of_spacing hlive hspacing hnew).trans (append_overflows hfull))

/-- Settles O43: a set overflow bit turns the pair away. -/
theorem overflowIsSticky : Obligations.OverflowIsSticky := by
  unfold Obligations.OverflowIsSticky
  intro s b0 b1 hset
  exact exec_feedPair_of_overflow (feedPair_overflow hset)

/-! ## A pair answered OK, by its effect -/

/-- An OK answer of FEED_PAIR is its step's result, and has an effect (R200). -/
theorem effect_of_answered {s t : State} {b0 b1 : Byte} {f : FeedResult} (h : exec (.feedPair b0 b1) s = .next t)
    (hr : t.responses = ⟨.ok, .feed f⟩ :: s.responses) :
    Effect s.params s.capt b0 b1 s.operands.time t.capt (.ok f) := by
  obtain ⟨hg, rfl⟩ := feedPair_of_exec_ok h hr
  exact hg ▸ effect_feedPair ..

/-- Settles O40: of the effects answered OK, only the flush says it flushed, and it emits what a flush emits. -/
theorem flushEmitsTheTrimmedText : Obligations.FlushEmitsTheTrimmedText := by
  unfold Obligations.FlushEmitsTheTrimmedText
  intro s t b0 b1 f h hr
  have heffect := effect_of_answered h hr
  generalize t.capt = c at heffect ⊢
  cases heffect with
  | flush row line _ _ hline => exact ⟨fun _ => ⟨hline, rfl, rfl⟩, nofun⟩
  | _ => exact ⟨nofun, fun _ => ⟨rfl, rfl⟩⟩

/-- Settles O45: each effect answered OK has its class of first code, which says what it writes the channel to. -/
theorem activeChannelFollowsControlPairs : Obligations.ActiveChannelFollowsControlPairs := by
  unfold Obligations.ActiveChannelFollowsControlPairs
  intro s t b0 b1 f c0 hlive h hr
  have heffect := effect_of_answered h hr
  generalize t.capt = c at heffect ⊢
  cases heffect with
  | ignored hignored =>
    have hclass := hignored.resolve_left hlive.2
    rw [if_neg (by omega), if_neg (by omega)]
  | channel2 hc => rw [if_neg (by omega), if_pos hc]
  | text codes hc => rw [if_neg (by omega), if_neg (by omega)]
  | duplicate hc => exact (if_pos hc).symm
  | control hc => exact (if_pos hc).symm
  | space hc => exact (if_pos hc).symm
  | flush row line hc => exact (if_pos hc).symm

/-! ## After reset (70_reset_and_hazards.md) -/

/-- A channel-1 control pair is not the pair `(0, 0)` of the reset values. -/
theorem pair_ne_of_afterReset {p : Params} {c : CaptionLineState} {c0 c1 : Code} (hreset : c = .afterReset p)
    (hcontrol : IsControl1 c0) : c.lastControlPair ≠ (c0, c1) := by
  subst hreset
  intro h
  have hzero : c0 = 0 := (congrArg Prod.fst h).symm
  subst hzero
  exact absurd hcontrol.1 (by decide)

/-- Settles O47: the reset values hold no control pair to be a duplicate of, no row and no text. -/
theorem firstControlAfterResetIsNotSuppressed : Obligations.FirstControlAfterResetIsNotSuppressed := by
  unfold Obligations.FirstControlAfterResetIsNotSuppressed
  intro s b0 b1 c0 c1 hreset hlive hcontrol
  have hnew : s.capt.lastControlPair ≠ (c0, c1) := pair_ne_of_afterReset hreset hcontrol
  refine ⟨fun t f h hr => ?taken, fun k hrow hspacing hflush => ?flushes⟩
  case taken =>
    have heffect := effect_of_answered h hr
    have hlo : 0x10 ≤ (deparity s.params b0).toNat := hcontrol.1
    have hhi : (deparity s.params b0).toNat ≤ 0x14 := hcontrol.2
    generalize t.capt = c at heffect ⊢
    cases heffect with
    | ignored hignored =>
      have hclass := hignored.resolve_left hlive.2
      omega
    | channel2 hc => omega
    | text codes hc => omega
    | duplicate _ hdup => exact absurd hdup hnew
    | control => rfl
    | space => rfl
    | flush => rfl
  case flushes =>
    have htext : s.capt.accumulatedText = [] := by rw [hreset]; rfl
    have hnoRow : s.capt.trackedRow = -1 := by rw [hreset]; rfl
    have hstep := feedPair_of_control1 hlive hcontrol
    rw [feedControl1_row hnew (isSpacing_eq_false hspacing) (isFlushCode_eq_false hflush)
      (rowLookup_eq_some_of_rowIs hrow) (by omega), flush_empty (by rw [htext]; rfl), ← htext] at hstep
    exact exec_feedPair_of_eq hstep

end Sys2Proof.Proofs.Pairs

/-! PROOF. Trimming and stamping (44_eia608.md section 3). -/

namespace Sys2Proof.Proofs.TrimAndStamp

open Sys2Proof Sys2Proof.Machine

theorem dropWhile_isSpace_eq_self {x : List Code} (h : x.head? ≠ some 0x20) : x.dropWhile isSpace = x := by
  cases x with
  | nil => rfl
  | cons c x => exact List.dropWhile_cons_of_neg (by simpa using h)

/-- The text without its leading spaces is its trimmed text and spaces. -/
theorem exists_dropWhile_eq_trim_append (x : List Code) :
    ∃ n, x.dropWhile isSpace = trim x ++ List.replicate n 0x20 := by
  obtain ⟨n, hn⟩ := exists_replicate_dropWhile (x.dropWhile isSpace).reverse
  refine ⟨n, ?_⟩
  rw [trim, ← List.reverse_replicate, ← List.reverse_append, ← hn, List.reverse_reverse]

/-- The text is its trimmed text between spaces. -/
theorem exists_spaces_trim (x : List Code) :
    ∃ m n, x = List.replicate m 0x20 ++ trim x ++ List.replicate n 0x20 := by
  obtain ⟨m, hm⟩ := exists_replicate_dropWhile x
  obtain ⟨n, hn⟩ := exists_dropWhile_eq_trim_append x
  exact ⟨m, n, by rw [List.append_assoc, ← hn, ← hm]⟩

theorem getLast?_trim (x : List Code) : (trim x).getLast? ≠ some 0x20 := by
  rw [trim, List.getLast?_reverse]
  exact head?_dropWhile_isSpace _

/-- Removing the trailing spaces of a text leaves its first code, which is no space. -/
theorem head?_trim (x : List Code) : (trim x).head? ≠ some 0x20 := by
  obtain ⟨n, hn⟩ := exists_dropWhile_eq_trim_append x
  intro h
  apply head?_dropWhile_isSpace x
  rw [hn, List.head?_append, h, Option.some_or]

/-- A text with no outer space is trimmed already. -/
theorem trim_eq_self {x : List Code} (hhead : x.head? ≠ some 0x20) (hlast : x.getLast? ≠ some 0x20) : trim x = x := by
  rw [trim, dropWhile_isSpace_eq_self hhead, dropWhile_isSpace_eq_self (by rwa [List.head?_reverse]), List.reverse_reverse]

/-- Settles O48: each end's `dropWhile` removes spaces and leaves none, and a trimmed text has none to remove. -/
theorem trimRemovesOuterSpacesOnly : Obligations.TrimRemovesOuterSpacesOnly := by
  unfold Obligations.TrimRemovesOuterSpacesOnly
  exact fun x => ⟨exists_spaces_trim x, head?_trim x, getLast?_trim x, trim_eq_self (head?_trim x) (getLast?_trim x)⟩

/-- The rounding by its quotient: adding a half and taking the floor (R218). -/
theorem msOf_bounds (t : Time) :
    2 * t.den * msOf t ≤ 2000 * t.num + t.den ∧ 2000 * t.num + t.den < 2 * t.den * msOf t + 2 * t.den := by
  have hpos : 0 < 2 * t.den := Nat.mul_pos (by omega) t.den_pos
  exact ⟨Nat.mul_div_le _ _, Nat.lt_mul_div_succ _ hpos⟩

/-- Settles O49: the quotient's bounds, divided by twice the denominator. -/
theorem timestampIsTheNearestMillisecond : Obligations.TimestampIsTheNearestMillisecond := by
  unfold Obligations.TimestampIsTheNearestMillisecond
  intro t ms
  have hden : (0 : ℚ) < t.den := by exact_mod_cast t.den_pos
  obtain ⟨hlower, hupper⟩ := msOf_bounds t
  have hlower : 2 * (t.den : ℚ) * msOf t ≤ 2000 * t.num + t.den := by exact_mod_cast hlower
  have hupper : 2000 * (t.num : ℚ) + t.den < 2 * t.den * msOf t + 2 * t.den := by exact_mod_cast hupper
  constructor
  · rw [le_div_iff₀ hden]
    linarith
  · rw [div_lt_iff₀ hden]
    linarith

end Sys2Proof.Proofs.TrimAndStamp

/-! PROOF. The remaining statements about DECODE_CDP (42_cdp_decoder.md). -/

namespace Sys2Proof.Proofs.CdpRecords

open Sys2Proof Sys2Proof.Machine Sys2Proof.Claims Sys2Proof.Proofs.CdpDecoder Sys2Proof.Proofs.Pipeline

/-! ## The fields of a byte, as numbers (R73 to R80) -/

@[simp] theorem frameRateOf_toNat (b : Byte) : (frameRateOf b).toNat = b.toNat / 16 := by
  have hb := b.isLt
  rw [frameRateOf, BitVec.extractLsb'_toNat, Nat.shiftRight_eq_div_pow]
  omega

@[simp] theorem ccMarkerOf_toNat (b : Byte) : (ccMarkerOf b).toNat = b.toNat / 32 := by
  have hb := b.isLt
  rw [ccMarkerOf, BitVec.extractLsb'_toNat, Nat.shiftRight_eq_div_pow]
  omega

@[simp] theorem ccCountOf_toNat (b : Byte) : (ccCountOf b).toNat = b.toNat % 32 := by
  rw [ccCountOf, BitVec.extractLsb'_toNat, Nat.shiftRight_zero]

@[simp] theorem serviceCountOf_toNat (b : Byte) : (serviceCountOf b).toNat = b.toNat % 16 := by
  rw [serviceCountOf, BitVec.extractLsb'_toNat, Nat.shiftRight_zero]

/-- A byte's top bit is its quotient by 128. -/
theorem bit_seven (b : Byte) : bit b 7 = decide (b.toNat / 128 = 1) := by
  have hb := b.isLt
  rw [bit_eq, decide_eq_decide]
  omega

theorem bit_zero (b : Byte) : bit b 0 = decide (b.toNat % 2 = 1) := by
  rw [bit_eq, Nat.pow_zero, Nat.div_one]

/-! ## The service-info block (R152 to R155) -/

variable {p : Params} {pay : List Byte}

theorem isRecordAt_serviceRecordAt {r : Nat} (h : r + 7 ≤ pay.length) :
    IsRecordAt pay r (serviceRecordAt pay r h) := by
  refine ⟨_, getElem?_byteAt (by omega), bit_seven _, bit_eq _ 6, fun hsized => ?sized, fun hplain => ?plain,
    fun k => ?data⟩
  case sized =>
    have hsized : bit (byteAt pay r (by omega)) 6 = true := hsized
    refine ⟨by simp only [serviceRecordAt, if_pos hsized]; exact congrArg some (bit_eq _ 5), ?_⟩
    simp only [serviceRecordAt, if_pos hsized, BitVec.toNat_setWidth, BitVec.extractLsb'_toNat, Nat.shiftRight_zero]
    omega
  case plain =>
    have hplain : ¬ bit (byteAt pay r (by omega)) 6 = true := by simpa [serviceRecordAt] using hplain
    refine ⟨by simp only [serviceRecordAt, if_neg hplain], ?_⟩
    simp only [serviceRecordAt, if_neg hplain, BitVec.extractLsb'_toNat, Nat.shiftRight_zero]
  case data =>
    rw [getElem?_byteAt (by omega : r + 1 + k < pay.length)]
    simp [serviceRecordAt]

/-- The records of a block stand one after the other, seven bytes each. -/
theorem isBlockAt_of_fits {o : Nat} {m f : Byte} (hm : pay[o]? = some m) (hf : pay[o + 1]? = some f)
    (h : o + 2 + 7 * (serviceCountOf f).toNat ≤ pay.length) :
    ∃ b, decodeServiceInfo pay o = .ok b ∧ IsBlockAt pay o b := by
  refine ⟨_, decodeServiceInfo_fits hm hf h, hm, f, hf, bit_seven f, bit_eq f 6, bit_eq f 5, bit_eq f 4,
    serviceCountOf_toNat f, by simp, fun i hi => ?_⟩
  have hi' : i < (serviceCountOf f).toNat := by simpa using hi
  exact ⟨serviceRecordAt pay (o + 2 + 7 * i) (by omega), by simp [hi], isRecordAt_serviceRecordAt _⟩

/-- What a decoded block looked like. -/
theorem exists_of_decodeServiceInfo_ok {o : Nat} {b : ServiceInfoBlock} (h : decodeServiceInfo pay o = .ok b) :
    ∃ hfits : o + 2 + 7 * b.serviceCount.toNat ≤ pay.length,
      b.records = List.ofFn fun i : Fin b.serviceCount.toNat => serviceRecordAt pay (o + 2 + 7 * i) (by omega) := by
  by_cases hheader : pay.length < o + 2
  · rw [decodeServiceInfo_header_short hheader] at h
    cases h
  have hm := getElem?_byteAt (by omega : o < pay.length)
  have hf := getElem?_byteAt (by omega : o + 1 < pay.length)
  by_cases hrecords : pay.length < o + 2 + 7 * (serviceCountOf (byteAt pay (o + 1) (by omega))).toNat
  · rw [decodeServiceInfo_records_short hf hrecords] at h
    cases h
  · rw [decodeServiceInfo_fits hm hf (by omega)] at h
    cases h
    exact ⟨by simpa using hrecords, rfl⟩

theorem serviceInfoOf_absent {flags : CdpFlags} {o : Nat} (h : flags.svcInfoPresent = false) :
    serviceInfoOf pay flags o = .ok none := by
  rw [serviceInfoOf, if_neg (by simp [h])]

theorem serviceInfoOf_present {flags : CdpFlags} {o : Nat} (h : flags.svcInfoPresent = true) :
    serviceInfoOf pay flags o = (decodeServiceInfo pay o).map some := by
  rw [serviceInfoOf, if_pos h]

theorem svcInfoPresent_cdpFlagsOf (fl : Byte) : (cdpFlagsOf fl).svcInfoPresent = decide (fl.toNat / 32 % 2 = 1) :=
  bit_eq fl 5

/-! ## The record (R140, R157) -/

section Header

variable {len fr fl s1 s2 sec mc : Byte}

/-- A payload that passes every check before the service-info block, and whose block is `svc`, decodes to its header and
footer fields, its triplets and that block. -/
theorem decodeCdp_of_serviceInfo {svc : Option ServiceInfoBlock}
    (hp : HeaderIs pay p.cdpMarker1 p.cdpMarker2 len fr fl s1 s2 sec mc) (hl : pay.length ≤ 255)
    (h : 9 + 3 * (ccCountOf mc).toNat ≤ pay.length) (hf : pay[pay.length - 4]? = some p.cdpFooterId)
    (hs : serviceInfoOf pay (cdpFlagsOf fl) (9 + 3 * (ccCountOf mc).toNat) = .ok svc) :
    ∃ c, decodeCdp p pay = .ok c ∧ HeaderFieldsOf pay p.cdpMarker1 p.cdpMarker2 len fr fl s1 s2 sec mc c ∧
      c.serviceInfo = svc ∧ c.ccPackets = ccUnits pay (ccCountOf mc).toNat h := by
  obtain ⟨rest, hp⟩ := hp
  have hdecode := decodeCdp_passes hp hl rfl rfl h hf
  rw [hs] at hdecode
  refine ⟨_, hdecode, ?_, rfl, rfl⟩
  refine ⟨rfl, rfl, rfl, frameRateOf_toNat fr, bit_seven fl, bit_eq fl 6, bit_eq fl 5, bit_eq fl 4, bit_eq fl 3, bit_eq fl 2,
    bit_eq fl 1, bit_zero fl, bigEndian_toNat s1 s2, rfl, rfl, ccMarkerOf_toNat mc, ccCountOf_toNat mc, hf, ?_⟩
  exact ⟨_, _, getElem?_byteAt _, getElem?_byteAt _, bigEndian_toNat _ _⟩

/-- A payload whose service-info block does not fit is SHORT (R153, R154). -/
theorem decodeCdp_of_block_short (hp : HeaderIs pay p.cdpMarker1 p.cdpMarker2 len fr fl s1 s2 sec mc)
    (hl : pay.length ≤ 255) (h : 9 + 3 * (ccCountOf mc).toNat ≤ pay.length)
    (hf : pay[pay.length - 4]? = some p.cdpFooterId) (hflag : (cdpFlagsOf fl).svcInfoPresent = true)
    (hs : decodeServiceInfo pay (9 + 3 * (ccCountOf mc).toNat) = .error (.malformedCdp .short)) :
    decodeCdp p pay = .error (.malformedCdp .short) := by
  obtain ⟨rest, hp⟩ := hp
  rw [decodeCdp_passes hp hl rfl rfl h hf, serviceInfoOf_present hflag, hs]
  rfl

end Header

/-- Settles O24: with the flag clear there is no block, and the record is built from the header and the footer. -/
theorem decodeCdpReturnsTheFields : Obligations.DecodeCdpReturnsTheFields := by
  unfold Obligations.DecodeCdpReturnsTheFields
  intro s len fr fl s1 s2 sec mc hheader hlength hunits hfooter hflag
  rw [← ccCountOf_toNat] at hunits
  obtain ⟨c, hdecode, hfields, hnone, -⟩ := decodeCdp_of_serviceInfo hheader hlength hunits hfooter
    (serviceInfoOf_absent (by simp [svcInfoPresent_cdpFlagsOf, hflag]))
  exact ⟨c, exec_decodeCdp_ok s hdecode, hfields, hnone⟩

/-- Settles O26: each check, when those before it pass, is the one that answers. -/
theorem decodeCdpFailsInOrder : Obligations.DecodeCdpFailsInOrder := by
  unfold Obligations.DecodeCdpFailsInOrder
  intro s pay fails
  have answer : ∀ {e}, decodeCdp s.params pay = .error e → fails e := fun h => exec_decodeCdp_error s h
  refine ⟨fun hlong => answer (decodeCdp_too_long hlong), fun hshort => answer (decodeCdp_header_short hshort), ?_⟩
  rintro m1 m2 len fr fl s1 s2 sec mc ⟨rest, hp⟩ hlength
  refine ⟨fun hmarkers => answer (decodeCdp_markers hp hlength hmarkers), fun h1 h2 => ?_⟩
  rw [← ccCountOf_toNat]
  exact ⟨fun hunits => answer (decodeCdp_units_short hp hlength h1 h2 hunits),
    fun hunits hfooter => answer (decodeCdp_footer hp hlength h1 h2 hunits hfooter)⟩

/-- Settles O27: with the flag set the block's two checks decide, and a block that fits is the statements' block. -/
theorem decodeCdpDecodesServiceInfo : Obligations.DecodeCdpDecodesServiceInfo := by
  unfold Obligations.DecodeCdpDecodesServiceInfo
  intro s len fr fl s1 s2 sec mc hheader hlength hunits hfooter hflag o short
  have hpresent : (cdpFlagsOf fl).svcInfoPresent = true := by simp [svcInfoPresent_cdpFlagsOf, hflag]
  have ho : o = 9 + 3 * (ccCountOf mc).toNat := by rw [ccCountOf_toNat]
  rw [← ccCountOf_toNat] at hunits
  have answerShort : decodeServiceInfo s.operands.pay o = .error (.malformedCdp .short) → short := by
    rw [ho]
    exact fun h => exec_decodeCdp_error s (decodeCdp_of_block_short hheader hlength hunits hfooter hpresent h)
  refine ⟨fun hshort => answerShort (decodeServiceInfo_header_short hshort), fun f hf => ?_⟩
  rw [← serviceCountOf_toNat]
  refine ⟨fun hshort => answerShort (decodeServiceInfo_records_short hf hshort), fun hfits => ?_⟩
  have hm := getElem?_byteAt (by omega : o < s.operands.pay.length)
  obtain ⟨b, hb, hblock⟩ := isBlockAt_of_fits hm hf hfits
  obtain ⟨c, hdecode, hfields, hsvc, -⟩ := decodeCdp_of_serviceInfo hheader hlength hunits hfooter (svc := some b)
    (by rw [serviceInfoOf_present hpresent, ← ho, hb]; rfl)
  exact ⟨c, b, exec_decodeCdp_ok s hdecode, hfields, hsvc, hblock⟩

/-! ## The round trip of the units (R158) -/

/-- The first byte of a unit laid out: its marker, its valid bit and its type (R76, R77). -/
def unitHead (u : CcDataUnit) : Byte :=
  BitVec.ofNat 8 (u.marker.toNat + (if u.valid then 4 else 0) + (packetTypeCode u.packetType).toNat)

theorem unitHead_toNat {u : CcDataUnit} (h : u.marker.toNat % 8 = 0) :
    (unitHead u).toNat = u.marker.toNat + (if u.valid then 4 else 0) + (packetTypeCode u.packetType).toNat := by
  have hm := u.marker.isLt
  have ht := (packetTypeCode u.packetType).isLt
  rw [unitHead, BitVec.toNat_ofNat]
  apply Nat.mod_eq_of_lt
  split <;> omega

/-- The decoder's unit of the three bytes of a unit laid out is that unit. -/
theorem ccUnit_unitHead {u : CcDataUnit} (h : u.marker.toNat % 8 = 0) : ccUnit (unitHead u) u.data1 u.data2 = u := by
  have hx := unitHead_toNat h
  have ht := (packetTypeCode u.packetType).isLt
  have hmarker : unitHead u &&& 0xF8 = u.marker := by
    apply BitVec.eq_of_toNat_eq
    rw [and_0xF8_toNat, hx]
    split <;> omega
  have hvalid : bit (unitHead u) 2 = u.valid := by
    rw [bit_eq, hx]
    cases u.valid <;> simp <;> omega
  have htype : (unitHead u).extractLsb' 0 2 = packetTypeCode u.packetType := by
    apply BitVec.eq_of_toNat_eq
    rw [BitVec.extractLsb'_toNat, hx, Nat.shiftRight_zero]
    split <;> omega
  rw [ccUnit, hmarker, hvalid, htype, packetTypeOf_code]

/-- Blocks of three, laid end to end: the `j`-th byte of the `i`-th. -/
theorem getElem?_flatMap_three {α β : Type} {f : α → List β} (hf : ∀ a, (f a).length = 3) {l : List α} {i : Nat} {a : α}
    (hi : l[i]? = some a) {j : Nat} (hj : j < 3) : (l.flatMap f)[3 * i + j]? = (f a)[j]? := by
  induction l generalizing i with
  | nil => cases hi
  | cons b l ih =>
    rw [List.flatMap_cons]
    cases i with
    | zero =>
      obtain rfl : b = a := by simpa using hi
      rw [List.getElem?_append_left (by rw [hf]; omega)]
      simp
    | succ i =>
      rw [List.getElem?_append_right (by rw [hf]; omega), hf, show 3 * (i + 1) + j - 3 = 3 * i + j by omega]
      exact ih hi

/-- The three bytes of a unit laid out (R158). -/
def unitBytes (u : CcDataUnit) : List Byte := [unitHead u, u.data1, u.data2]

theorem length_flatMap_unitBytes (units : List CcDataUnit) : (units.flatMap unitBytes).length = 3 * units.length := by
  simp [List.length_flatMap, unitBytes, Nat.mul_comm]

/-- The units of a payload that lays them out after nine bytes are these units. -/
theorem ccUnits_of_layout {head tail : List Byte} {units : List CcDataUnit} {cc : Nat} (hhead : head.length = 9)
    (hmarkers : ∀ u ∈ units, u.marker.toNat % 8 = 0) (hp : pay = head ++ units.flatMap unitBytes ++ tail)
    (hcc : cc = units.length) (h : 9 + 3 * cc ≤ pay.length) : ccUnits pay cc h = units := by
  subst hcc
  have hbytes := length_flatMap_unitBytes units
  apply List.ext_getElem?
  intro i
  by_cases hi : i < units.length
  swap
  · rw [List.getElem?_eq_none (by rw [ccUnits_length]; omega), List.getElem?_eq_none (by omega)]
  have hu := List.getElem?_eq_getElem hi
  have hbyte : ∀ j k, j < 3 → k = 9 + (3 * i + j) → pay[k]? = (unitBytes units[i])[j]? := by
    rintro j k hj rfl
    rw [hp, List.append_assoc, List.getElem?_append_right (by omega), List.getElem?_append_left (by omega),
      show 9 + (3 * i + j) - head.length = 3 * i + j by omega, getElem?_flatMap_three (fun _ => rfl) hu hj]
  have h0 : pay[9 + 3 * i]? = some (unitHead units[i]) := hbyte 0 _ (by omega) (by omega)
  have h1 : pay[10 + 3 * i]? = some units[i].data1 := hbyte 1 _ (by omega) (by omega)
  have h2 : pay[11 + 3 * i]? = some units[i].data2 := hbyte 2 _ (by omega) (by omega)
  rw [ccUnits_getElem? _ h i hi, hu, byteAt_of_getElem? _ h0, byteAt_of_getElem? _ h1, byteAt_of_getElem? _ h2,
    ccUnit_unitHead (hmarkers _ (List.getElem_mem hi))]

/-- Settles O28: the payload passes every check, and its triplets are the units' bytes. -/
theorem cdpUnitsRoundTrip : Obligations.CdpUnitsRoundTrip := by
  unfold Obligations.CdpUnitsRoundTrip
  intro s units len fr fl s1 s2 sec mc tail hmarkers hcount hflag htail hfooter hp hlength
  have hp : s.operands.pay = [s.params.cdpMarker1, s.params.cdpMarker2, len, fr, fl, s1, s2, sec, mc] ++
      units.flatMap unitBytes ++ tail := hp
  have hcc : (ccCountOf mc).toNat = units.length := by rw [ccCountOf_toNat, hcount]
  have hpayLength : s.operands.pay.length = 9 + 3 * units.length + tail.length := by
    rw [hp, List.length_append, List.length_append, length_flatMap_unitBytes]
    rfl
  have hpayFooter : s.operands.pay[s.operands.pay.length - 4]? = some s.params.cdpFooterId := by
    rw [hpayLength, hp, List.getElem?_append_right (by rw [List.length_append, length_flatMap_unitBytes]; simp; omega),
      List.length_append, length_flatMap_unitBytes, ← hfooter]
    congr 1
    simp only [List.length_cons, List.length_nil]
    omega
  obtain ⟨c, hdecode, -, -, hunits⟩ := decodeCdp_of_serviceInfo (p := s.params)
    ⟨units.flatMap unitBytes ++ tail, by rw [hp]; rfl⟩ hlength (by omega) hpayFooter
    (serviceInfoOf_absent (by simp [svcInfoPresent_cdpFlagsOf, hflag]))
  exact ⟨c, exec_decodeCdp_ok s hdecode, by rw [hunits, ccUnits_of_layout rfl hmarkers hp hcc]⟩

/-! ## Well-formed records (R120, R140) -/

theorem ccUnit_wf (x0 x1 x2 : Byte) : (ccUnit x0 x1 x2).wf = true := by
  simp [CcDataUnit.wf, ccUnit, BitVec.and_assoc]

theorem serviceRecordAt_wf {r : Nat} (h : r + 7 ≤ pay.length) : (serviceRecordAt pay r h).wf = true := by
  obtain ⟨y0, -, -, -, hsized, hplain, -⟩ := isRecordAt_serviceRecordAt h
  cases hs : (serviceRecordAt pay r h).sizeFlag with
  | true =>
    obtain ⟨hreserved, hnumber⟩ := hsized hs
    have : y0.toNat % 32 < 32 := Nat.mod_lt _ (by omega)
    simp [ServiceRecord.wf, hs, hreserved, hnumber, this]
  | false =>
    obtain ⟨hreserved, -⟩ := hplain hs
    simp [ServiceRecord.wf, hs, hreserved]

theorem serviceInfoBlock_wf_of_decode {o : Nat} {b : ServiceInfoBlock} (h : decodeServiceInfo pay o = .ok b) :
    b.wf = true := by
  obtain ⟨hfits, hrecords⟩ := exists_of_decodeServiceInfo_ok h
  simp [ServiceInfoBlock.wf, hrecords, serviceRecordAt_wf]

/-- The block of a decoded payload is there exactly when its flag is set, and is well formed (R152). -/
theorem serviceInfo_wf_of_ok {flags : CdpFlags} {o : Nat} {svc : Option ServiceInfoBlock}
    (h : serviceInfoOf pay flags o = .ok svc) : svc.isSome = flags.svcInfoPresent ∧ svc.all ServiceInfoBlock.wf = true := by
  cases hflag : flags.svcInfoPresent with
  | false =>
    rw [serviceInfoOf_absent hflag] at h
    cases h
    exact ⟨rfl, rfl⟩
  | true =>
    rw [serviceInfoOf_present hflag] at h
    cases hb : decodeServiceInfo pay o with
    | error e => rw [hb] at h; cases h
    | ok b =>
      rw [hb] at h
      cases h
      exact ⟨rfl, by simpa using serviceInfoBlock_wf_of_decode hb⟩

theorem cdpPacket_wf_of_decode {c : CdpPacket} (h : decodeCdp p pay = .ok c) : c.wf = true := by
  obtain ⟨len, fr, fl, s1, s2, sec, mc, rest, hunits, svc, -, -, -, hs, rfl⟩ := decodeCdp_ok h
  obtain ⟨hpresent, hwf⟩ := serviceInfo_wf_of_ok hs
  simp only [CdpPacket.wf, Bool.and_eq_true, beq_iff_eq]
  exact ⟨⟨⟨ccUnits_length _ hunits, by simp [ccUnits, ccUnit_wf]⟩, hpresent⟩, hwf⟩

theorem vancPacket_wf_of_decode {words : List Word} {a : Nat} {v : VancPacket} (h : decodeVanc p words a = .ok v) :
    v.wf = true := by
  obtain ⟨-, h'⟩ | ⟨dc, h5, ⟨-, h'⟩ | ⟨did, sdid, cs, h3, h4, h6, ⟨-, -, h'⟩ | ⟨-, h'⟩⟩⟩ := decodeVanc_cases p words a
  all_goals
    rw [h'] at h
    cases h
  have hcs := cs.isLt
  obtain ⟨-, -, hcount, hchecksum, hlength, -⟩ := VancDecoder.isPacketOf_record ⟨h3, h4, h5, h6⟩
  simp only [VancPacket.wf, Bool.and_eq_true, beq_iff_eq, decide_eq_true_eq, hcount, hchecksum]
  exact ⟨hlength, hcs⟩

/-- The record DECODE_CDP answers is the one its payload decodes to. -/
theorem decodeCdp_ok_of_answers {s : State} {e : Status} {c : CdpPacket} (h : Answers .decodeCdp s ⟨e, .cdp c⟩) :
    decodeCdp s.params s.operands.pay = .ok c := by
  cases hd : decodeCdp s.params s.operands.pay with
  | error e' => cases (answers_iff_of_exec (exec_decodeCdp_error s hd)).mp h
  | ok c' => cases (answers_iff_of_exec (exec_decodeCdp_ok s hd)).mp h; rfl

/-- Settles O29: an OK answer is what its operand decodes to, and that is well formed. -/
theorem decodedRecordsAreWellFormed : Obligations.DecodedRecordsAreWellFormed := by
  unfold Obligations.DecodedRecordsAreWellFormed
  exact ⟨fun s v h => vancPacket_wf_of_decode (decodeVanc_ok_of_answers h),
    fun s c h => cdpPacket_wf_of_decode (decodeCdp_ok_of_answers h)⟩

end Sys2Proof.Proofs.CdpRecords

/-! PROOF. The statements about SELECT_PAIR and the remaining ones about PROCESS_LINE (43_channel_selector.md,
45_pipeline.md). -/

namespace Sys2Proof.Proofs.Composition

open Sys2Proof Sys2Proof.Machine Sys2Proof.Claims Sys2Proof.Proofs.Pipeline Sys2Proof.Proofs.PairEffect
  Sys2Proof.Proofs.Commands Sys2Proof.Proofs.CdpRecords

/-! ## The selector (R180) -/

/-- The selector's test is the statements'. -/
theorem test_iff_selectable (wt : PacketType) (u : CcDataUnit) :
    (u.valid && u.packetType == wt) = true ↔ Selectable wt u := by
  simp [Selectable]

section

variable {c : CdpPacket} {wt : PacketType}

theorem selectPair_eq_some {before after : List CcDataUnit} {u : CcDataUnit} (hc : c.ccPackets = before ++ u :: after)
    (hbefore : ∀ v ∈ before, ¬ Selectable wt v) (hu : Selectable wt u) : selectPair c wt = some (u.data1, u.data2) := by
  have hfind : c.ccPackets.find? (fun u => u.valid && u.packetType == wt) = some u :=
    List.find?_eq_some_iff_append.mpr ⟨(test_iff_selectable wt u).mpr hu, before, after, hc, fun v hv => by
      rw [Bool.not_eq_true', ← Bool.not_eq_true, test_iff_selectable]
      exact hbefore v hv⟩
  rw [selectPair, hfind]
  rfl

theorem selectPair_eq_none (h : ∀ v ∈ c.ccPackets, ¬ Selectable wt v) : selectPair c wt = none := by
  have hfind : c.ccPackets.find? (fun u => u.valid && u.packetType == wt) = none :=
    List.find?_eq_none.mpr fun v hv => by
      rw [test_iff_selectable]
      exact h v hv
  rw [selectPair, hfind]
  rfl

end

/-- Settles O30: the search finds the first unit its test accepts. -/
theorem selectPairReturnsTheFirstValidUnit : Obligations.SelectPairReturnsTheFirstValidUnit := by
  unfold Obligations.SelectPairReturnsTheFirstValidUnit
  refine fun s wt => ⟨fun before u after hc hbefore hu => ?found, fun hnone => ?absent⟩
  case found => rw [exec_selectPair, selectPair_eq_some hc hbefore hu, State.answer]
  case absent => rw [exec_selectPair, selectPair_eq_none hnone, State.answer]

/-- The pair SELECT_PAIR answers is the one it selects. -/
theorem selectPair_of_answers {s : State} {wt : PacketType} {selected : Option (Byte × Byte)}
    (h : Answers (.selectPair wt) s ⟨.ok, .pair selected⟩) : selectPair s.operands.cdp wt = selected := by
  cases (answers_iff_of_exec (exec_selectPair s wt)).mp h
  rfl

/-! ## The legacy counter (R147) -/

theorem seqDiscrepancyOf_eq (k : CdpPacket) :
    seqDiscrepancyOf k = decide (∃ x, k.sequenceCounterLegacy = some x ∧ x ≠ k.sequenceCounter) := by
  unfold seqDiscrepancyOf
  split
  · next h => simp [h]
  · next v h => simpa [h, bne] using Bool.eq_iff_iff.mpr (by simp)

theorem bigEndian_lowByte (wh wl : Word) :
    bigEndian (lowByte wh) (lowByte wl) = BitVec.ofNat 16 (wh.toNat % 256 * 256 + wl.toNat % 256) := by
  apply BitVec.eq_of_toNat_eq
  rw [bigEndian_toNat, lowByte_toNat, lowByte_toNat, BitVec.toNat_ofNat]
  omega

theorem legacyCounter_absent {p : Params} (h : p.legacySeqIdx = none) (words : List Word) (a : Nat) :
    legacyCounter p words a = none := by
  simp only [legacyCounter, h]

theorem legacyCounter_words {p : Params} {words : List Word} {a hi lo : Nat} {wh wl : Word}
    (h : p.legacySeqIdx = some (hi, lo)) (hh : words[a + hi]? = some wh) (hl : words[a + lo]? = some wl) :
    legacyCounter p words a = some (BitVec.ofNat 16 (wh.toNat % 256 * 256 + wl.toNat % 256)) := by
  have hlt := lt_of_getElem?_word hh
  have hlt' := lt_of_getElem?_word hl
  simp only [legacyCounter, h]
  rw [dif_pos ⟨hlt, hlt'⟩, wordAt_of_getElem? hlt hh, wordAt_of_getElem? hlt' hl, bigEndian_lowByte]

theorem legacyCounter_outside {p : Params} {words : List Word} {a hi lo : Nat} (h : p.legacySeqIdx = some (hi, lo))
    (hout : words[a + hi]? = none ∨ words[a + lo]? = none) : legacyCounter p words a = none := by
  simp only [List.getElem?_eq_none_iff] at hout
  simp only [legacyCounter, h]
  rw [dif_neg (by omega)]

/-! ## PROCESS_LINE by its stages (R240) -/

/-- A PROCESS_LINE whose stages end so. -/
theorem exec_processLine_eq {s : State} {wt : PacketType} {after : PipelineStep}
    (h : processLine s.params s.capt s.draws s.operands.line s.operands.time wt = after) :
    exec (.processLine wt) s =
      .next ((s.setCapt after.capt after.draws).answer after.status (.pipeline after.result)) := by
  rw [exec_processLine, h]

theorem answers_findCc_none {s : State} (h : findCcIndex s.params s.operands.line = none) :
    Answers .findCc s ⟨.noPacketFound, .adf none⟩ :=
  Scans.answers_of_scan (h ▸ exec_findCc s)

theorem answers_findCc_some {s : State} {a : Nat} (h : findCcIndex s.params s.operands.line = some a) :
    Answers .findCc s ⟨.ok, .adf (some a)⟩ :=
  Scans.answers_of_scan (h ▸ exec_findCc s)

/-- On a decoded packet's payload DECODE_CDP has no other error than MalformedCdp (R42, R240). -/
theorem malformed_of_decoded_payload {p : Params} {words : List Word} {a : Nat} {v : VancPacket} {e : Status}
    (hv : decodeVanc p words a = .ok v) (hk : decodeCdp p v.payload = .error e) : ∃ reason, e = .malformedCdp reason := by
  obtain ⟨hlong, -⟩ | hmalformed := decodeCdp_error hk
  · exact absurd (decodeVanc_payload_le hv) (by omega)
  · exact hmalformed

/-- Settles O51: the stage at which the line ends is the one that fails, and those before it completed. -/
theorem failingPipelineKeepsCompletedStages : Obligations.FailingPipelineKeepsCompletedStages := by
  unfold Obligations.FailingPipelineKeepsCompletedStages
  intro s t wt e r h hr hne
  have hreach := reaches_processLine s.params s.capt s.draws s.operands.line s.operands.time wt
  rw [exec_processLine] at h
  cases h
  generalize processLine s.params s.capt s.draws s.operands.line s.operands.time wt = after at hreach hr
  obtain ⟨hstatus, hresult⟩ : after.status = e ∧ after.result = r := by simpa using hr
  subst hstatus hresult
  cases hreach with
  | locateFails ha => exact .inl ⟨answers_findCc_none ha, rfl, rfl⟩
  | unpackFails a e ha hv =>
    exact .inr ⟨a, answers_findCc_some ha, .inl ⟨(answers_iff_of_exec (exec_decodeVanc_error _ hv)).mpr rfl, rfl⟩⟩
  | decodeFails a v e ha hv hk =>
    obtain ⟨reason, rfl⟩ := malformed_of_decoded_payload hv hk
    exact .inr ⟨a, answers_findCc_some ha, .inr ⟨v, (answers_iff_of_exec (exec_decodeVanc_ok _ hv)).mpr rfl,
      .inl ⟨reason, rfl, (answers_iff_of_exec (exec_decodeCdp_error _ hk)).mpr rfl, rfl⟩⟩⟩
  | selectsNone => exact absurd rfl hne
  | feeds => exact absurd rfl hne
  | feedFails a v k d1 d2 e ha hv hk hs hf =>
    obtain ⟨rfl, -⟩ := feedPair_error hf
    refine .inr ⟨a, answers_findCc_some ha, .inr ⟨v, (answers_iff_of_exec (exec_decodeVanc_ok _ hv)).mpr rfl,
      .inr ⟨k, d1, d2, (answers_iff_of_exec (exec_decodeCdp_ok _ hk)).mpr rfl,
        (answers_iff_of_exec (exec_selectPair _ wt)).mpr (by rw [hs]), rfl, ⟨_, exec_feedPair_error s hf, rfl⟩, ?_⟩⟩⟩
    rw [decodedResult, seqDiscrepancyOf_eq]
    rfl

/-- Settles O52: each single command's answer names its stage's result, and the stages' results are PROCESS_LINE's. -/
theorem pipelineIsTheComposition : Obligations.PipelineIsTheComposition := by
  unfold Obligations.PipelineIsTheComposition
  intro s wt a v c legacy c' disc hfind hvanc hcdp
  have ha := findCcIndex_of_answers hfind
  have hv := decodeVanc_ok_of_answers hvanc
  have hk := decodeCdp_ok_of_answers hcdp
  have hlegacy : legacyCounter s.params s.operands.line a = legacy := by
    cases hidx : s.params.legacySeqIdx with
    | none => simp only [legacy, hidx, legacyCounter_absent hidx]
    | some idx =>
      obtain ⟨hi, lo⟩ := idx
      cases hhi : s.operands.line[a + hi]? with
      | none => simp only [legacy, hidx, hhi, legacyCounter_outside hidx (.inl hhi)]
      | some wh =>
        cases hlo : s.operands.line[a + lo]? with
        | none => simp only [legacy, hidx, hhi, hlo, legacyCounter_outside hidx (.inr hlo)]
        | some wl => simp only [legacy, hidx, hhi, hlo, legacyCounter_words hidx hhi hlo]
  have hc : withLegacy s.params s.operands.line a c = c' := by rw [withLegacy, hlegacy]
  have hdone : decodedResult a v (withLegacy s.params s.operands.line a c) =
      ⟨some a, some v, some c', some disc, none, none, none, none⟩ := by
    rw [decodedResult, seqDiscrepancyOf_eq, hc]
  refine ⟨fun hselect => ?unselected, fun d1 d2 hselect u hu => ⟨fun f hf => ?fed, fun e he => ?failed⟩⟩
  case unselected =>
    have hline := processLine_of_select_none s.capt s.draws s.operands.time ha hv hk (selectPair_of_answers hselect)
    rw [hdone] at hline
    exact exec_processLine_eq hline
  case fed =>
    obtain ⟨hg, rfl⟩ := feedPair_of_exec_ok hu hf
    have hline := processLine_of_feed_ok s.capt s.draws s.operands.time ha hv hk (selectPair_of_answers hselect) hg
    rw [hdone] at hline
    exact exec_processLine_eq hline
  case failed =>
    obtain ⟨hg, rfl⟩ := feedPair_of_exec_error hu he
    have hline := processLine_of_feed_error s.capt s.draws s.operands.time ha hv hk (selectPair_of_answers hselect) hg
    rw [hdone] at hline
    exact exec_processLine_eq hline

/-- With the overflow bit clear and no TEXT_CAP every pair is answered OK (R215). -/
theorem exists_feedPair_ok {p : Params} {c : CaptionLineState} (d : Nat) (b0 b1 : Byte) (t : Time)
    (hclear : c.overflow = false) (hinfinite : p.textCap = none) : ∃ f, (feedPair p c d b0 b1 t).result = .ok f := by
  have heffect := effect_feedPair p c d b0 b1 t
  generalize feedPair p c d b0 b1 t = after at heffect ⊢
  obtain ⟨c', d', result⟩ := after
  cases heffect with
  | turnedAway hset => exact absurd (hclear.symm.trans hset) Bool.false_ne_true
  | overflows _ hfinite => exact absurd hinfinite hfinite
  | _ => exact ⟨_, rfl⟩

/-- Settles O53: the first three stages complete by hypothesis, and the pair, if there is one, is answered OK. -/
theorem processLineAnswersOk : Obligations.ProcessLineAnswersOk := by
  unfold Obligations.ProcessLineAnswersOk
  intro s wt a v c ha hv hk
  refine ⟨fun hnone => ?unselected, fun before u after hunits hbefore hu hclear hinfinite => ?fed⟩
  case unselected =>
    exact ⟨_, exec_processLine_of_eq (processLine_of_select_none _ _ _ ha hv hk (selectPair_eq_none hnone)),
      rfl, rfl, rfl, rfl, rfl, rfl⟩
  case fed =>
    obtain ⟨f, hf⟩ := exists_feedPair_ok s.draws u.data1 u.data2 s.operands.time hclear hinfinite
    exact ⟨_, exec_processLine_eq (processLine_of_feed_ok _ _ _ ha hv hk (selectPair_eq_some hunits hbefore hu) hf),
      rfl, rfl, rfl, rfl, f, ⟨_, exec_feedPair_ok s hf, rfl⟩, rfl, rfl⟩

end Sys2Proof.Proofs.Composition

/-! PROOF. The statements beside the core: several cores and the host's line selection (60_exceptions.md). -/

namespace Sys2Proof.Proofs.BesideTheCore

open Sys2Proof Sys2Proof.Machine Sys2Proof.Claims Sys2Proof.Proofs.Composition

/-- Settles O58: the list is set at the stepped index alone, and to what the step gives. -/
theorem instancesShareNothing : Obligations.InstancesShareNothing := by
  unfold Obligations.InstancesShareNothing
  intro cores after k h
  cases hk : cores[k]? with
  | none =>
    simp only [stepInstance, hk] at h
    cases h
    exact ⟨rfl, fun _ _ => rfl, fun s hs => by cases hs⟩
  | some s =>
    have hlt := lt_of_getElem?_word hk
    cases hstep : step s with
    | next s' =>
      simp only [stepInstance, hk, hstep] at h
      cases h
      refine ⟨List.length_set, fun j hj => List.getElem?_set_ne (Ne.symm hj), fun s₀ hs₀ => ?_⟩
      obtain rfl := Option.some.inj hs₀
      exact ⟨s', hstep, List.getElem?_set_self hlt⟩
    | fault r =>
      simp only [stepInstance, hk, hstep] at h
      cases h
    | refused r =>
      simp only [stepInstance, hk, hstep] at h
      cases h

/-! ## The host's line selection (R271) -/

section Probing

variable (o : Operands) (s : State)

theorem transact_findCc :
    transact .findCc o s = answerScan { s with operands := o } (findCcIndex s.params o.line) := rfl

/-- FIND_CC is answered OK exactly when it finds a caption header. -/
theorem lastOk_transact_findCc : (transact .findCc o s).lastOk = (findCcIndex s.params o.line).isSome := by
  rw [transact_findCc]
  cases findCcIndex s.params o.line <;> rfl

/-- One probe keeps what PROCESS_LINE depends on beside its operands. -/
theorem transact_findCc_frame :
    (transact .findCc o s).capt = s.capt ∧ (transact .findCc o s).params = s.params ∧
      (transact .findCc o s).draws = s.draws := by
  obtain ⟨st, he, -⟩ := answerScan_eq { s with operands := o } (findCcIndex s.params o.line)
  rw [transact_findCc, he]
  exact ⟨rfl, rfl, rfl⟩

end Probing

/-- Probing finds the first candidate whose line holds a caption header, and keeps what PROCESS_LINE depends on beside
its operands. -/
theorem probe_spec (frame : Nat → List Word) (candidates : List Nat) (s : State) :
    (probe frame candidates s).1 = (candidates.find? fun n => (findCcIndex s.params (frame n)).isSome) ∧
      (probe frame candidates s).2.capt = s.capt ∧ (probe frame candidates s).2.params = s.params ∧
      (probe frame candidates s).2.draws = s.draws := by
  induction candidates generalizing s with
  | nil => exact ⟨rfl, rfl, rfl, rfl⟩
  | cons n rest ih =>
    obtain ⟨hcapt, hparams, hdraws⟩ := transact_findCc_frame { s.operands with line := frame n } s
    have hok := lastOk_transact_findCc { s.operands with line := frame n } s
    rw [probe]
    generalize transact .findCc { s.operands with line := frame n } s = probed at hcapt hparams hdraws hok ⊢
    simp only [hok, List.find?_cons]
    cases hfound : (findCcIndex s.params (frame n)).isSome with
    | true => exact ⟨rfl, hcapt, hparams, hdraws⟩
    | false =>
      obtain ⟨ih, ihcapt, ihparams, ihdraws⟩ := ih probed
      rw [hparams] at ih ihparams
      exact ⟨ih, ihcapt.trans hcapt, ihparams, ihdraws.trans hdraws⟩

/-- What PROCESS_LINE on a line does to the registers, the line and the time being the host's (R240). -/
theorem sendLine_capt (words : List Word) (t : Time) (wt : PacketType) (s : State) :
    (sendLine words t wt s).capt = (processLine s.params s.capt s.draws words t wt).capt := rfl

section AutoDetect

variable {frame : Nat → List Word} {candidates : List Nat} {t : Time} {wt : PacketType} {s probed : State}

theorem autoDetectFrame_of_found {n : Nat} (h : probe frame candidates s = (some n, probed)) :
    autoDetectFrame candidates frame t wt none s = (some n, sendLine (frame n) t wt probed) := by
  simp only [autoDetectFrame, h]

theorem autoDetectFrame_of_not_found (h : probe frame candidates s = (none, probed)) :
    autoDetectFrame candidates frame t wt none s = (none, probed) := by
  simp only [autoDetectFrame, h]

theorem autoDetectFrame_of_remembered (k : Nat) :
    autoDetectFrame candidates frame t wt (some k) s =
      if (sendLine (frame k) t wt s).lastOk then (some k, sendLine (frame k) t wt s)
      else autoDetectFrame candidates frame t wt none (sendLine (frame k) t wt s) := rfl

/-- With no line remembered, the line found is remembered and sent: as the probes keep the registers, the parameters and the
draws, PROCESS_LINE after them does what it would have done before. -/
theorem autoDetectFrame_search (frame : Nat → List Word) (candidates : List Nat) (t : Time) (wt : PacketType) (s : State) :
    (autoDetectFrame candidates frame t wt none s).1 = (probe frame candidates s).1 ∧
      ((probe frame candidates s).1 = none → (autoDetectFrame candidates frame t wt none s).2.capt = s.capt) ∧
      ∀ n, (probe frame candidates s).1 = some n →
        (autoDetectFrame candidates frame t wt none s).2.capt = (sendLine (frame n) t wt s).capt := by
  obtain ⟨-, hcapt, hparams, hdraws⟩ := probe_spec frame candidates s
  cases hprobe : probe frame candidates s with
  | mk result probed =>
    rw [hprobe] at hcapt hparams hdraws
    cases result with
    | none =>
      rw [autoDetectFrame_of_not_found hprobe]
      exact ⟨rfl, fun _ => hcapt, fun n hn => by cases hn⟩
    | some m =>
      rw [autoDetectFrame_of_found hprobe]
      refine ⟨rfl, fun h => (by cases h), fun n hn => ?_⟩
      cases hn
      rw [sendLine_capt, sendLine_capt, hcapt, hparams, hdraws]

end AutoDetect

/-- Settles O59: the probes' result is the search's, and a remembered line is sent before it. -/
theorem probingFindsTheFirstCandidate : Obligations.ProbingFindsTheFirstCandidate := by
  unfold Obligations.ProbingFindsTheFirstCandidate
  intro frame candidates t wt s found handle
  obtain ⟨hfound, hcapt, hparams, -⟩ := probe_spec frame candidates s
  obtain ⟨hremembered, hnone, hsome⟩ := autoDetectFrame_search frame candidates t wt s
  rw [hfound] at hremembered hnone hsome
  refine ⟨hcapt, hparams, hfound, hremembered, hnone, hsome, fun k => ⟨fun hok => ?kept, fun hlost => ?searched⟩⟩
  case kept => exact (autoDetectFrame_of_remembered k).trans (if_pos hok)
  case searched => exact (autoDetectFrame_of_remembered k).trans (if_neg (by simp [hlost]))

end Sys2Proof.Proofs.BesideTheCore

/-! PROOF. What the commands beside the locator's read (70_reset_and_hazards.md, termination). -/

namespace Sys2Proof.Proofs.CommandReads

open Sys2Proof Sys2Proof.Machine Sys2Proof.Claims Sys2Proof.Proofs.Pipeline Sys2Proof.Proofs.Composition
  Sys2Proof.Proofs.CdpRecords

/-! ## DECODE_VANC -/

/-- What DECODE_VANC reads is within its line, at most `2 * dc + 7` words (R299). -/
theorem decodeVancReads_bound (p : Params) (words : List Word) (a : Nat) :
    (∀ j ∈ decodeVancReads p words a, j < words.length) ∧ (decodeVancReads p words a).length ≤ 2 * 255 + 7 ∧
      ∀ dc, words[a + 5]? = some dc → (decodeVancReads p words a).length ≤ 2 * (dc.toNat % 256) + 7 := by
  by_cases hheader : words.length < a + 6
  · have hnone : decodeVancReads p words a = [] := by rw [decodeVancReads, dif_neg (by omega)]
    simp [hnone]
  obtain ⟨dc, h5⟩ : ∃ dc, words[a + 5]? = some dc := ⟨_, getElem?_wordAt (by omega)⟩
  suffices h : (∀ j ∈ decodeVancReads p words a, j < words.length) ∧
      (decodeVancReads p words a).length ≤ 2 * (dc.toNat % 256) + 7 by
    refine ⟨h.1, by omega, fun dc' h5' => ?_⟩
    obtain rfl : dc = dc' := Option.some.inj (h5.symm.trans h5')
    exact h.2
  rw [decodeVancReads_eq h5]
  split
  · constructor
    · simp only [List.mem_append, List.mem_cons, List.not_mem_nil, or_false, mem_indicesFrom]
      split <;> simp <;> omega
    · simp only [List.length_append, List.length_cons, List.length_nil, indicesFrom_length]
      split <;> simp <;> omega
  · simp
    omega

/-- Two states in which a command writes this one response alone. -/
theorem answersAlike_of_exec {i : Instr} {s s' : State} {st : Status} {f : ResultFields}
    (h : exec i s = .next (s.answer st f)) (h' : exec i s' = .next (s'.answer st f)) : AnswersAlike i s s' :=
  ⟨_, ⟨_, h, rfl⟩, ⟨_, h', rfl⟩⟩

theorem answersAlike_decodeVanc {s s' : State}
    (h : decodeVanc s.params s.operands.line s.operands.adf = decodeVanc s'.params s'.operands.line s'.operands.adf) :
    AnswersAlike .decodeVanc s s' := by
  cases hd : decodeVanc s.params s.operands.line s.operands.adf with
  | ok v => exact answersAlike_of_exec (exec_decodeVanc_ok s hd) (exec_decodeVanc_ok s' (h.symm.trans hd))
  | error e => exact answersAlike_of_exec (exec_decodeVanc_error s hd) (exec_decodeVanc_error s' (h.symm.trans hd))

/-! ## DECODE_CDP -/

theorem answersAlike_decodeCdp {s s' : State}
    (h : decodeCdp s.params s.operands.pay = decodeCdp s'.params s'.operands.pay) : AnswersAlike .decodeCdp s s' := by
  cases hd : decodeCdp s.params s.operands.pay with
  | ok c => exact answersAlike_of_exec (exec_decodeCdp_ok s hd) (exec_decodeCdp_ok s' (h.symm.trans hd))
  | error e => exact answersAlike_of_exec (exec_decodeCdp_error s hd) (exec_decodeCdp_error s' (h.symm.trans hd))

/-- A well-formed record's block has at most 15 records: its count has 4 bits (R79, R299). -/
theorem records_length_le_of_wf {c : CdpPacket} {b : ServiceInfoBlock} (h : c.wf = true) (hb : c.serviceInfo = some b) :
    b.records.length ≤ 15 := by
  have hcount := b.serviceCount.isLt
  simp only [CdpPacket.wf, hb, Option.all_some, ServiceInfoBlock.wf, Bool.and_eq_true, beq_iff_eq] at h
  obtain ⟨-, hlength, -⟩ := h
  omega

/-- DECODE_CDP reads for at most its record's 13 fields, each at most once. -/
theorem decodeCdpReads_length (p : Params) (pay : List Byte) : (decodeCdpReads p pay).length ≤ 13 := by
  unfold decodeCdpReads
  split
  · simp
  split
  · simp
  split
  · simp
  split
  · simp
  simp only
  split
  · simp
  split
  · simp
  split <;> simp

/-- All of DECODE_CDP's reads together: 13 fields of at most 255 bytes (R299). -/
theorem decodeCdpReads_total (p : Params) (pay : List Byte) :
    ((decodeCdpReads p pay).flatMap Prod.snd).length ≤ 13 * 255 := by
  have hfields := decodeCdpReads_length p pay
  have hbound := (decodeCdpReads_bound p pay).2
  rw [List.length_flatMap]
  calc ((decodeCdpReads p pay).map fun e => e.2.length).sum ≤ ((decodeCdpReads p pay).map fun _ => 255).sum :=
        List.sum_le_sum fun e he => by
          obtain ⟨hlength, hpay, -⟩ := hbound e he
          omega
    _ = (decodeCdpReads p pay).length * 255 := by simp
    _ ≤ 13 * 255 := Nat.mul_le_mul_right 255 hfields

/-! ## FEED_PAIR and PROCESS_LINE -/

theorem answersAlike_feedPair {s s' : State} {b0 b1 : Byte}
    (h : (feedPair s.params s.capt s.draws b0 b1 s.operands.time).result =
      (feedPair s'.params s'.capt s'.draws b0 b1 s'.operands.time).result) :
    AnswersAlike (.feedPair b0 b1) s s' := by
  cases hg : (feedPair s.params s.capt s.draws b0 b1 s.operands.time).result with
  | ok f => exact ⟨_, ⟨_, exec_feedPair_ok s hg, rfl⟩, ⟨_, exec_feedPair_ok s' (h.symm.trans hg), rfl⟩⟩
  | error e => exact ⟨_, ⟨_, exec_feedPair_error s hg, rfl⟩, ⟨_, exec_feedPair_error s' (h.symm.trans hg), rfl⟩⟩

/-- Each stage of PROCESS_LINE reads what its command reads, or nothing where it is not reached (R240, R299). -/
theorem processLineReads_stages (p : Params) (c : CaptionLineState) (words : List Word) (wt : PacketType) :
    let r := processLineReads p c words wt
    r.locate = findCcReads p words ∧
      (r.unpack = [] ∨ ∃ a, r.unpack = decodeVancReads p words a) ∧
      (r.cdp = [] ∨ ∃ pay, r.cdp = decodeCdpReads p pay) ∧
      (r.legacy = [] ∨ ∃ a, r.legacy = legacyReads p words a) ∧
      (r.units = [] ∨ ∃ k, r.units = selectPairReads k wt) ∧
      (r.feed = .none ∨ ∃ b0 b1, r.feed = feedPairReads p c b0 b1) := by
  unfold processLineReads
  simp only
  split
  · exact ⟨rfl, .inl rfl, .inl rfl, .inl rfl, .inl rfl, .inl rfl⟩
  split
  · exact ⟨rfl, .inr ⟨_, rfl⟩, .inl rfl, .inl rfl, .inl rfl, .inl rfl⟩
  split
  · exact ⟨rfl, .inr ⟨_, rfl⟩, .inr ⟨_, rfl⟩, .inl rfl, .inl rfl, .inl rfl⟩
  split
  · exact ⟨rfl, .inr ⟨_, rfl⟩, .inr ⟨_, rfl⟩, .inr ⟨_, rfl⟩, .inr ⟨_, rfl⟩, .inl rfl⟩
  · exact ⟨rfl, .inr ⟨_, rfl⟩, .inr ⟨_, rfl⟩, .inr ⟨_, rfl⟩, .inr ⟨_, rfl⟩, .inr ⟨_, _, rfl⟩⟩

theorem findCcReads_bound (p : Params) (words : List Word) :
    (∀ j ∈ findCcReads p words, j < words.length) ∧ (findCcReads p words).length ≤ 5 * words.length := by
  obtain ⟨⟨n, -, he⟩, hlength⟩ := Scans.scanReads_bound (test := isCcHeader p words) (m := words.length)
    fun k => (isCcHeaderReads_bound p words k).1
  refine ⟨fun j hj => ?_, hlength⟩
  rw [findCcReads, he, List.mem_flatMap] at hj
  obtain ⟨k, -, hj⟩ := hj
  exact (isCcHeaderReads_bound p words k).2 j hj

theorem feedReads_count_le (p : Params) (c : CaptionLineState) (b0 b1 : Byte) :
    (feedPairReads p c b0 b1).count ≤ 2 + 15 + c.accumulatedText.length := by
  obtain ⟨hdeparity, hrows, htext⟩ := feedPairReads_bound p c b0 b1
  have htext : (feedPairReads p c b0 b1).text.length ≤ c.accumulatedText.length := by
    obtain h | h := htext <;> simp [h]
  unfold FeedReads.count
  omega

/-- PROCESS_LINE reads within its line, and no more than its stages together (R299). -/
theorem processLineReads_bound (p : Params) (c : CaptionLineState) (words : List Word) (wt : PacketType) :
    (∀ j ∈ (processLineReads p c words wt).words, j < words.length) ∧
      (processLineReads p c words wt).count ≤
        5 * words.length + (2 * 255 + 7) + 13 * 255 + 2 + 31 + (2 + 15 + c.accumulatedText.length) := by
  obtain ⟨hlocate, hunpack, hcdp, hlegacy, hunits, hfeed⟩ := processLineReads_stages p c words wt
  generalize processLineReads p c words wt = r at hlocate hunpack hcdp hlegacy hunits hfeed ⊢
  obtain ⟨hlocateIn, hlocateLength⟩ := findCcReads_bound p words
  rw [← hlocate] at hlocateIn hlocateLength
  have hunpack : (∀ j ∈ r.unpack, j < words.length) ∧ r.unpack.length ≤ 2 * 255 + 7 := by
    obtain h | ⟨a, h⟩ := hunpack
    · simp [h]
    · obtain ⟨hin, hlength, -⟩ := decodeVancReads_bound p words a
      exact h ▸ ⟨hin, hlength⟩
  have hcdp : (r.cdp.flatMap Prod.snd).length ≤ 13 * 255 := by
    obtain h | ⟨pay, h⟩ := hcdp
    · simp [h]
    · exact h ▸ decodeCdpReads_total p pay
  have hlegacy : r.legacy.length ≤ 2 ∧ ∀ j ∈ r.legacy, j < words.length := by
    obtain h | ⟨a, h⟩ := hlegacy
    · simp [h]
    · exact h ▸ legacyReads_bound p words a
  have hunits : r.units.length ≤ 31 := by
    obtain h | ⟨k, h⟩ := hunits
    · simp [h]
    · obtain ⟨n, -, hn, he⟩ := selectPairReads_bound k wt
      rwa [h, he, List.length_range]
  have hfeed : r.feed.count ≤ 2 + 15 + c.accumulatedText.length := by
    obtain h | ⟨b0, b1, h⟩ := hfeed
    · simp [h, FeedReads.none, FeedReads.count]
    · exact h ▸ feedReads_count_le p c b0 b1
  refine ⟨fun j hj => ?_, by unfold PipelineReads.count; omega⟩
  simp only [PipelineReads.words, List.mem_append] at hj
  obtain (hj | hj) | hj := hj
  · exact hlocateIn j hj
  · exact hunpack.1 j hj
  · exact hlegacy.2 j hj

/-- Settles O23: the bounds are the read lists', and each answer depends on nothing but what its list reads. -/
theorem commandReadsAreBounded : Obligations.CommandReadsAreBounded := by
  unfold Obligations.CommandReadsAreBounded
  intro s
  refine ⟨?vanc, ?cdp, fun wt => ?select, fun b0 b1 => ?feed, fun wt => ?line⟩
  case vanc =>
    obtain ⟨hin, hlength, hcount⟩ := decodeVancReads_bound s.params s.operands.line s.operands.adf
    exact ⟨hin, hlength, hcount, fun words' hagree => answersAlike_decodeVanc (decodeVanc_congr hagree)⟩
  case cdp =>
    obtain ⟨hnodup, hbound⟩ := decodeCdpReads_bound s.params s.operands.pay
    refine ⟨hnodup, hbound, fun c hc => ⟨c.ccBound, fun b hb => ?_⟩, fun pay' hagree =>
      answersAlike_decodeCdp (decodeCdp_congr hagree)⟩
    exact records_length_le_of_wf (cdpPacket_wf_of_decode (decodeCdp_ok_of_answers hc)) hb
  case select =>
    obtain ⟨n, hn, hn31, he⟩ := selectPairReads_bound s.operands.cdp wt
    refine ⟨⟨n, hn31, hn, he⟩, fun c' hagree => ⟨_, ⟨_, exec_selectPair s wt, rfl⟩, ⟨_, exec_selectPair _ wt, ?_⟩⟩⟩
    rw [selectPair_congr hagree]
    rfl
  case feed =>
    obtain ⟨hdeparity, hrows, htext⟩ := feedPairReads_bound s.params s.capt b0 b1
    exact ⟨hdeparity, hrows, htext, fun deparity' rows' text' hd hr ht =>
      answersAlike_feedPair (feedPair_congr hd hr ht)⟩
  case line =>
    obtain ⟨hin, hcount⟩ := processLineReads_bound s.params s.capt s.operands.line wt
    refine ⟨hin, hcount, fun words' deparity' rows' text' hw hd hr ht =>
      ⟨_, ⟨_, exec_processLine s wt, rfl⟩, ⟨_, exec_processLine _ wt, ?_⟩⟩⟩
    obtain ⟨hstatus, hresult⟩ := processLine_congr (d := s.draws) (t := s.operands.time) hw hd hr ht
    rw [hstatus, hresult]
    rfl

end Sys2Proof.Proofs.CommandReads
